-- ==== Sys2Proof/Word.lean ====
section
/-! DEFINITION. The word types of the machine (spec/00_scope.md R6, R7). -/

namespace Sys2Proof

/-- A data word: X, Y, ISR, OSR, a FIFO entry, a register, a bus address (R6). -/
abbrev Word := BitVec 32

/-- One byte of platform memory (20_memory.md R60). -/
abbrev Byte := BitVec 8

/-- One instruction word, one slot of instruction memory (30_encoding.md R86). -/
abbrev InstrWord := BitVec 16

/-- An instruction-memory address, a pin number, or a 5-bit operand (10_state.md R15). -/
abbrev Five := BitVec 5

/-- The number of a state machine of the block, `NUM_SM = 4` (00_scope.md R6). -/
abbrev SmId := Fin 4

end Sys2Proof
end

