-- ==== Sys2Proof/Config.lean ====
section
/-! DEFINITION. What an implementation or the outside world fixes: the OPEN parameters (spec/00_scope.md R6,
92_eei_decisions.md), the inputs of the host and the environment, the events an interleaving is made of (R10, R11), and
the free values: opaque constants that nothing in Lean can evaluate. -/

namespace Sys2Proof

/-- The size of a bus access, `n` in {1, 2, 4} (20_memory.md R55). -/
inductive AccessSize where
  | byte | half | word
  deriving DecidableEq, Repr, Inhabited

/-- The number of bytes of an access. -/
def AccessSize.bytes : AccessSize → Nat
  | .byte => 1
  | .half => 2
  | .word => 4

/-- Platform addresses, from `first` to `last`, that respond to accesses of one size. -/
structure BusRange where
  size : AccessSize
  first : Word
  last : Word
  deriving DecidableEq, Repr, Inhabited

/-- The OPEN parameters of 00_scope.md R6. `NUM_CH` is the number of channels a state holds. `busMap` is the OPEN
predicate `BUS_OK(addr, size)` as data: every predicate on 32-bit addresses and three sizes is some list of ranges
(DESIGN CHOICE, log 8). `unwrittenAtReset` is the model's own: whether X, Y and the OSR are unwritten after reset, as
10_state.md R16, R18 and R23 say, or hold 0, as 92_eei_decisions.md D7 allows (DESIGN CHOICE, log 4). -/
structure Params where
  seqBase : Word
  xferBase : Word
  seqIndex : Nat
  numGpio : Nat
  noblockPushClears : Bool
  unwrittenAtReset : Bool
  busMap : List BusRange
  deriving DecidableEq, Repr, Inhabited

/-- The defaults of 92_eei_decisions.md, OPEN parameters; `BUS_OK` has none there, and takes the addresses that
95_test_vectors.md section 9 gives it (DESIGN CHOICE, log 8); X, Y and the OSR hold 0 after reset (DESIGN CHOICE, log 4).
-/
def Params.default : Params :=
  { seqBase := 0x50200000#32, xferBase := 0x50000000#32, seqIndex := 0, numGpio := 30, noblockPushClears := true,
    unwrittenAtReset := false,
    busMap := [AccessSize.byte, AccessSize.half, AccessSize.word].map fun size =>
      { size := size, first := 0x20000000#32, last := 0x2003FFFF#32 } }

/-- `ext(p)`: what the outside world drives on a pin, 0, 1 or nothing (20_memory.md R76). -/
inductive PinDrive where
  | low | high | z
  deriving DecidableEq, Repr, Inhabited

/-- `funcsel(p)`: whether the GPIO multiplexer routes this block's output to the pad (20_memory.md R76). -/
inductive FuncSel where
  | seq | other
  deriving DecidableEq, Repr, Inhabited

/-- What the environment supplies (20_memory.md R76), with the request lines of devices outside the spec
(45_transfer_engine.md R148), bit `t` for `TREQ_SEL = t`. -/
structure Env where
  ext : Vector PinDrive 32
  funcsel : Vector FuncSel 32
  dreq : BitVec 64
  deriving DecidableEq, Repr, Inhabited

/-- One step of one agent (00_scope.md R10), with what the outside world supplies to it. -/
inductive Event where
  /-- A tick of a state machine (40_sequencer_cycle.md R105). -/
  | tick (k : SmId)
  /-- A transfer phase of a channel (45_transfer_engine.md R150). -/
  | channel (c : Nat)
  /-- A host read (20_memory.md R55, R84). -/
  | hostRead (addr : Word) (size : AccessSize)
  /-- A host write (20_memory.md R56, R84). -/
  | hostWrite (addr : Word) (size : AccessSize) (v : Word)
  /-- The environment changes its inputs (20_memory.md R76). -/
  | environment (env : Env)
  /-- The reset controller resets the block and the engine (70_reset_and_hazards.md R172). -/
  | blockReset
  deriving DecidableEq, Repr, Inhabited

/-- Free: the event of step number `now` where the agenda names none (R11: any agent may step; DESIGN CHOICE, log 1). -/
opaque Config.schedule : Nat → Event

/-- Free: the level a contended or floating pin reads at a step (20_memory.md R76, V3, V4; DESIGN CHOICE, log 5). -/
opaque Config.pinDraw : Nat → Word

/-- Free: what a register read with no stated value returns at a step (20_memory.md R63, R66, 10_state.md R47; DESIGN
CHOICE, log 5). -/
opaque Config.busDraw : Nat → Word

/-- Free: what an unwritten platform byte reads as, per step and address (20_memory.md R60, V6; DESIGN CHOICE, log 5).
-/
opaque Config.byteDraw : Nat → Nat → Byte

/-- Free: the capacities of the two FIFOs while both join bits are set, which 10_state.md R21 reserves (DESIGN CHOICE,
log 15). -/
opaque Config.reservedTxCap : Nat

/-- Free: see `Config.reservedTxCap`. -/
opaque Config.reservedRxCap : Nat

end Sys2Proof
end

