-- ==== Sys2Proof/Syntax.lean ====
section
/-! DEFINITION. The instructions of the SEQ-ISA: one constructor per row of spec/opcode_table.json (30_encoding.md R86
to R97). `ds` is the delay/side-set field of bits 12:8 (R88); how it splits depends on the executing state machine. -/

namespace Sys2Proof

/-- The operation of a MOV; 11 is reserved (30_encoding.md R95, 43_mov_irq_set.md R139). -/
inductive MovOp where
  | none | invert | reverse
  deriving DecidableEq, Repr

/-- The source of a MOV; 100 is reserved (30_encoding.md R95, 43_mov_irq_set.md R138). -/
inductive MovSrc where
  | pins | x | y | null | status | isr | osr
  deriving DecidableEq, Repr

/-- The instructions, in the order of the opcode table. -/
inductive Instr where
  | jmpAlways (ds addr : Five)
  | jmpNotX (ds addr : Five)
  | jmpXDec (ds addr : Five)
  | jmpNotY (ds addr : Five)
  | jmpYDec (ds addr : Five)
  | jmpXNeY (ds addr : Five)
  | jmpPin (ds addr : Five)
  | jmpNotOsre (ds addr : Five)
  | waitGpio (ds : Five) (pol : Bool) (index : Five)
  | waitPin (ds : Five) (pol : Bool) (index : Five)
  | waitIrq (ds : Five) (pol : Bool) (index : Five)
  | waitEdge (ds : Five) (pol : Bool) (index : Five)
  | inPins (ds count : Five)
  | inX (ds count : Five)
  | inY (ds count : Five)
  | inNull (ds count : Five)
  | inIsr (ds count : Five)
  | inOsr (ds count : Five)
  | outPins (ds count : Five)
  | outX (ds count : Five)
  | outY (ds count : Five)
  | outNull (ds count : Five)
  | outPindirs (ds count : Five)
  | outPc (ds count : Five)
  | outIsr (ds count : Five)
  | outExec (ds count : Five)
  | push (ds : Five) (iffull block : Bool)
  | pull (ds : Five) (ifempty block : Bool)
  | nop (ds : Five)
  | movPins (ds : Five) (op : MovOp) (src : MovSrc)
  | movX (ds : Five) (op : MovOp) (src : MovSrc)
  | movY (ds : Five) (op : MovOp) (src : MovSrc)
  | movExec (ds : Five) (op : MovOp) (src : MovSrc)
  | movPc (ds : Five) (op : MovOp) (src : MovSrc)
  | movIsr (ds : Five) (op : MovOp) (src : MovSrc)
  | movOsr (ds : Five) (op : MovOp) (src : MovSrc)
  | irqSet (ds index : Five)
  | irqWait (ds index : Five)
  | irqClear (ds : Five) (wait : Bool) (index : Five)
  | setPins (ds data : Five)
  | setX (ds data : Five)
  | setY (ds data : Five)
  | setPindirs (ds data : Five)
  deriving DecidableEq, Repr

/-- The delay/side-set field of an instruction, bits 12:8 (30_encoding.md R88). -/
def Instr.ds : Instr → Five
  | .jmpAlways ds _ | .jmpNotX ds _ | .jmpXDec ds _ | .jmpNotY ds _ | .jmpYDec ds _ | .jmpXNeY ds _ | .jmpPin ds _
  | .jmpNotOsre ds _ | .waitGpio ds _ _ | .waitPin ds _ _ | .waitIrq ds _ _ | .waitEdge ds _ _ | .inPins ds _
  | .inX ds _ | .inY ds _ | .inNull ds _ | .inIsr ds _ | .inOsr ds _ | .outPins ds _ | .outX ds _ | .outY ds _
  | .outNull ds _ | .outPindirs ds _ | .outPc ds _ | .outIsr ds _ | .outExec ds _ | .push ds _ _ | .pull ds _ _
  | .nop ds | .movPins ds _ _ | .movX ds _ _ | .movY ds _ _ | .movExec ds _ _ | .movPc ds _ _ | .movIsr ds _ _
  | .movOsr ds _ _ | .irqSet ds _ | .irqWait ds _ | .irqClear ds _ _ | .setPins ds _ | .setX ds _ | .setY ds _
  | .setPindirs ds _ => ds

end Sys2Proof
end

