-- ==== Sys2Proof/WellFormed.lean ====
section
/-! DEFINITION. Which terms of `Instr` are instructions of the machine (spec/30_encoding.md R99, R100;
43_mov_irq_set.md R142). -/

namespace Sys2Proof

/-- An IRQ index with bit 3 = 1 is reserved, for WAIT IRQ and for IRQ (30_encoding.md R99). -/
def irqIndexOk (index : Five) : Bool :=
  !index.getLsbD 3

/-- `mov y, y` with no operation is the row of `nop`, matched before the row of `mov y` (opcode_table.json, R142;
DEDUCED, log 22). -/
def movYOk (op : MovOp) (src : MovSrc) : Bool :=
  !(decide (op = .none) && decide (src = .y))

/-- The well-formed instructions: those that some word spells. -/
def Instr.wf : Instr → Bool
  | .waitIrq _ _ index => irqIndexOk index
  | .irqSet _ index => irqIndexOk index
  | .irqWait _ index => irqIndexOk index
  | .irqClear _ _ index => irqIndexOk index
  | .movY _ op src => movYOk op src
  | .jmpAlways _ _ | .jmpNotX _ _ | .jmpXDec _ _ | .jmpNotY _ _ | .jmpYDec _ _ | .jmpXNeY _ _ | .jmpPin _ _
  | .jmpNotOsre _ _ | .waitGpio _ _ _ | .waitPin _ _ _ | .waitEdge _ _ _ | .inPins _ _ | .inX _ _ | .inY _ _
  | .inNull _ _ | .inIsr _ _ | .inOsr _ _ | .outPins _ _ | .outX _ _ | .outY _ _ | .outNull _ _ | .outPindirs _ _
  | .outPc _ _ | .outIsr _ _ | .outExec _ _ | .push _ _ _ | .pull _ _ _ | .nop _ | .movPins _ _ _ | .movX _ _ _
  | .movExec _ _ _ | .movPc _ _ _ | .movIsr _ _ _ | .movOsr _ _ _ | .setPins _ _ | .setX _ _ | .setY _ _
  | .setPindirs _ _ => true

end Sys2Proof
end

