-- ==== Sys2Proof/Decode.lean ====
section
/-! DEFINITION. Decoding and encoding of the 16-bit words (spec/30_encoding.md R86 to R100). -/

namespace Sys2Proof

/-- The reserved encodings of 30_encoding.md R99, each by name. -/
inductive ReservedForm where
  /-- WAIT with source irq and index bit 3 = 1. -/
  | waitIrqIndex
  /-- IN with source 100 or 101. -/
  | inSource
  /-- PUSH with bits 4:0 not 00000. -/
  | pushLowBits
  /-- PULL with bits 4:0 not 00000. -/
  | pullLowBits
  /-- MOV with destination 011. -/
  | movDestination
  /-- MOV with op 11. -/
  | movOperation
  /-- MOV with source 100. -/
  | movSource
  /-- IRQ with bit 7 = 1. -/
  | irqBitSeven
  /-- IRQ with index bit 3 = 1. -/
  | irqIndex
  /-- SET with destination 011, 101, 110 or 111. -/
  | setDestination
  deriving DecidableEq, Repr

/-- JMP operands: bits 7:5 the condition, bits 4:0 the address (30_encoding.md R90). -/
def decodeJmp (ds : Five) (hi : BitVec 3) (lo : Five) : Instr :=
  match hi.toNat with
  | 0 => .jmpAlways ds lo
  | 1 => .jmpNotX ds lo
  | 2 => .jmpXDec ds lo
  | 3 => .jmpNotY ds lo
  | 4 => .jmpYDec ds lo
  | 5 => .jmpXNeY ds lo
  | 6 => .jmpPin ds lo
  | _ => .jmpNotOsre ds lo

/-- WAIT operands: bit 7 the polarity, bits 6:5 the source, bits 4:0 the index (30_encoding.md R91). -/
def decodeWait (ds : Five) (hi : BitVec 3) (lo : Five) : Except ReservedForm Instr :=
  match hi.toNat % 4 with
  | 0 => .ok (.waitGpio ds (hi.getLsbD 2) lo)
  | 1 => .ok (.waitPin ds (hi.getLsbD 2) lo)
  | 2 => if irqIndexOk lo then .ok (.waitIrq ds (hi.getLsbD 2) lo) else .error .waitIrqIndex
  | _ => .ok (.waitEdge ds (hi.getLsbD 2) lo)

/-- IN operands: bits 7:5 the source, bits 4:0 the bit count (30_encoding.md R92). -/
def decodeIn (ds : Five) (hi : BitVec 3) (lo : Five) : Except ReservedForm Instr :=
  match hi.toNat with
  | 0 => .ok (.inPins ds lo)
  | 1 => .ok (.inX ds lo)
  | 2 => .ok (.inY ds lo)
  | 3 => .ok (.inNull ds lo)
  | 4 => .error .inSource
  | 5 => .error .inSource
  | 6 => .ok (.inIsr ds lo)
  | _ => .ok (.inOsr ds lo)

/-- OUT operands: bits 7:5 the destination, bits 4:0 the bit count (30_encoding.md R93). -/
def decodeOut (ds : Five) (hi : BitVec 3) (lo : Five) : Instr :=
  match hi.toNat with
  | 0 => .outPins ds lo
  | 1 => .outX ds lo
  | 2 => .outY ds lo
  | 3 => .outNull ds lo
  | 4 => .outPindirs ds lo
  | 5 => .outPc ds lo
  | 6 => .outIsr ds lo
  | _ => .outExec ds lo

/-- PUSH and PULL operands: bit 7 chooses, bit 6 is iffull or ifempty, bit 5 block, bits 4:0 are 0
(30_encoding.md R94). -/
def decodePushPull (ds : Five) (hi : BitVec 3) (lo : Five) : Except ReservedForm Instr :=
  match hi.getLsbD 2, lo.toNat with
  | false, 0 => .ok (.push ds (hi.getLsbD 1) (hi.getLsbD 0))
  | true, 0 => .ok (.pull ds (hi.getLsbD 1) (hi.getLsbD 0))
  | false, _ => .error .pushLowBits
  | true, _ => .error .pullLowBits

/-- The operation of a MOV, bits 4:3 (30_encoding.md R95). -/
def decodeMovOp (lo : Five) : Option MovOp :=
  match lo.toNat / 8 with
  | 0 => some .none
  | 1 => some .invert
  | 2 => some .reverse
  | _ => none

/-- The source of a MOV, bits 2:0 (30_encoding.md R95). -/
def decodeMovSrc (lo : Five) : Option MovSrc :=
  match lo.toNat % 8 with
  | 0 => some .pins
  | 1 => some .x
  | 2 => some .y
  | 3 => some .null
  | 4 => none
  | 5 => some .status
  | 6 => some .isr
  | _ => some .osr

/-- The instruction of a MOV with decoded operation and source: bits 7:5 the destination (30_encoding.md R95), `mov y,
y` being `nop` (43_mov_irq_set.md R142; DEDUCED, log 22). -/
def decodeMovDest (ds : Five) (hi : BitVec 3) (op : MovOp) (src : MovSrc) : Except ReservedForm Instr :=
  match hi.toNat with
  | 0 => .ok (.movPins ds op src)
  | 1 => .ok (.movX ds op src)
  | 2 => if movYOk op src then .ok (.movY ds op src) else .ok (.nop ds)
  | 3 => .error .movDestination
  | 4 => .ok (.movExec ds op src)
  | 5 => .ok (.movPc ds op src)
  | 6 => .ok (.movIsr ds op src)
  | _ => .ok (.movOsr ds op src)

/-- MOV operands (30_encoding.md R95). -/
def decodeMov (ds : Five) (hi : BitVec 3) (lo : Five) : Except ReservedForm Instr :=
  match decodeMovOp lo, decodeMovSrc lo with
  | none, _ => .error .movOperation
  | some _, none => .error .movSource
  | some op, some src => decodeMovDest ds hi op src

/-- IRQ operands: bit 7 = 0, bit 6 clr, bit 5 wait, bits 4:0 the index with bit 3 = 0 (30_encoding.md R96). -/
def decodeIrq (ds : Five) (hi : BitVec 3) (lo : Five) : Except ReservedForm Instr :=
  match hi.getLsbD 2, irqIndexOk lo with
  | true, _ => .error .irqBitSeven
  | false, false => .error .irqIndex
  | false, true =>
    match hi.getLsbD 1, hi.getLsbD 0 with
    | false, false => .ok (.irqSet ds lo)
    | false, true => .ok (.irqWait ds lo)
    | true, w => .ok (.irqClear ds w lo)

/-- SET operands: bits 7:5 the destination, bits 4:0 the data (30_encoding.md R97). -/
def decodeSet (ds : Five) (hi : BitVec 3) (lo : Five) : Except ReservedForm Instr :=
  match hi.toNat with
  | 0 => .ok (.setPins ds lo)
  | 1 => .ok (.setX ds lo)
  | 2 => .ok (.setY ds lo)
  | 4 => .ok (.setPindirs ds lo)
  | _ => .error .setDestination

/-- The instruction whose fields are the opcode of bits 15:13 (30_encoding.md R87), `ds` of bits 12:8, and the operand
bits 7:5 and 4:0. -/
def decodeFields (op : BitVec 3) (ds : Five) (hi : BitVec 3) (lo : Five) : Except ReservedForm Instr :=
  match op.toNat with
  | 0 => .ok (decodeJmp ds hi lo)
  | 1 => decodeWait ds hi lo
  | 2 => decodeIn ds hi lo
  | 3 => .ok (decodeOut ds hi lo)
  | 4 => decodePushPull ds hi lo
  | 5 => decodeMov ds hi lo
  | 6 => decodeIrq ds hi lo
  | _ => decodeSet ds hi lo

/-- Decoding, total on 16-bit words: one instruction, or a reserved encoding by name (30_encoding.md R99, R100). -/
def decode (w : InstrWord) : Except ReservedForm Instr :=
  decodeFields (w.extractLsb' 13 3) (w.extractLsb' 8 5) (w.extractLsb' 5 3) (w.extractLsb' 0 5)

/-- A word from its fields (30_encoding.md R86). -/
def packWord (op : BitVec 3) (ds : Five) (hi : BitVec 3) (lo : Five) : InstrWord :=
  op ++ (ds ++ (hi ++ lo))

/-- Bits 7:5 of a WAIT: the polarity and the source (30_encoding.md R91). -/
def waitHi (pol : Bool) (source : BitVec 2) : BitVec 3 :=
  BitVec.ofBool pol ++ source

/-- Bits 7:5 of PUSH, PULL and IRQ: bit 7 and two flags (30_encoding.md R94, R96). -/
def flagsHi (bit7 bit6 bit5 : Bool) : BitVec 3 :=
  BitVec.ofBool bit7 ++ (BitVec.ofBool bit6 ++ BitVec.ofBool bit5)

/-- Bits 4:3 of a MOV (30_encoding.md R95). -/
def MovOp.code : MovOp → BitVec 2
  | .none => 0b00#2
  | .invert => 0b01#2
  | .reverse => 0b10#2

/-- Bits 2:0 of a MOV (30_encoding.md R95). -/
def MovSrc.code : MovSrc → BitVec 3
  | .pins => 0b000#3
  | .x => 0b001#3
  | .y => 0b010#3
  | .null => 0b011#3
  | .status => 0b101#3
  | .isr => 0b110#3
  | .osr => 0b111#3

/-- Bits 4:0 of a MOV. -/
def movLo (op : MovOp) (src : MovSrc) : Five :=
  op.code ++ src.code

/-- The word of an instruction, from the encoding tables of 30_encoding.md R87 to R97. -/
def encode : Instr → InstrWord
  | .jmpAlways ds addr => packWord 0b000#3 ds 0b000#3 addr
  | .jmpNotX ds addr => packWord 0b000#3 ds 0b001#3 addr
  | .jmpXDec ds addr => packWord 0b000#3 ds 0b010#3 addr
  | .jmpNotY ds addr => packWord 0b000#3 ds 0b011#3 addr
  | .jmpYDec ds addr => packWord 0b000#3 ds 0b100#3 addr
  | .jmpXNeY ds addr => packWord 0b000#3 ds 0b101#3 addr
  | .jmpPin ds addr => packWord 0b000#3 ds 0b110#3 addr
  | .jmpNotOsre ds addr => packWord 0b000#3 ds 0b111#3 addr
  | .waitGpio ds pol index => packWord 0b001#3 ds (waitHi pol 0b00#2) index
  | .waitPin ds pol index => packWord 0b001#3 ds (waitHi pol 0b01#2) index
  | .waitIrq ds pol index => packWord 0b001#3 ds (waitHi pol 0b10#2) index
  | .waitEdge ds pol index => packWord 0b001#3 ds (waitHi pol 0b11#2) index
  | .inPins ds count => packWord 0b010#3 ds 0b000#3 count
  | .inX ds count => packWord 0b010#3 ds 0b001#3 count
  | .inY ds count => packWord 0b010#3 ds 0b010#3 count
  | .inNull ds count => packWord 0b010#3 ds 0b011#3 count
  | .inIsr ds count => packWord 0b010#3 ds 0b110#3 count
  | .inOsr ds count => packWord 0b010#3 ds 0b111#3 count
  | .outPins ds count => packWord 0b011#3 ds 0b000#3 count
  | .outX ds count => packWord 0b011#3 ds 0b001#3 count
  | .outY ds count => packWord 0b011#3 ds 0b010#3 count
  | .outNull ds count => packWord 0b011#3 ds 0b011#3 count
  | .outPindirs ds count => packWord 0b011#3 ds 0b100#3 count
  | .outPc ds count => packWord 0b011#3 ds 0b101#3 count
  | .outIsr ds count => packWord 0b011#3 ds 0b110#3 count
  | .outExec ds count => packWord 0b011#3 ds 0b111#3 count
  | .push ds iffull block => packWord 0b100#3 ds (flagsHi false iffull block) 0b00000#5
  | .pull ds ifempty block => packWord 0b100#3 ds (flagsHi true ifempty block) 0b00000#5
  | .nop ds => packWord 0b101#3 ds 0b010#3 (movLo .none .y)
  | .movPins ds op src => packWord 0b101#3 ds 0b000#3 (movLo op src)
  | .movX ds op src => packWord 0b101#3 ds 0b001#3 (movLo op src)
  | .movY ds op src => packWord 0b101#3 ds 0b010#3 (movLo op src)
  | .movExec ds op src => packWord 0b101#3 ds 0b100#3 (movLo op src)
  | .movPc ds op src => packWord 0b101#3 ds 0b101#3 (movLo op src)
  | .movIsr ds op src => packWord 0b101#3 ds 0b110#3 (movLo op src)
  | .movOsr ds op src => packWord 0b101#3 ds 0b111#3 (movLo op src)
  | .irqSet ds index => packWord 0b110#3 ds (flagsHi false false false) index
  | .irqWait ds index => packWord 0b110#3 ds (flagsHi false false true) index
  | .irqClear ds wait index => packWord 0b110#3 ds (flagsHi false true wait) index
  | .setPins ds data => packWord 0b111#3 ds 0b000#3 data
  | .setX ds data => packWord 0b111#3 ds 0b001#3 data
  | .setY ds data => packWord 0b111#3 ds 0b010#3 data
  | .setPindirs ds data => packWord 0b111#3 ds 0b100#3 data

/-- The instruction the decoder reads from the low `nbits` bits of `w`, the bits above them being 0: one 16-bit slot of
instruction memory, which has no byte order (20_memory.md R59). -/
def decodeTableWord (nbits w : Nat) : Option Instr :=
  match decode (BitVec.ofNat 16 (w % 2 ^ nbits)) with
  | .ok i => some i
  | .error _ => none

end Sys2Proof
end

