-- ==== Sys2Proof/Machine/State.lean ====
section
/-! DEFINITION. The state of the SEQ block and the XFER engine (spec/10_state.md), platform memory, the inputs from
outside, the reasons a step can stop (60_exceptions.md R160, R161), and the state after reset (70_reset_and_hazards.md
R173). -/

namespace Sys2Proof.Machine

open Sys2Proof

/-- A cell that may be unwritten (10_state.md R23): `written` is the spec's mark, `val` the value once it is written. -/
structure Cell (w : Nat) where
  val : BitVec w
  written : Bool
  deriving DecidableEq, Repr

/-- A cell that holds `v` (10_state.md R23: a write makes the cell written). -/
def Cell.of {w : Nat} (v : BitVec w) : Cell w := { val := v, written := true }

/-- An unwritten cell (10_state.md R23); its value bits are zero (DESIGN CHOICE, log 4). -/
def Cell.unwritten {w : Nat} : Cell w := { val := 0, written := false }

/-- X, Y or the OSR after reset: unwritten (10_state.md R16, R18, R23), or 0, as 92_eei_decisions.md D7 allows, so that
every register holds a value (DESIGN CHOICE, log 4). -/
def Cell.atReset {w : Nat} (unwritten : Bool) : Cell w := if unwritten then .unwritten else .of 0

/-- The kind of an injected instruction (10_state.md R22). -/
inductive InjectKind where
  | host | exec
  deriving DecidableEq, Repr

/-- The only fault of the spec (60_exceptions.md R160). -/
inductive SmFault where
  | unwrittenRead
  deriving DecidableEq, Repr

/-- The sticky fault record of a state machine: the reason, the PC and the instruction, none for a fetch fault
(60_exceptions.md R160). -/
structure FaultRecord where
  reason : SmFault
  pc : Five
  word : Option InstrWord
  deriving DecidableEq, Repr

/-- The state of one state machine (10_state.md R14 to R23, R38 to R44). -/
structure Sm where
  pc : Five
  x : Cell 32
  y : Cell 32
  isr : Word
  isrCount : Nat
  osr : Cell 32
  osrCount : Nat
  tx : List Word
  rx : List Word
  delayCount : Nat
  pending : Option (InstrWord × InjectKind)
  irqWaiting : Bool
  edgePrev : Option Word
  clkdiv : Word
  execctrl : Word
  shiftctrl : Word
  pinctrl : Word
  faultRec : Option FaultRecord
  deriving DecidableEq, Repr

/-- The phase of a channel (10_state.md R48). -/
inductive Phase where
  | idle
  | hold (v : Word)
  deriving DecidableEq, Repr

/-- The state of one transfer channel (10_state.md R48 to R51). `ctrl` holds the RW fields of CHn_CTRL_TRIG, bits 23:0.
-/
structure Channel where
  readAddr : Word
  writeAddr : Word
  countReload : Word
  countRemaining : BitVec 28
  countMode : BitVec 4
  ctrl : BitVec 24
  readError : Bool
  writeError : Bool
  busy : Bool
  phase : Phase
  abortPending : Bool
  deriving DecidableEq, Repr

/-- Platform memory: the bytes that something has written, by rising address (20_memory.md R60). An unlisted byte has no
value of its own: a read of it is a draw. -/
abbrev Memory := List Host.Cell

/-- The state of the machine. The last four fields are the model's own (INVENTORY.md). -/
structure State where
  params : Params
  sms : Vector Sm 4
  imem : Vector (Cell 16) 32
  irq : BitVec 8
  padOut : Word
  padOe : Word
  rxStall : BitVec 4
  rxUnder : BitVec 4
  txOver : BitVec 4
  txStall : BitVec 4
  inte0 : BitVec 12
  intf0 : BitVec 12
  inte1 : BitVec 12
  intf1 : BitVec 12
  smEnable : BitVec 4
  inputSyncBypass : Word
  channels : List Channel
  mem : Memory
  env : Env
  hostData : Word
  active : SmId
  now : Nat
  agenda : List Event
  deriving DecidableEq, Repr

/-- Who takes a step (00_scope.md R10). -/
inductive Agent where
  | sm (k : SmId)
  | channel (c : Nat)
  | host
  deriving DecidableEq, Repr

/-- Why the machine stops with a fault. The spec's own fault, UnwrittenRead, is not among them: it stops one state
machine and the run goes on (60_exceptions.md R160, DEDUCED, log 6). -/
inductive Fault where
  /-- Raised by a host access to a platform address that does not respond: a bus error that 20_memory.md R60 calls
  outside the spec for the host. Safe: the model stops where the hardware goes on in a way no rule states (DESIGN
  CHOICE, log 11). -/
  | hostBusError (addr : Word)
  deriving DecidableEq, Repr

/-- Why a step is refused (60_exceptions.md R161): the reasons of the spec, each with the agent whose step it was. All
are safe: the model gives no meaning where the spec gives none. -/
inductive Refusal where
  /-- Raised by `exec` for an instruction that has no meaning yet. Safe. -/
  | notModelled (mnemonic : String)
  /-- Raised by a tick whose configuration is not admitted (10_state.md R45). Safe. -/
  | configNotAdmitted (a : Agent)
  /-- Raised by a tick that would execute a reserved encoding (30_encoding.md R99). Safe. -/
  | reservedEncoding (a : Agent)
  /-- Raised by a write of SMn_INSTR while an injection is pending (40_sequencer_cycle.md R110). Safe. -/
  | injectionOverrun (a : Agent)
  /-- Raised by a write of the slot an enabled state machine is on (20_memory.md R70). Safe. -/
  | liveInstructionWrite (a : Agent)
  /-- Raised by a narrow or misaligned access to a block register (20_memory.md R57). Safe. -/
  | narrowRegisterAccess (a : Agent)
  /-- Raised by an access to an offset no register has (20_memory.md R58, 45_transfer_engine.md R147). Safe. -/
  | unmappedOffset (a : Agent)
  /-- Raised by an access to the atomic alias ranges (20_memory.md R58). Safe. -/
  | atomicAlias (a : Agent)
  /-- Raised by a misaligned access to platform memory (20_memory.md R60). Safe. -/
  | misalignedAccess (a : Agent)
  /-- Raised by a write to a register of a busy channel (45_transfer_engine.md R146). Safe. -/
  | busyChannelWrite (a : Agent)
  /-- Raised by a trigger with a configuration the spec leaves out (45_transfer_engine.md R147). Safe. -/
  | channelConfigNotAdmitted (a : Agent)
  deriving DecidableEq, Repr

/-- The outcome of a step of this machine. -/
abbrev Out := Host.Outcome State Fault Refusal

/-- A state machine after a block reset (70_reset_and_hazards.md R173), X, Y and the OSR unwritten or holding 0. -/
def Sm.resetWith (unwritten : Bool) : Sm :=
  { pc := 0, x := .atReset unwritten, y := .atReset unwritten, isr := 0, isrCount := 0, osr := .atReset unwritten,
    osrCount := 32,
    tx := [], rx := [], delayCount := 0, pending := none, irqWaiting := false, edgePrev := none,
    clkdiv := 0x00010000#32, execctrl := 0x0001F000#32, shiftctrl := 0x000C0000#32, pinctrl := 0x14000000#32,
    faultRec := none }

/-- A state machine right after `State.reset`: X, Y and the OSR hold 0 (DESIGN CHOICE, log 4). -/
def Sm.reset : Sm := Sm.resetWith Params.default.unwrittenAtReset

/-- A channel after a block reset (70_reset_and_hazards.md R173). -/
def Channel.reset : Channel :=
  { readAddr := 0, writeAddr := 0, countReload := 0, countRemaining := 0, countMode := 0, ctrl := 0, readError := false,
    writeError := false, busy := false, phase := .idle, abortPending := false }

/-- The environment the model starts with: every pin driven low from outside and routed elsewhere (DESIGN CHOICE, log
9). -/
def envAtReset : Env :=
  { ext := Vector.replicate 32 .low, funcsel := Vector.replicate 32 .other, dreq := 0 }

/-- The number of channels at reset (PRESUMED, log 7). -/
def numChAtReset : Nat := 12

/-- The block and the engine after a block reset, with the given parameters and number of channels: every piece of state
at the value of 70_reset_and_hazards.md R173; X, Y and the OSR as the parameter `unwrittenAtReset` says (DESIGN CHOICE,
log 4). -/
def State.resetWith (p : Params) (numCh : Nat) (env : Env) : State :=
  { params := p, sms := Vector.replicate 4 (Sm.resetWith p.unwrittenAtReset), imem := Vector.replicate 32 .unwritten, irq := 0, padOut := 0,
    padOe := 0, rxStall := 0, rxUnder := 0, txOver := 0, txStall := 0, inte0 := 0, intf0 := 0, inte1 := 0, intf1 := 0,
    smEnable := 0, inputSyncBypass := 0, channels := List.replicate numCh Channel.reset, mem := [], env := env,
    hostData := 0, active := 0, now := 0, agenda := [] }

/-- The machine right after reset (70_reset_and_hazards.md R172, R173). -/
def State.reset : State := State.resetWith Params.default numChAtReset envAtReset

/-- State machine `k`. -/
def State.sm (s : State) (k : SmId) : Sm := s.sms.get k

/-- State machine `k` replaced. -/
def State.setSm (s : State) (k : SmId) (m : Sm) : State := { s with sms := s.sms.set k.val m k.isLt }

/-- The executing state machine (DESIGN CHOICE, log 3). -/
def State.me (s : State) : Sm := s.sm s.active

/-- The executing state machine replaced. -/
def State.setMe (s : State) (m : Sm) : State := s.setSm s.active m

end Sys2Proof.Machine
end

