-- ==== Sys2Proof/Machine/Memory.lean ====
section
/-! DEFINITION. Platform memory: a byte array over the bus addresses outside the two windows (spec/20_memory.md R59,
R60). The canonical form is: addresses strictly rising. No entry equals what an unlisted byte reads as, because an
unlisted byte has no value of its own. -/

namespace Sys2Proof.Machine

open Sys2Proof

/-- The value of the byte at an address, none where nothing has written it (20_memory.md R60). -/
def Memory.byteAt : Memory → Nat → Option Byte
  | [], _ => none
  | (b, v) :: rest, a => if a = b then some v else Memory.byteAt rest a

/-- One byte stored, keeping the addresses rising. -/
def Memory.setByte : Memory → Nat → Byte → Memory
  | [], a, v => [(a, v)]
  | (b, u) :: rest, a, v =>
    if a < b then (a, v) :: (b, u) :: rest
    else if a = b then (a, v) :: rest
    else (b, u) :: Memory.setByte rest a v

/-- Bytes stored at rising addresses from `a` up. -/
def Memory.setBytes (m : Memory) (a : Nat) : List Byte → Memory
  | [] => m
  | v :: rest => Memory.setBytes (m.setByte a v) (a + 1) rest

/-- The canonical form: addresses strictly rising and on the bus. -/
def Memory.wf (m : Memory) : Bool :=
  decide ((m.map Prod.fst).Pairwise (· < ·)) && m.all fun cell => decide (cell.1 < 2 ^ 32)

/-- The bytes of a value of an access, the lowest address first: little-endian (20_memory.md R59). -/
def bytesOf (size : AccessSize) (v : Word) : List Byte :=
  match size with
  | .byte => [v.extractLsb' 0 8]
  | .half => [v.extractLsb' 0 8, v.extractLsb' 8 8]
  | .word => [v.extractLsb' 0 8, v.extractLsb' 8 8, v.extractLsb' 16 8, v.extractLsb' 24 8]

/-- The little-endian assembly of the bytes of an access, zero-extended to 32 bits (20_memory.md R59, R60). `byte i` is
the byte at the access's address plus `i`. -/
def assemble (size : AccessSize) (byte : Nat → Byte) : Word :=
  match size with
  | .byte => (byte 0).zeroExtend 32
  | .half => (byte 1 ++ byte 0).zeroExtend 32
  | .word => byte 3 ++ (byte 2 ++ (byte 1 ++ byte 0))

/-- The byte a read of address `a` returns at this step: its value, or a draw (20_memory.md R60, V6). -/
def State.readByte (s : State) (a : Nat) : Byte := (s.mem.byteAt a).getD (Config.byteDraw s.now a)

/-- The value a read of platform memory returns (20_memory.md R60). -/
def State.platformValue (s : State) (addr : Word) (size : AccessSize) : Word :=
  assemble size fun i => s.readByte (addr.toNat + i)

/-- A write of platform memory (20_memory.md R60). -/
def State.platformStore (s : State) (addr : Word) (size : AccessSize) (v : Word) : State :=
  { s with mem := s.mem.setBytes addr.toNat (bytesOf size v) }

end Sys2Proof.Machine
end

