-- ==== Sys2Proof/Machine/Bits.lean ====
section
/-! DEFINITION. Bit-field helpers (spec/00_scope.md R7, R8). -/

namespace Sys2Proof.Machine

open Sys2Proof

/-- The vector whose bit `i` is `f i`. -/
def ofBits : (n : Nat) → (Nat → Bool) → BitVec n
  | 0, _ => 0#0
  | n + 1, f => BitVec.cons (f n) (ofBits n f)

/-- The 32-bit word whose bit `i` is `f i`. -/
def wordOfBits (f : Nat → Bool) : Word := ofBits 32 f

/-- `mask(n) = 2^n - 1` (00_scope.md R8). -/
def maskBits (n : Nat) : Word := BitVec.ofNat 32 (2 ^ n - 1)

/-- `rev32(v)`, with `rev32(v)[i] = v[31-i]` (00_scope.md R8). -/
def rev32 (v : Word) : Word := wordOfBits fun i => v.getLsbD (31 - i)

/-- The field of `n` bits from bit `lo` up, as a number (00_scope.md R7). -/
def field (v : Word) (lo n : Nat) : Nat := (v.toNat / 2 ^ lo) % 2 ^ n

/-- The 5-bit field from bit `lo` up. -/
def field5 (v : Word) (lo : Nat) : Five := v.extractLsb' lo 5

/-- Bit `i` set. -/
def setBit {w : Nat} (v : BitVec w) (i : Nat) : BitVec w := v ||| BitVec.twoPow w i

/-- Bit `i` cleared. -/
def clearBit {w : Nat} (v : BitVec w) (i : Nat) : BitVec w := v &&& ~~~(BitVec.twoPow w i)

/-- `(a + b) mod 32` on pin numbers (00_scope.md R8). -/
def pinAdd (base : Five) (i : Nat) : Nat := (base.toNat + i) % 32

/-- `WritePins` and `WritePinDirs` on a pad register: bits `(base + i) mod 32` for `i < count` take bit `i` of the
value, the others keep theirs (40_sequencer_cycle.md R117). -/
def writePinRange (pad : Word) (base : Five) (count : Nat) (value : Word) : Word :=
  wordOfBits fun p =>
    let i := (p + 32 - base.toNat) % 32
    if i < count then value.getLsbD i else pad.getLsbD p

/-- The sample rotated by `IN_BASE`: bit `i` is pin `(IN_BASE + i) mod 32` (40_sequencer_cycle.md R118). -/
def rotatePins (cur : Word) (base : Five) : Word := wordOfBits fun i => cur.getLsbD (pinAdd base i)

end Sys2Proof.Machine
end

