-- ==== Sys2Proof/Machine/Fields.lean ====
section
/-! DEFINITION. The fields of the configuration registers of a state machine (spec/10_state.md R38 to R45) and of a
channel (R49), and what a write of each register stores. -/

namespace Sys2Proof.Machine

open Sys2Proof

/-- EXECCTRL.SIDE_EN (10_state.md R39). -/
def Sm.sideEn (m : Sm) : Bool := m.execctrl.getLsbD 30
/-- EXECCTRL.SIDE_PINDIR (R39). -/
def Sm.sidePindir (m : Sm) : Bool := m.execctrl.getLsbD 29
/-- EXECCTRL.JMP_PIN (R39). -/
def Sm.jmpPin (m : Sm) : Five := field5 m.execctrl 24
/-- EXECCTRL.INLINE_OUT_EN (R39). -/
def Sm.inlineOutEn (m : Sm) : Bool := m.execctrl.getLsbD 18
/-- EXECCTRL.OUT_STICKY (R39). -/
def Sm.outSticky (m : Sm) : Bool := m.execctrl.getLsbD 17
/-- EXECCTRL.WRAP_TOP (R40). -/
def Sm.wrapTop (m : Sm) : Five := field5 m.execctrl 12
/-- EXECCTRL.WRAP_BOTTOM (R40). -/
def Sm.wrapBottom (m : Sm) : Five := field5 m.execctrl 7
/-- EXECCTRL.STATUS_SEL (R41). -/
def Sm.statusSel (m : Sm) : Bool := m.execctrl.getLsbD 4
/-- EXECCTRL.STATUS_N (R41). -/
def Sm.statusN (m : Sm) : Nat := field m.execctrl 0 4

/-- SHIFTCTRL.FJOIN_RX (R42). -/
def Sm.fjoinRx (m : Sm) : Bool := m.shiftctrl.getLsbD 31
/-- SHIFTCTRL.FJOIN_TX (R42). -/
def Sm.fjoinTx (m : Sm) : Bool := m.shiftctrl.getLsbD 30
/-- `pull_thresh_eff` (R43). -/
def Sm.pullThresh (m : Sm) : Nat := if field m.shiftctrl 25 5 = 0 then 32 else field m.shiftctrl 25 5
/-- `push_thresh_eff` (R43). -/
def Sm.pushThresh (m : Sm) : Nat := if field m.shiftctrl 20 5 = 0 then 32 else field m.shiftctrl 20 5
/-- SHIFTCTRL.OUT_SHIFTDIR, 1 is right (R42). -/
def Sm.outShiftRight (m : Sm) : Bool := m.shiftctrl.getLsbD 19
/-- SHIFTCTRL.IN_SHIFTDIR, 1 is right (R42). -/
def Sm.inShiftRight (m : Sm) : Bool := m.shiftctrl.getLsbD 18
/-- SHIFTCTRL.AUTOPULL (R42). -/
def Sm.autopull (m : Sm) : Bool := m.shiftctrl.getLsbD 17
/-- SHIFTCTRL.AUTOPUSH (R42). -/
def Sm.autopush (m : Sm) : Bool := m.shiftctrl.getLsbD 16

/-- PINCTRL.SIDESET_COUNT (R44). -/
def Sm.sidesetCount (m : Sm) : Nat := field m.pinctrl 29 3
/-- PINCTRL.SET_COUNT (R44). -/
def Sm.setCount (m : Sm) : Nat := field m.pinctrl 26 3
/-- PINCTRL.OUT_COUNT (R44). -/
def Sm.outCount (m : Sm) : Nat := field m.pinctrl 20 6
/-- PINCTRL.IN_BASE (R44). -/
def Sm.inBase (m : Sm) : Five := field5 m.pinctrl 15
/-- PINCTRL.SIDESET_BASE (R44). -/
def Sm.sidesetBase (m : Sm) : Five := field5 m.pinctrl 10
/-- PINCTRL.SET_BASE (R44). -/
def Sm.setBase (m : Sm) : Five := field5 m.pinctrl 5
/-- PINCTRL.OUT_BASE (R44). -/
def Sm.outBase (m : Sm) : Five := field5 m.pinctrl 0

/-- The configuration is admitted (10_state.md R45). -/
def Sm.admitted (m : Sm) : Bool :=
  !(m.fjoinTx && m.fjoinRx) && decide (m.sidesetCount ≤ 5) && decide (m.setCount ≤ 5) && decide (m.outCount ≤ 32) &&
    !(m.sideEn && decide (m.sidesetCount = 0)) && !m.outSticky && !m.inlineOutEn

/-- What a write of SMn_CLKDIV stores: bits 7:0 are reserved (R38, 20_memory.md R62). -/
def clkdivStored (v : Word) : Word := v &&& 0xFFFFFF00#32
/-- What a write of SMn_EXECCTRL stores: bit 31 is read-only, bits 6:5 are reserved (R39, 20_memory.md R62, R63). -/
def execctrlStored (v : Word) : Word := v &&& 0x7FFFFF9F#32
/-- What a write of SMn_SHIFTCTRL stores: bits 15:0 are reserved (R42, 20_memory.md R62). -/
def shiftctrlStored (v : Word) : Word := v &&& 0xFFFF0000#32

/-- CTRL_TRIG.SNIFF_EN (10_state.md R49). -/
def Channel.sniffEn (ch : Channel) : Bool := ch.ctrl.getLsbD 23
/-- CTRL_TRIG.BSWAP (R49). -/
def Channel.bswap (ch : Channel) : Bool := ch.ctrl.getLsbD 22
/-- CTRL_TRIG.TREQ_SEL (R49). -/
def Channel.treqSel (ch : Channel) : Nat := (ch.ctrl.extractLsb' 15 6).toNat
/-- CTRL_TRIG.CHAIN_TO (R49). -/
def Channel.chainTo (ch : Channel) : Nat := (ch.ctrl.extractLsb' 11 4).toNat
/-- CTRL_TRIG.RING_SIZE (R49). -/
def Channel.ringSize (ch : Channel) : Nat := (ch.ctrl.extractLsb' 6 4).toNat
/-- CTRL_TRIG.INCR_WRITE (R49). -/
def Channel.incrWrite (ch : Channel) : Bool := ch.ctrl.getLsbD 5
/-- CTRL_TRIG.INCR_READ (R49). -/
def Channel.incrRead (ch : Channel) : Bool := ch.ctrl.getLsbD 4
/-- CTRL_TRIG.DATA_SIZE: byte, halfword, word, or the refused code 3 (R49). -/
def Channel.dataSize (ch : Channel) : Option AccessSize :=
  match (ch.ctrl.extractLsb' 2 2).toNat with
  | 0 => some .byte
  | 1 => some .half
  | 2 => some .word
  | _ => none

/-- TRANS_COUNT reload bits 31:28, the mode (R50). -/
def Channel.reloadMode (ch : Channel) : BitVec 4 := ch.countReload.extractLsb' 28 4
/-- TRANS_COUNT reload bits 27:0, the count (R50). -/
def Channel.reloadCount (ch : Channel) : BitVec 28 := ch.countReload.extractLsb' 0 28

/-- The fields a trigger of channel `c` checks, but for the count mode (45_transfer_engine.md R147). -/
def Channel.ctrlAdmitted (ch : Channel) (c : Nat) : Bool :=
  ch.dataSize.isSome && decide (ch.ringSize = 0) && decide (ch.chainTo = c) && !ch.sniffEn

/-- A count mode a trigger admits: 0x0 counted, 0xF endless (10_state.md R50). -/
def countModeAdmitted (mode : BitVec 4) : Bool := decide (mode = 0x0#4) || decide (mode = 0xF#4)

end Sys2Proof.Machine
end

