-- ==== Sys2Proof/Machine/Flags.lean ====
section
/-! DEFINITION. The FIFOs' status, the IRQ flags, the sticky FDEBUG flags, the STATUS value of MOV and the interrupt
sources (spec/10_state.md R20, R21, R25, R27, R31 to R33, R37, R41; 43_mov_irq_set.md R143; 60_exceptions.md R164,
R165). -/

namespace Sys2Proof.Machine

open Sys2Proof

/-- The capacity of the TX FIFO (10_state.md R21); both join bits set is reserved, and free until a
tick refuses it (DESIGN CHOICE, log 15). -/
def Sm.txCap (m : Sm) : Nat :=
  match m.fjoinTx, m.fjoinRx with
  | false, false => 4
  | true, false => 8
  | false, true => 0
  | true, true => min 8 Config.reservedTxCap

/-- The capacity of the RX FIFO (10_state.md R21). -/
def Sm.rxCap (m : Sm) : Nat :=
  match m.fjoinTx, m.fjoinRx with
  | false, false => 4
  | true, false => 0
  | false, true => 8
  | true, true => min 8 Config.reservedRxCap

/-- `full(TX)` (10_state.md R20). -/
def Sm.txFull (m : Sm) : Bool := decide (m.tx.length = m.txCap)
/-- `full(RX)` (10_state.md R20). -/
def Sm.rxFull (m : Sm) : Bool := decide (m.rx.length = m.rxCap)
/-- `empty(TX)` (10_state.md R20). -/
def Sm.txEmpty (m : Sm) : Bool := m.tx.isEmpty
/-- `empty(RX)` (10_state.md R20). -/
def Sm.rxEmpty (m : Sm) : Bool := m.rx.isEmpty

/-- `EXECCTRL.EXEC_STALLED`: an instruction of kind HOST is pending (40_sequencer_cycle.md R111). -/
def Sm.execStalled (m : Sm) : Bool :=
  match m.pending with
  | some (_, .host) => true
  | some (_, .exec) => false
  | none => false

/-- The value `MOV ..., STATUS` reads (10_state.md R41). -/
def Sm.statusValue (m : Sm) : Word :=
  if (if m.statusSel then m.rx.length else m.tx.length) < m.statusN then 0xFFFFFFFF#32 else 0#32

/-- `IrqIndex(idx, s)`: the flag a 5-bit index names for state machine `k`, none where bit 3 makes it reserved
(43_mov_irq_set.md R143; DEDUCED, log 23). -/
def irqIndex (idx : Five) (k : SmId) : Option (BitVec 3) :=
  if idx.getLsbD 3 then none
  else if idx.getLsbD 4 then
    some (idx.extractLsb' 2 1 ++ (idx.extractLsb' 0 2 + BitVec.ofNat 2 k.val))
  else some (idx.extractLsb' 0 3)

/-- `irq[f]` (10_state.md R25). -/
def State.irqFlag (s : State) (f : BitVec 3) : Bool := s.irq.getLsbD f.toNat

/-- `irq[f] <- 1`. -/
def State.setIrq (s : State) (f : BitVec 3) : State := { s with irq := setBit s.irq f.toNat }

/-- `irq[f] <- 0`. -/
def State.clearIrq (s : State) (f : BitVec 3) : State := { s with irq := clearBit s.irq f.toNat }

/-- `FDEBUG.RXSTALL[s] <- 1` for the executing state machine (10_state.md R27). -/
def State.setRxStall (s : State) : State := { s with rxStall := setBit s.rxStall s.active.val }

/-- `FDEBUG.TXSTALL[s] <- 1` for the executing state machine (10_state.md R27). -/
def State.setTxStall (s : State) : State := { s with txStall := setBit s.txStall s.active.val }

/-- The 4 bits that hold `f` of each state machine, bit `k` for SM `k`. -/
def State.perSm (s : State) (f : Sm → Bool) : BitVec 4 :=
  BitVec.ofBool (f (s.sm 3)) ++ (BitVec.ofBool (f (s.sm 2)) ++ (BitVec.ofBool (f (s.sm 1)) ++ BitVec.ofBool (f (s.sm 0))))

/-- The 12 raw interrupt sources: RXNEMPTY, TXNFULL and IRQ flags 0 to 3; a FIFO of capacity 0 raises neither
(60_exceptions.md R164). -/
def State.intr (s : State) : BitVec 12 :=
  s.irq.extractLsb' 0 4 ++ (s.perSm (fun m => !m.txFull) ++ s.perSm (fun m => !m.rxEmpty))

/-- `IRQ0_INTS` (60_exceptions.md R165). -/
def State.ints0 (s : State) : BitVec 12 := (s.intr ||| s.intf0) &&& s.inte0
/-- `IRQ1_INTS` (60_exceptions.md R165). -/
def State.ints1 (s : State) : BitVec 12 := (s.intr ||| s.intf1) &&& s.inte1
/-- The interrupt output IRQ0 (60_exceptions.md R165). -/
def State.irq0Out (s : State) : Bool := decide (s.ints0 ≠ 0)
/-- The interrupt output IRQ1 (60_exceptions.md R165). -/
def State.irq1Out (s : State) : Bool := decide (s.ints1 ≠ 0)

end Sys2Proof.Machine
end

