-- ==== Sys2Proof/Machine/Operands.lean ====
section
/-! DEFINITION. The operand forms: cells that may be unwritten, the delay/side-set split, bit counts, shifts, and the
sources and operations of IN and MOV (spec/10_state.md R23; 30_encoding.md R88, R89; 42_shift.md R128 to R130;
43_mov_irq_set.md R138, R139). -/

namespace Sys2Proof.Machine

open Sys2Proof

/-- The value of a cell, none where it is unwritten (10_state.md R23). -/
def readCell {w : Nat} (c : Cell w) : Option (BitVec w) := if c.written then some c.val else none

/-- The split of the delay/side-set field (30_encoding.md R88). -/
structure DsSplit where
  delay : Nat
  ssValid : Bool
  ssValue : Word
  ssBits : Nat
  deriving DecidableEq, Repr

/-- The delay/side-set split under the executing state machine's configuration (30_encoding.md R88). -/
def dsSplit (m : Sm) (ds : Five) : DsSplit :=
  let ssc := m.sidesetCount
  let part := ds.toNat / 2 ^ (5 - ssc)
  if m.sideEn then
    { delay := ds.toNat % 2 ^ (5 - ssc), ssValid := ds.getLsbD 4, ssValue := BitVec.ofNat 32 (part % 2 ^ (ssc - 1)),
      ssBits := ssc - 1 }
  else
    { delay := ds.toNat % 2 ^ (5 - ssc), ssValid := decide (0 < ssc), ssValue := BitVec.ofNat 32 part, ssBits := ssc }

/-- The bit count of IN and OUT: a field of 0 means 32 (30_encoding.md R89). -/
def bitCount (b : Five) : Nat := if b.toNat = 0 then 32 else b.toNat

/-- `ShiftIn(n, d)`: the ISR after `n` bits of `d` have entered it (42_shift.md R128). -/
def shiftInValue (right : Bool) (isr : Word) (n : Nat) (d : Word) : Word :=
  if n = 32 then d &&& maskBits n
  else if right then (isr >>> n) ||| ((d &&& maskBits n) <<< (32 - n))
  else (isr <<< n) ||| (d &&& maskBits n)

/-- The bits `ShiftOut(n)` shifts out, zero-extended (42_shift.md R129). -/
def shiftOutData (right : Bool) (osr : Word) (n : Nat) : Word :=
  if right then osr &&& maskBits n else (osr >>> (32 - n)) &&& maskBits n

/-- The OSR after `ShiftOut(n)` (42_shift.md R129). -/
def shiftOutRest (right : Bool) (osr : Word) (n : Nat) : Word :=
  if n = 32 then 0#32 else if right then osr >>> n else osr <<< n

/-- A shift count after `n` more bits, saturating at 32 (10_state.md R17, R18). -/
def addCount (count n : Nat) : Nat := min 32 (count + n)

/-- The next slot in program order: `WRAP_BOTTOM` after `WRAP_TOP`, else PC + 1 modulo 32 (40_sequencer_cycle.md R115).
-/
def Sm.seqPc (m : Sm) : Five := if m.pc = m.wrapTop then m.wrapBottom else m.pc + 1#5

/-- `NextPC`: the jump target, the next slot for a fetched instruction, the same PC for an injected one
(40_sequencer_cycle.md R115). -/
def Sm.nextPc (m : Sm) (jump : Option Five) : Five :=
  match jump with
  | some t => t
  | none => if m.pending.isNone then m.seqPc else m.pc

/-- The value of a MOV source under the pin sample `cur`, none where the register is unwritten (43_mov_irq_set.md
R138). -/
def Sm.movSource (m : Sm) (cur : Word) : MovSrc → Option Word
  | .pins => some (rotatePins cur m.inBase)
  | .x => readCell m.x
  | .y => readCell m.y
  | .null => some 0#32
  | .status => some m.statusValue
  | .isr => some m.isr
  | .osr => readCell m.osr

/-- The operation of a MOV on the source value (43_mov_irq_set.md R139). -/
def movOperation (op : MovOp) (v : Word) : Word :=
  match op with
  | .none => v
  | .invert => ~~~v
  | .reverse => rev32 v

end Sys2Proof.Machine
end

