-- ==== Sys2Proof/Machine/Ops.lean ====
section
/-! DEFINITION. The operations every instruction shares: the pin sample and the edge detector, pin writes, taking the
one fault of the spec, the end of a tick (side-set, stall, delay, PC, injection), and the rules of JMP, WAIT, IN, OUT,
MOV, IRQ and SET over one state machine (spec/20_memory.md R76; 40_sequencer_cycle.md R105 to R118; 41_flow.md;
42_shift.md; 43_mov_irq_set.md; 60_exceptions.md R160). -/

namespace Sys2Proof.Machine

open Sys2Proof

/-- The level of one pin: driven by the block, from outside, by both, or by neither (20_memory.md R76). -/
def pinLevel (drive : Bool) (ext : PinDrive) (out draw : Bool) : Bool :=
  match drive, ext with
  | true, .z => out
  | true, .low => if out then draw else out
  | true, .high => if out then out else draw
  | false, .low => false
  | false, .high => true
  | false, .z => draw

/-- `ext(p)`; a pin that does not exist on the package is not driven from outside (20_memory.md R76). -/
def State.extOf (s : State) (p : Nat) : PinDrive :=
  if p < s.params.numGpio then s.env.ext[p]?.getD .z else .z

/-- The block drives pin `p`: routed to it and enabled (20_memory.md R76). -/
def State.drives (s : State) (p : Nat) : Bool :=
  decide (p < s.params.numGpio) && decide (s.env.funcsel[p]? = some .seq) && s.padOe.getLsbD p

/-- `PinSample()[p]`: the level of pin `p` at this step (20_memory.md R76). -/
def State.pinAt (s : State) (p : Nat) : Bool :=
  pinLevel (s.drives p) (s.extOf p) (s.padOut.getLsbD p) ((Config.pinDraw s.now).getLsbD p)

/-- `PinSample()`: the 32 pin levels at this step (20_memory.md R76). -/
def State.pinSample (s : State) : Word := wordOfBits s.pinAt

/-- Pin `p` fell, from 1 in the previous sample to 0 now; no edge where there is no previous sample
(40_sequencer_cycle.md R107). -/
def fellEdge (prev : Option Word) (p : Nat) (now : Bool) : Bool :=
  match prev with
  | none => false
  | some w => w.getLsbD p && !now

/-- Pin `p` rose, from 0 in the previous sample to 1 now (40_sequencer_cycle.md R107). -/
def roseEdge (prev : Option Word) (p : Nat) (now : Bool) : Bool :=
  match prev with
  | none => false
  | some w => !w.getLsbD p && now

/-- Taking `fault(UnwrittenRead)`: the state machine records the reason, its PC and the instruction (none for a fetch),
and nothing else changes; every other agent goes on (60_exceptions.md R160; DEDUCED, log 6). -/
def State.takeFault (s : State) (word : Option InstrWord) : State :=
  s.setMe { s.me with faultRec := some { reason := .unwrittenRead, pc := s.me.pc, word := word } }

/-- What an instruction's rule answers (00_scope.md R12): complete with its effects, a jump and an instruction to
execute next; stall with the effects the rule names for it; the read of an unwritten cell; or a refusal. -/
inductive RuleResult where
  | complete (s : State) (jump : Option Five) (execNext : Option InstrWord)
  | stall (s : State)
  | unwritten
  | refuse (r : Refusal)

/-- The side-set of a tick on the output levels (40_sequencer_cycle.md R112). -/
def sideSetOut (m : Sm) (ds : Five) (pad : Word) : Word :=
  if (dsSplit m ds).ssValid && !m.sidePindir then
    writePinRange pad m.sidesetBase (dsSplit m ds).ssBits (dsSplit m ds).ssValue
  else pad

/-- The side-set of a tick on the output enables (40_sequencer_cycle.md R112). -/
def sideSetOe (m : Sm) (ds : Five) (pad : Word) : Word :=
  if (dsSplit m ds).ssValid && m.sidePindir then
    writePinRange pad m.sidesetBase (dsSplit m ds).ssBits (dsSplit m ds).ssValue
  else pad

/-- The side-set of a tick, applied after the instruction's own pin writes so that it wins (40_sequencer_cycle.md
R112). -/
def State.sideSet (s : State) (m : Sm) (ds : Five) : State :=
  { s with padOut := sideSetOut m ds s.padOut, padOe := sideSetOe m ds s.padOe }

/-- The state machine after a completed instruction: edge history, injection, PC and delay (40_sequencer_cycle.md R107,
R110, R114, R115). `m` is the state machine before the tick, `m'` with the instruction's effects. -/
def Sm.retire (m m' : Sm) (cur : Word) (ds : Five) (jump : Option Five) (execNext : Option InstrWord) : Sm :=
  { m' with
    edgePrev := some cur
    pending := execNext.map fun w => (w, .exec)
    pc := m.nextPc jump
    delayCount := if execNext.isSome then 0 else (dsSplit m ds).delay }

/-- The end of a non-delay tick of the instruction `word` with field `ds`, from the state before the tick and its rule's
answer (40_sequencer_cycle.md R105, R112 to R115; 60_exceptions.md R160, R161). -/
def finishTick (word : InstrWord) (ds : Five) (s : State) : RuleResult → Out
  | .complete s' jump execNext => .next ((s'.setMe (s.me.retire s'.me s.pinSample ds jump execNext)).sideSet s.me ds)
  | .stall s' => .next ((s'.setMe { s'.me with edgePrev := some s.pinSample }).sideSet s.me ds)
  | .unwritten => .next (s.takeFault (some word))
  | .refuse r => .refused r

/-- A completion with no jump and nothing to execute next. -/
def done (s : State) : RuleResult := .complete s none none

/-- A jump that `cond` decides, after the side effect that gives `s`; an unwritten operand faults (41_flow.md R121,
R122). -/
def jmpRule (addr : Five) (s : State) (cond : Option Bool) : RuleResult :=
  match cond with
  | none => .unwritten
  | some take => .complete s (if take then some addr else none) none

/-- WAIT: complete where the condition holds, else stall (41_flow.md R123 to R126). -/
def waitRule (s : State) (cond : Bool) : RuleResult := if cond then done s else .stall s

/-- IN of the source value `src`: shift, with autopush at the threshold (42_shift.md R131). -/
def inRule (count : Five) (s : State) (src : Option Word) : RuleResult :=
  match src with
  | none => .unwritten
  | some v =>
    let m := s.me
    let isr' := shiftInValue m.inShiftRight m.isr (bitCount count) v
    let cnt' := addCount m.isrCount (bitCount count)
    if m.autopush && decide (m.pushThresh ≤ cnt') then
      if m.rxFull then .stall s.setRxStall
      else done (s.setMe { m with rx := m.rx ++ [isr'], isr := 0, isrCount := 0 })
    else done (s.setMe { m with isr := isr', isrCount := cnt' })

/-- The OSR, its count and the TX FIFO that an OUT shifts from: refilled on demand by autopull (42_shift.md R133). -/
inductive OutSupply where
  | ready (osr : Word) (count : Nat) (tx : List Word)
  | starved
  | unwritten

/-- Where an OUT takes its bits from: a word autopull pops, or the OSR (42_shift.md R133). -/
def Sm.outSupply (m : Sm) : OutSupply :=
  if m.autopull && decide (m.pullThresh ≤ m.osrCount) then
    match m.tx with
    | [] => .starved
    | w :: rest => .ready w 0 rest
  else
    match readCell m.osr with
    | none => .unwritten
    | some w => .ready w m.osrCount m.tx

/-- OUT: shift out, then deliver the data and the count to the destination (42_shift.md R133). -/
def outRule (count : Five) (s : State) (dest : State → Word → Nat → RuleResult) : RuleResult :=
  match s.me.outSupply with
  | .starved => .stall s.setTxStall
  | .unwritten => .unwritten
  | .ready osr cnt tx =>
    let n := bitCount count
    dest
      (s.setMe
        { s.me with
          tx := tx, osr := .of (shiftOutRest s.me.outShiftRight osr n), osrCount := addCount cnt n })
      (shiftOutData s.me.outShiftRight osr n) n

/-- `WritePins(OUT_BASE, OUT_COUNT, v)` (42_shift.md R132, 43_mov_irq_set.md R140). -/
def State.outPinsWrite (s : State) (v : Word) : State :=
  { s with padOut := writePinRange s.padOut s.me.outBase s.me.outCount v }

/-- `WritePinDirs(OUT_BASE, OUT_COUNT, v)` (42_shift.md R132). -/
def State.outPindirsWrite (s : State) (v : Word) : State :=
  { s with padOe := writePinRange s.padOe s.me.outBase s.me.outCount v }

/-- PUSH (42_shift.md R134). -/
def pushRule (iffull block : Bool) (s : State) : RuleResult :=
  let m := s.me
  if iffull && decide (m.isrCount < m.pushThresh) then done s
  else if m.rxFull then
    if block then .stall s.setRxStall
    else if s.params.noblockPushClears then done (s.setMe { m with isr := 0, isrCount := 0 })
    else done s
  else done (s.setMe { m with rx := m.rx ++ [m.isr], isr := 0, isrCount := 0 })

/-- PULL (42_shift.md R135). -/
def pullRule (ifempty block : Bool) (s : State) : RuleResult :=
  let m := s.me
  if ifempty && decide (m.osrCount < m.pullThresh) then done s
  else if m.autopull && decide (m.osrCount = 0) then done s
  else
    match m.tx with
    | [] =>
      if block then .stall s.setTxStall
      else
        match readCell m.x with
        | none => .unwritten
        | some v => done (s.setMe { m with osr := .of v, osrCount := 0 })
    | w :: rest => done (s.setMe { m with tx := rest, osr := .of w, osrCount := 0 })

/-- MOV: read the source, apply the operation, deliver the result (43_mov_irq_set.md R141). -/
def movRule (op : MovOp) (src : MovSrc) (s : State) (dest : Word → RuleResult) : RuleResult :=
  match s.me.movSource s.pinSample src with
  | none => .unwritten
  | some v => dest (movOperation op v)

/-- IRQ with clr = 0: set the flag once, and wait for its clear where asked (43_mov_irq_set.md R144; one latch for every
IRQ: DEDUCED, log 21). -/
def irqRule (wait : Bool) (index : Five) (s : State) : RuleResult :=
  match irqIndex index s.active with
  | none => .refuse (.reservedEncoding (.sm s.active))
  | some f =>
    if s.me.irqWaiting then
      if s.irqFlag f then .stall s else done (s.setMe { s.me with irqWaiting := false })
    else if wait then .stall ((s.setIrq f).setMe { s.me with irqWaiting := true })
    else done (s.setIrq f)

/-- IRQ with clr = 1: clear the flag (43_mov_irq_set.md R144). -/
def irqClearRule (index : Five) (s : State) : RuleResult :=
  match irqIndex index s.active with
  | none => .refuse (.reservedEncoding (.sm s.active))
  | some f => done (s.clearIrq f)

end Sys2Proof.Machine
end

