-- ==== Sys2Proof/Machine/Irq.lean ====
section
/-! DEFINITION. IRQ (spec/43_mov_irq_set.md R143, R144). -/

namespace Sys2Proof.Machine

open Sys2Proof

/-- `irq [set] index`. -/
def ruleIrqSet (index : Five) (s : State) : RuleResult :=
  irqRule false index s

/-- The tick of `ruleIrqSet`. -/
def execIrqSet (ds index : Five) (s : State) : Out :=
  finishTick (encode (.irqSet ds index)) ds s (ruleIrqSet index s)

/-- `irq wait index`: set the flag, then stall until it is clear. -/
def ruleIrqWait (index : Five) (s : State) : RuleResult :=
  irqRule true index s

/-- The tick of `ruleIrqWait`. -/
def execIrqWait (ds index : Five) (s : State) : Out :=
  finishTick (encode (.irqWait ds index)) ds s (ruleIrqWait index s)

/-- `irq clear index`; the wait bit is ignored. -/
def ruleIrqClear (index : Five) (s : State) : RuleResult :=
  irqClearRule index s

/-- The tick of `ruleIrqClear`. -/
def execIrqClear (ds : Five) (wait : Bool) (index : Five) (s : State) : Out :=
  finishTick (encode (.irqClear ds wait index)) ds s (ruleIrqClear index s)

end Sys2Proof.Machine
end

