-- ==== Sys2Proof/Machine/Jmp.lean ====
section
/-! DEFINITION. JMP (spec/41_flow.md R121, R122). -/

namespace Sys2Proof.Machine

open Sys2Proof

/-- `jmp addr`. -/
def ruleJmpAlways (addr : Five) (s : State) : RuleResult :=
  jmpRule addr s (some true)

/-- The tick of `ruleJmpAlways`. -/
def execJmpAlways (ds addr : Five) (s : State) : Out :=
  finishTick (encode (.jmpAlways ds addr)) ds s (ruleJmpAlways addr s)

/-- `jmp !x, addr`: taken when X = 0. -/
def ruleJmpNotX (addr : Five) (s : State) : RuleResult :=
  jmpRule addr s ((readCell s.me.x).map fun x => decide (x = 0))

/-- The tick of `ruleJmpNotX`. -/
def execJmpNotX (ds addr : Five) (s : State) : Out :=
  finishTick (encode (.jmpNotX ds addr)) ds s (ruleJmpNotX addr s)

/-- `jmp x--, addr`: taken when X is not 0 before the decrement, which happens either way. -/
def ruleJmpXDec (addr : Five) (s : State) : RuleResult :=
  jmpRule addr (s.setMe { s.me with x := .of (s.me.x.val - 1) }) ((readCell s.me.x).map fun x => decide (x ≠ 0))

/-- The tick of `ruleJmpXDec`. -/
def execJmpXDec (ds addr : Five) (s : State) : Out :=
  finishTick (encode (.jmpXDec ds addr)) ds s (ruleJmpXDec addr s)

/-- `jmp !y, addr`: taken when Y = 0. -/
def ruleJmpNotY (addr : Five) (s : State) : RuleResult :=
  jmpRule addr s ((readCell s.me.y).map fun y => decide (y = 0))

/-- The tick of `ruleJmpNotY`. -/
def execJmpNotY (ds addr : Five) (s : State) : Out :=
  finishTick (encode (.jmpNotY ds addr)) ds s (ruleJmpNotY addr s)

/-- `jmp y--, addr`: taken when Y is not 0 before the decrement, which happens either way. -/
def ruleJmpYDec (addr : Five) (s : State) : RuleResult :=
  jmpRule addr (s.setMe { s.me with y := .of (s.me.y.val - 1) }) ((readCell s.me.y).map fun y => decide (y ≠ 0))

/-- The tick of `ruleJmpYDec`. -/
def execJmpYDec (ds addr : Five) (s : State) : Out :=
  finishTick (encode (.jmpYDec ds addr)) ds s (ruleJmpYDec addr s)

/-- `jmp x!=y, addr`: taken when X and Y differ; reads both. -/
def ruleJmpXNeY (addr : Five) (s : State) : RuleResult :=
  jmpRule addr s ((readCell s.me.x).bind fun x => (readCell s.me.y).map fun y => decide (x ≠ y))

/-- The tick of `ruleJmpXNeY`. -/
def execJmpXNeY (ds addr : Five) (s : State) : Out :=
  finishTick (encode (.jmpXNeY ds addr)) ds s (ruleJmpXNeY addr s)

/-- `jmp pin, addr`: taken when pin JMP_PIN of the sample is 1. -/
def ruleJmpPin (addr : Five) (s : State) : RuleResult :=
  jmpRule addr s (some (s.pinAt s.me.jmpPin.toNat))

/-- The tick of `ruleJmpPin`. -/
def execJmpPin (ds addr : Five) (s : State) : Out :=
  finishTick (encode (.jmpPin ds addr)) ds s (ruleJmpPin addr s)

/-- `jmp !osre, addr`: taken when the OSR is not empty; reads the count only. -/
def ruleJmpNotOsre (addr : Five) (s : State) : RuleResult :=
  jmpRule addr s (some (decide (s.me.osrCount < s.me.pullThresh)))

/-- The tick of `ruleJmpNotOsre`. -/
def execJmpNotOsre (ds addr : Five) (s : State) : Out :=
  finishTick (encode (.jmpNotOsre ds addr)) ds s (ruleJmpNotOsre addr s)

end Sys2Proof.Machine
end

