-- ==== Sys2Proof/Machine/Mov.lean ====
section
/-! DEFINITION. MOV and nop (spec/43_mov_irq_set.md R138 to R142). -/

namespace Sys2Proof.Machine

open Sys2Proof

/-- `nop`, that is `mov y, y`: no effect but its side-set and delay (R142). -/
def ruleNop (s : State) : RuleResult :=
  done s

/-- The tick of `ruleNop`. -/
def execNop (ds : Five) (s : State) : Out :=
  finishTick (encode (.nop ds)) ds s (ruleNop s)

/-- `mov pins, [op] source` (R140, R141). -/
def ruleMovPins (op : MovOp) (src : MovSrc) (s : State) : RuleResult :=
  movRule op src s fun r => done (s.outPinsWrite r)

/-- The tick of `ruleMovPins`. -/
def execMovPins (ds : Five) (op : MovOp) (src : MovSrc) (s : State) : Out :=
  finishTick (encode (.movPins ds op src)) ds s (ruleMovPins op src s)

/-- `mov x, [op] source`; a copy of X onto itself reads nothing (R141). -/
def ruleMovX (op : MovOp) (src : MovSrc) (s : State) : RuleResult :=
  if op = .none ∧ src = .x then done s
  else movRule op src s fun r => done (s.setMe { s.me with x := .of r })

/-- The tick of `ruleMovX`. -/
def execMovX (ds : Five) (op : MovOp) (src : MovSrc) (s : State) : Out :=
  finishTick (encode (.movX ds op src)) ds s (ruleMovX op src s)

/-- `mov y, [op] source`; a copy of Y onto itself reads nothing (R141). -/
def ruleMovY (op : MovOp) (src : MovSrc) (s : State) : RuleResult :=
  if op = .none ∧ src = .y then done s
  else movRule op src s fun r => done (s.setMe { s.me with y := .of r })

/-- The tick of `ruleMovY`. -/
def execMovY (ds : Five) (op : MovOp) (src : MovSrc) (s : State) : Out :=
  finishTick (encode (.movY ds op src)) ds s (ruleMovY op src s)

/-- `mov exec, [op] source`: `r[15:0]` runs at the next tick. -/
def ruleMovExec (op : MovOp) (src : MovSrc) (s : State) : RuleResult :=
  movRule op src s fun r => .complete s none (some (r.extractLsb' 0 16))

/-- The tick of `ruleMovExec`. -/
def execMovExec (ds : Five) (op : MovOp) (src : MovSrc) (s : State) : Out :=
  finishTick (encode (.movExec ds op src)) ds s (ruleMovExec op src s)

/-- `mov pc, [op] source`: a jump to `r[4:0]`. -/
def ruleMovPc (op : MovOp) (src : MovSrc) (s : State) : RuleResult :=
  movRule op src s fun r => .complete s (some (r.extractLsb' 0 5)) none

/-- The tick of `ruleMovPc`. -/
def execMovPc (ds : Five) (op : MovOp) (src : MovSrc) (s : State) : Out :=
  finishTick (encode (.movPc ds op src)) ds s (ruleMovPc op src s)

/-- `mov isr, [op] source`: the input shift count becomes 0. -/
def ruleMovIsr (op : MovOp) (src : MovSrc) (s : State) : RuleResult :=
  movRule op src s fun r => done (s.setMe { s.me with isr := r, isrCount := 0 })

/-- The tick of `ruleMovIsr`. -/
def execMovIsr (ds : Five) (op : MovOp) (src : MovSrc) (s : State) : Out :=
  finishTick (encode (.movIsr ds op src)) ds s (ruleMovIsr op src s)

/-- `mov osr, [op] source`: the output shift count becomes 0. -/
def ruleMovOsr (op : MovOp) (src : MovSrc) (s : State) : RuleResult :=
  movRule op src s fun r => done (s.setMe { s.me with osr := .of r, osrCount := 0 })

/-- The tick of `ruleMovOsr`. -/
def execMovOsr (ds : Five) (op : MovOp) (src : MovSrc) (s : State) : Out :=
  finishTick (encode (.movOsr ds op src)) ds s (ruleMovOsr op src s)

end Sys2Proof.Machine
end

