-- ==== Sys2Proof/Machine/Set.lean ====
section
/-! DEFINITION. SET (spec/43_mov_irq_set.md R145). -/

namespace Sys2Proof.Machine

open Sys2Proof

/-- `set pins, data`. -/
def ruleSetPins (data : Five) (s : State) : RuleResult :=
  done { s with padOut := writePinRange s.padOut s.me.setBase s.me.setCount (data.zeroExtend 32) }

/-- The tick of `ruleSetPins`. -/
def execSetPins (ds data : Five) (s : State) : Out :=
  finishTick (encode (.setPins ds data)) ds s (ruleSetPins data s)

/-- `set x, data`. -/
def ruleSetX (data : Five) (s : State) : RuleResult :=
  done (s.setMe { s.me with x := .of (data.zeroExtend 32) })

/-- The tick of `ruleSetX`. -/
def execSetX (ds data : Five) (s : State) : Out :=
  finishTick (encode (.setX ds data)) ds s (ruleSetX data s)

/-- `set y, data`. -/
def ruleSetY (data : Five) (s : State) : RuleResult :=
  done (s.setMe { s.me with y := .of (data.zeroExtend 32) })

/-- The tick of `ruleSetY`. -/
def execSetY (ds data : Five) (s : State) : Out :=
  finishTick (encode (.setY ds data)) ds s (ruleSetY data s)

/-- `set pindirs, data`. -/
def ruleSetPindirs (data : Five) (s : State) : RuleResult :=
  done { s with padOe := writePinRange s.padOe s.me.setBase s.me.setCount (data.zeroExtend 32) }

/-- The tick of `ruleSetPindirs`. -/
def execSetPindirs (ds data : Five) (s : State) : Out :=
  finishTick (encode (.setPindirs ds data)) ds s (ruleSetPindirs data s)

end Sys2Proof.Machine
end

