-- ==== Sys2Proof/Machine/Shift.lean ====
section
/-! DEFINITION. IN, OUT, PUSH and PULL (spec/42_shift.md R130 to R135). -/

namespace Sys2Proof.Machine

open Sys2Proof

/-- `in pins, count` (R130, R131). -/
def ruleInPins (count : Five) (s : State) : RuleResult :=
  inRule count s (some (rotatePins s.pinSample s.me.inBase))

/-- The tick of `ruleInPins`. -/
def execInPins (ds count : Five) (s : State) : Out :=
  finishTick (encode (.inPins ds count)) ds s (ruleInPins count s)

/-- `in x, count`. -/
def ruleInX (count : Five) (s : State) : RuleResult :=
  inRule count s (readCell s.me.x)

/-- The tick of `ruleInX`. -/
def execInX (ds count : Five) (s : State) : Out :=
  finishTick (encode (.inX ds count)) ds s (ruleInX count s)

/-- `in y, count`. -/
def ruleInY (count : Five) (s : State) : RuleResult :=
  inRule count s (readCell s.me.y)

/-- The tick of `ruleInY`. -/
def execInY (ds count : Five) (s : State) : Out :=
  finishTick (encode (.inY ds count)) ds s (ruleInY count s)

/-- `in null, count`. -/
def ruleInNull (count : Five) (s : State) : RuleResult :=
  inRule count s (some 0#32)

/-- The tick of `ruleInNull`. -/
def execInNull (ds count : Five) (s : State) : Out :=
  finishTick (encode (.inNull ds count)) ds s (ruleInNull count s)

/-- `in isr, count`: the ISR before the shift. -/
def ruleInIsr (count : Five) (s : State) : RuleResult :=
  inRule count s (some s.me.isr)

/-- The tick of `ruleInIsr`. -/
def execInIsr (ds count : Five) (s : State) : Out :=
  finishTick (encode (.inIsr ds count)) ds s (ruleInIsr count s)

/-- `in osr, count`: the OSR and its count are not changed. -/
def ruleInOsr (count : Five) (s : State) : RuleResult :=
  inRule count s (readCell s.me.osr)

/-- The tick of `ruleInOsr`. -/
def execInOsr (ds count : Five) (s : State) : Out :=
  finishTick (encode (.inOsr ds count)) ds s (ruleInOsr count s)

/-- `out pins, count` (R132, R133). -/
def ruleOutPins (count : Five) (s : State) : RuleResult :=
  outRule count s fun s' data _ => done (s'.outPinsWrite data)

/-- The tick of `ruleOutPins`. -/
def execOutPins (ds count : Five) (s : State) : Out :=
  finishTick (encode (.outPins ds count)) ds s (ruleOutPins count s)

/-- `out x, count`. -/
def ruleOutX (count : Five) (s : State) : RuleResult :=
  outRule count s fun s' data _ => done (s'.setMe { s'.me with x := .of data })

/-- The tick of `ruleOutX`. -/
def execOutX (ds count : Five) (s : State) : Out :=
  finishTick (encode (.outX ds count)) ds s (ruleOutX count s)

/-- `out y, count`. -/
def ruleOutY (count : Five) (s : State) : RuleResult :=
  outRule count s fun s' data _ => done (s'.setMe { s'.me with y := .of data })

/-- The tick of `ruleOutY`. -/
def execOutY (ds count : Five) (s : State) : Out :=
  finishTick (encode (.outY ds count)) ds s (ruleOutY count s)

/-- `out null, count`: the bits are discarded. -/
def ruleOutNull (count : Five) (s : State) : RuleResult :=
  outRule count s fun s' _ _ => done s'

/-- The tick of `ruleOutNull`. -/
def execOutNull (ds count : Five) (s : State) : Out :=
  finishTick (encode (.outNull ds count)) ds s (ruleOutNull count s)

/-- `out pindirs, count`. -/
def ruleOutPindirs (count : Five) (s : State) : RuleResult :=
  outRule count s fun s' data _ => done (s'.outPindirsWrite data)

/-- The tick of `ruleOutPindirs`. -/
def execOutPindirs (ds count : Five) (s : State) : Out :=
  finishTick (encode (.outPindirs ds count)) ds s (ruleOutPindirs count s)

/-- `out pc, count`: a jump to `data[4:0]`. -/
def ruleOutPc (count : Five) (s : State) : RuleResult :=
  outRule count s fun s' data _ => .complete s' (some (data.extractLsb' 0 5)) none

/-- The tick of `ruleOutPc`. -/
def execOutPc (ds count : Five) (s : State) : Out :=
  finishTick (encode (.outPc ds count)) ds s (ruleOutPc count s)

/-- `out isr, count`: the count becomes the ISR's; no autopush. -/
def ruleOutIsr (count : Five) (s : State) : RuleResult :=
  outRule count s fun s' data n => done (s'.setMe { s'.me with isr := data, isrCount := n })

/-- The tick of `ruleOutIsr`. -/
def execOutIsr (ds count : Five) (s : State) : Out :=
  finishTick (encode (.outIsr ds count)) ds s (ruleOutIsr count s)

/-- `out exec, count`: `data[15:0]` runs at the next tick. -/
def ruleOutExec (count : Five) (s : State) : RuleResult :=
  outRule count s fun s' data _ => .complete s' none (some (data.extractLsb' 0 16))

/-- The tick of `ruleOutExec`. -/
def execOutExec (ds count : Five) (s : State) : Out :=
  finishTick (encode (.outExec ds count)) ds s (ruleOutExec count s)

/-- `push [iffull] [block|noblock]` (R134). -/
def rulePush (iffull block : Bool) (s : State) : RuleResult :=
  pushRule iffull block s

/-- The tick of `rulePush`. -/
def execPush (ds : Five) (iffull block : Bool) (s : State) : Out :=
  finishTick (encode (.push ds iffull block)) ds s (rulePush iffull block s)

/-- `pull [ifempty] [block|noblock]` (R135). -/
def rulePull (ifempty block : Bool) (s : State) : RuleResult :=
  pullRule ifempty block s

/-- The tick of `rulePull`. -/
def execPull (ds : Five) (ifempty block : Bool) (s : State) : Out :=
  finishTick (encode (.pull ds ifempty block)) ds s (rulePull ifempty block s)

end Sys2Proof.Machine
end

