-- ==== Sys2Proof/Machine/Wait.lean ====
section
/-! DEFINITION. WAIT (spec/41_flow.md R123 to R126). -/

namespace Sys2Proof.Machine

open Sys2Proof

/-- WAIT GPIO: the level of a pin by absolute number (R123). -/
def ruleWaitGpio (pol : Bool) (index : Five) (s : State) : RuleResult :=
  waitRule s (decide (s.pinAt index.toNat = pol))

/-- The tick of `ruleWaitGpio`. -/
def execWaitGpio (ds : Five) (pol : Bool) (index : Five) (s : State) : Out :=
  finishTick (encode (.waitGpio ds pol index)) ds s (ruleWaitGpio pol index s)

/-- WAIT PIN: the level of pin `(IN_BASE + index) mod 32` (R124). -/
def ruleWaitPin (pol : Bool) (index : Five) (s : State) : RuleResult :=
  waitRule s (decide (s.pinAt (pinAdd s.me.inBase index.toNat) = pol))

/-- The tick of `ruleWaitPin`. -/
def execWaitPin (ds : Five) (pol : Bool) (index : Five) (s : State) : Out :=
  finishTick (encode (.waitPin ds pol index)) ds s (ruleWaitPin pol index s)

/-- WAIT IRQ: an IRQ flag; a wait for 1 that completes clears it (R125). -/
def ruleWaitIrq (pol : Bool) (index : Five) (s : State) : RuleResult :=
  match irqIndex index s.active with
  | none => .refuse (.reservedEncoding (.sm s.active))
  | some f => if s.irqFlag f = pol then done (if pol then s.clearIrq f else s) else .stall s

/-- The tick of `ruleWaitIrq`. -/
def execWaitIrq (ds : Five) (pol : Bool) (index : Five) (s : State) : Out :=
  finishTick (encode (.waitIrq ds pol index)) ds s (ruleWaitIrq pol index s)

/-- WAIT EDGE: a transition of a pin between this state machine's previous tick and this one (R126). -/
def ruleWaitEdge (pol : Bool) (index : Five) (s : State) : RuleResult :=
  waitRule s
    (if pol then roseEdge s.me.edgePrev index.toNat (s.pinAt index.toNat)
    else fellEdge s.me.edgePrev index.toNat (s.pinAt index.toNat))

/-- The tick of `ruleWaitEdge`. -/
def execWaitEdge (ds : Five) (pol : Bool) (index : Five) (s : State) : Out :=
  finishTick (encode (.waitEdge ds pol index)) ds s (ruleWaitEdge pol index s)

end Sys2Proof.Machine
end

