-- ==== Sys2Proof/Machine/Dispatch.lean ====
section
/-! DEFINITION. The meaning of every instruction, on the state machine `s.active`: one arm per row of
spec/opcode_table.json, in its order. -/

namespace Sys2Proof.Machine

open Sys2Proof Host

def exec (i : Instr) (s : State) : Host.Outcome State Fault Refusal :=
  match i with
  | .jmpAlways ds addr => Sys2Proof.Machine.execJmpAlways ds addr s
  | .jmpNotX ds addr => Sys2Proof.Machine.execJmpNotX ds addr s
  | .jmpXDec ds addr => Sys2Proof.Machine.execJmpXDec ds addr s
  | .jmpNotY ds addr => Sys2Proof.Machine.execJmpNotY ds addr s
  | .jmpYDec ds addr => Sys2Proof.Machine.execJmpYDec ds addr s
  | .jmpXNeY ds addr => Sys2Proof.Machine.execJmpXNeY ds addr s
  | .jmpPin ds addr => Sys2Proof.Machine.execJmpPin ds addr s
  | .jmpNotOsre ds addr => Sys2Proof.Machine.execJmpNotOsre ds addr s
  | .waitGpio ds pol index => Sys2Proof.Machine.execWaitGpio ds pol index s
  | .waitPin ds pol index => Sys2Proof.Machine.execWaitPin ds pol index s
  | .waitIrq ds pol index => Sys2Proof.Machine.execWaitIrq ds pol index s
  | .waitEdge ds pol index => Sys2Proof.Machine.execWaitEdge ds pol index s
  | .inPins ds count => Sys2Proof.Machine.execInPins ds count s
  | .inX ds count => Sys2Proof.Machine.execInX ds count s
  | .inY ds count => Sys2Proof.Machine.execInY ds count s
  | .inNull ds count => Sys2Proof.Machine.execInNull ds count s
  | .inIsr ds count => Sys2Proof.Machine.execInIsr ds count s
  | .inOsr ds count => Sys2Proof.Machine.execInOsr ds count s
  | .outPins ds count => Sys2Proof.Machine.execOutPins ds count s
  | .outX ds count => Sys2Proof.Machine.execOutX ds count s
  | .outY ds count => Sys2Proof.Machine.execOutY ds count s
  | .outNull ds count => Sys2Proof.Machine.execOutNull ds count s
  | .outPindirs ds count => Sys2Proof.Machine.execOutPindirs ds count s
  | .outPc ds count => Sys2Proof.Machine.execOutPc ds count s
  | .outIsr ds count => Sys2Proof.Machine.execOutIsr ds count s
  | .outExec ds count => Sys2Proof.Machine.execOutExec ds count s
  | .push ds iffull block => Sys2Proof.Machine.execPush ds iffull block s
  | .pull ds ifempty block => Sys2Proof.Machine.execPull ds ifempty block s
  | .nop ds => Sys2Proof.Machine.execNop ds s
  | .movPins ds op src => Sys2Proof.Machine.execMovPins ds op src s
  | .movX ds op src => Sys2Proof.Machine.execMovX ds op src s
  | .movY ds op src => Sys2Proof.Machine.execMovY ds op src s
  | .movExec ds op src => Sys2Proof.Machine.execMovExec ds op src s
  | .movPc ds op src => Sys2Proof.Machine.execMovPc ds op src s
  | .movIsr ds op src => Sys2Proof.Machine.execMovIsr ds op src s
  | .movOsr ds op src => Sys2Proof.Machine.execMovOsr ds op src s
  | .irqSet ds index => Sys2Proof.Machine.execIrqSet ds index s
  | .irqWait ds index => Sys2Proof.Machine.execIrqWait ds index s
  | .irqClear ds wait index => Sys2Proof.Machine.execIrqClear ds wait index s
  | .setPins ds data => Sys2Proof.Machine.execSetPins ds data s
  | .setX ds data => Sys2Proof.Machine.execSetX ds data s
  | .setY ds data => Sys2Proof.Machine.execSetY ds data s
  | .setPindirs ds data => Sys2Proof.Machine.execSetPindirs ds data s

end Sys2Proof.Machine
end

