-- ==== Sys2Proof/Machine/Registers.lean ====
section
/-! DEFINITION. The registers of the SEQ window: the map, reads and writes with their side effects (spec/10_state.md
R30 to R47; 20_memory.md R57 to R74; 40_sequencer_cycle.md R110, R111; 70_reset_and_hazards.md R174). -/

namespace Sys2Proof.Machine

open Sys2Proof

/-- The registers of the SEQ window (20_memory.md R61). -/
inductive SeqReg where
  | ctrl | fstat | fdebug | flevel
  | txf (n : SmId)
  | rxf (n : SmId)
  | irq | irqForce | inputSyncBypass | dbgPadout | dbgPadoe | dbgCfginfo
  | instrMem (i : Fin 32)
  | smClkdiv (n : SmId)
  | smExecctrl (n : SmId)
  | smShiftctrl (n : SmId)
  | smAddr (n : SmId)
  | smInstr (n : SmId)
  | smPinctrl (n : SmId)
  | intr
  | irq0Inte | irq0Intf | irq0Ints
  | irq1Inte | irq1Intf | irq1Ints
  deriving DecidableEq, Repr

/-- The offset of a register (20_memory.md R61). -/
def SeqReg.offset : SeqReg → Nat
  | .ctrl => 0x000
  | .fstat => 0x004
  | .fdebug => 0x008
  | .flevel => 0x00C
  | .txf n => 0x010 + 4 * n.val
  | .rxf n => 0x020 + 4 * n.val
  | .irq => 0x030
  | .irqForce => 0x034
  | .inputSyncBypass => 0x038
  | .dbgPadout => 0x03C
  | .dbgPadoe => 0x040
  | .dbgCfginfo => 0x044
  | .instrMem i => 0x048 + 4 * i.val
  | .smClkdiv n => 0x0C8 + 0x18 * n.val
  | .smExecctrl n => 0x0CC + 0x18 * n.val
  | .smShiftctrl n => 0x0D0 + 0x18 * n.val
  | .smAddr n => 0x0D4 + 0x18 * n.val
  | .smInstr n => 0x0D8 + 0x18 * n.val
  | .smPinctrl n => 0x0DC + 0x18 * n.val
  | .intr => 0x128
  | .irq0Inte => 0x12C
  | .irq0Intf => 0x130
  | .irq0Ints => 0x134
  | .irq1Inte => 0x138
  | .irq1Intf => 0x13C
  | .irq1Ints => 0x140

/-- The register of a state machine's group of six, by its place in the group (20_memory.md R61). -/
def smRegAt (n : SmId) (place : Nat) : Option SeqReg :=
  match place with
  | 0 => some (.smClkdiv n)
  | 1 => some (.smExecctrl n)
  | 2 => some (.smShiftctrl n)
  | 3 => some (.smAddr n)
  | 4 => some (.smInstr n)
  | 5 => some (.smPinctrl n)
  | _ => none

/-- The register at word `n` of the window, outside the per-SM groups (20_memory.md R61). -/
def blockRegAt (n : Nat) : Option SeqReg :=
  match n with
  | 0 => some .ctrl
  | 1 => some .fstat
  | 2 => some .fdebug
  | 3 => some .flevel
  | 12 => some .irq
  | 13 => some .irqForce
  | 14 => some .inputSyncBypass
  | 15 => some .dbgPadout
  | 16 => some .dbgPadoe
  | 17 => some .dbgCfginfo
  | 74 => some .intr
  | 75 => some .irq0Inte
  | 76 => some .irq0Intf
  | 77 => some .irq0Ints
  | 78 => some .irq1Inte
  | 79 => some .irq1Intf
  | 80 => some .irq1Ints
  | _ => none

/-- The register at an offset of the window, none where R61 lists none (20_memory.md R58, R61). -/
def seqRegAt (o : Nat) : Option SeqReg :=
  let n := o / 4
  if o % 4 ≠ 0 then none
  else if 4 ≤ n ∧ n < 8 then some (.txf (Fin.ofNat 4 (n - 4)))
  else if 8 ≤ n ∧ n < 12 then some (.rxf (Fin.ofNat 4 (n - 8)))
  else if 18 ≤ n ∧ n < 50 then some (.instrMem (Fin.ofNat 32 (n - 18)))
  else if 50 ≤ n ∧ n < 74 then smRegAt (Fin.ofNat 4 ((n - 50) / 6)) ((n - 50) % 6)
  else blockRegAt n

/-- FSTAT (10_state.md R31). -/
def State.fstat (s : State) : Word :=
  0#4 ++ (s.perSm Sm.txEmpty ++ (0#4 ++ (s.perSm Sm.txFull ++ (0#4 ++ (s.perSm Sm.rxEmpty ++
    (0#4 ++ s.perSm Sm.rxFull))))))

/-- FDEBUG (10_state.md R32). -/
def State.fdebug (s : State) : Word :=
  0#4 ++ (s.txStall ++ (0#4 ++ (s.txOver ++ (0#4 ++ (s.rxUnder ++ (0#4 ++ s.rxStall))))))

/-- The two levels of one state machine in FLEVEL (10_state.md R33). -/
def Sm.levels (m : Sm) : BitVec 8 := BitVec.ofNat 4 m.rx.length ++ BitVec.ofNat 4 m.tx.length

/-- FLEVEL (10_state.md R33). -/
def State.flevel (s : State) : Word :=
  (s.sm 3).levels ++ ((s.sm 2).levels ++ ((s.sm 1).levels ++ (s.sm 0).levels))

/-- SMn_INSTR as read: the instruction the next non-delay tick executes, a draw if the slot is unwritten
(10_state.md R47). -/
def State.nextInstrWord (s : State) (n : SmId) : InstrWord :=
  match (s.sm n).pending with
  | some (w, _) => w
  | none => (readCell (s.imem.get (s.sm n).pc.toFin)).getD ((Config.busDraw s.now).extractLsb' 0 16)

/-- The value a register read returns (10_state.md R30 to R47; a draw where 20_memory.md R63, R66 say so). Of
IRQ_FORCE the write-only bits 7:0 are a draw and the reserved bits 31:8 read 0 (R62; 93_implementation_defined.md B1;
DEDUCED, log 30). -/
def State.seqValue (s : State) : SeqReg → Word
  | .ctrl => s.smEnable.zeroExtend 32
  | .fstat => s.fstat
  | .fdebug => s.fdebug
  | .flevel => s.flevel
  | .txf _ => Config.busDraw s.now
  | .rxf n => (s.sm n).rx.head?.getD (Config.busDraw s.now)
  | .irq => s.irq.zeroExtend 32
  | .irqForce => ((Config.busDraw s.now).extractLsb' 0 8).zeroExtend 32
  | .inputSyncBypass => s.inputSyncBypass
  | .dbgPadout => s.padOut
  | .dbgPadoe => s.padOe
  | .dbgCfginfo => 0x00200404#32
  | .instrMem _ => Config.busDraw s.now
  | .smClkdiv n => (s.sm n).clkdiv
  | .smExecctrl n => BitVec.ofBool (s.sm n).execStalled ++ (s.sm n).execctrl.extractLsb' 0 31
  | .smShiftctrl n => (s.sm n).shiftctrl
  | .smAddr n => (s.sm n).pc.zeroExtend 32
  | .smInstr n => (s.nextInstrWord n).zeroExtend 32
  | .smPinctrl n => (s.sm n).pinctrl
  | .intr => s.intr.zeroExtend 32
  | .irq0Inte => s.inte0.zeroExtend 32
  | .irq0Intf => s.intf0.zeroExtend 32
  | .irq0Ints => s.ints0.zeroExtend 32
  | .irq1Inte => s.inte1.zeroExtend 32
  | .irq1Intf => s.intf1.zeroExtend 32
  | .irq1Ints => s.ints1.zeroExtend 32

/-- A read of RXFn pops, or sets RXUNDER where the FIFO is empty (20_memory.md R66). -/
def State.popRx (s : State) (n : SmId) : State :=
  match (s.sm n).rx with
  | [] => { s with rxUnder := setBit s.rxUnder n.val }
  | _ :: rest => s.setSm n { s.sm n with rx := rest }

/-- The state after a register read: only RXFn reads have a side effect (20_memory.md R66, R74). -/
def State.afterSeqRead (s : State) : SeqReg → State
  | .rxf n => s.popRx n
  | .ctrl | .fstat | .fdebug | .flevel | .txf _ | .irq | .irqForce | .inputSyncBypass | .dbgPadout | .dbgPadoe
  | .dbgCfginfo | .instrMem _ | .smClkdiv _ | .smExecctrl _ | .smShiftctrl _ | .smAddr _ | .smInstr _ | .smPinctrl _
  | .intr | .irq0Inte | .irq0Intf | .irq0Ints | .irq1Inte | .irq1Intf | .irq1Ints => s

/-- A state machine restarted (70_reset_and_hazards.md R174). -/
def Sm.restart (m : Sm) : Sm :=
  { m with isr := 0, isrCount := 0, osrCount := 32, delayCount := 0, pending := none, irqWaiting := false, edgePrev := none }

/-- Every state machine mapped, with its number. -/
def State.mapSms (s : State) (f : SmId → Sm → Sm) : State :=
  (((s.setSm 0 (f 0 (s.sm 0))).setSm 1 (f 1 (s.sm 1))).setSm 2 (f 2 (s.sm 2))).setSm 3 (f 3 (s.sm 3))

/-- A write of CTRL: the enables, and a restart of each SM whose SM_RESTART bit is 1. CLKDIV_RESTART is timing only
(20_memory.md R69; DEDUCED, log 19). -/
def State.writeCtrl (s : State) (v : Word) : State :=
  { s.mapSms (fun k m => if v.getLsbD (4 + k.val) then m.restart else m) with smEnable := v.extractLsb' 0 4 }

/-- A write of TXFn pushes, or is dropped and sets TXOVER where the FIFO is full (20_memory.md R65). -/
def State.pushTx (s : State) (n : SmId) (v : Word) : State :=
  if (s.sm n).txFull then { s with txOver := setBit s.txOver n.val }
  else s.setSm n { s.sm n with tx := (s.sm n).tx ++ [v] }

/-- A write of SMn_SHIFTCTRL: a change of the join bits empties both FIFOs (20_memory.md R73). -/
def Sm.writeShiftctrl (m : Sm) (v : Word) : Sm :=
  if v.getLsbD 31 = m.fjoinRx ∧ v.getLsbD 30 = m.fjoinTx then { m with shiftctrl := shiftctrlStored v }
  else { m with shiftctrl := shiftctrlStored v, tx := [], rx := [] }

/-- Some enabled state machine's PC is slot `i` (20_memory.md R70). -/
def State.slotLive (s : State) (i : Fin 32) : Bool :=
  (s.smEnable.getLsbD 0 && decide ((s.sm 0).pc.toFin = i)) || (s.smEnable.getLsbD 1 && decide ((s.sm 1).pc.toFin = i)) ||
    (s.smEnable.getLsbD 2 && decide ((s.sm 2).pc.toFin = i)) || (s.smEnable.getLsbD 3 && decide ((s.sm 3).pc.toFin = i))

/-- An instruction slot written (20_memory.md R70). -/
def State.setSlot (s : State) (i : Fin 32) (w : InstrWord) : State :=
  { s with imem := s.imem.set i.val (.of w) i.isLt }

/-- A register write by agent `a`: the state after it, or its refusal (20_memory.md R63 to R73). -/
def State.seqWrite (s : State) (a : Agent) (v : Word) : SeqReg → Except Refusal State
  | .ctrl => .ok (s.writeCtrl v)
  | .fdebug =>
    .ok { s with
      txStall := s.txStall &&& ~~~(v.extractLsb' 24 4), txOver := s.txOver &&& ~~~(v.extractLsb' 16 4),
      rxUnder := s.rxUnder &&& ~~~(v.extractLsb' 8 4), rxStall := s.rxStall &&& ~~~(v.extractLsb' 0 4) }
  | .txf n => .ok (s.pushTx n v)
  | .irq => .ok { s with irq := s.irq &&& ~~~(v.extractLsb' 0 8) }
  | .irqForce => .ok { s with irq := s.irq ||| v.extractLsb' 0 8 }
  | .inputSyncBypass => .ok { s with inputSyncBypass := v }
  | .instrMem i => if s.slotLive i then .error (.liveInstructionWrite a) else .ok (s.setSlot i (v.extractLsb' 0 16))
  | .smClkdiv n => .ok (s.setSm n { s.sm n with clkdiv := clkdivStored v })
  | .smExecctrl n => .ok (s.setSm n { s.sm n with execctrl := execctrlStored v })
  | .smShiftctrl n => .ok (s.setSm n ((s.sm n).writeShiftctrl v))
  | .smInstr n =>
    if (s.sm n).pending.isSome then .error (.injectionOverrun a)
    else .ok (s.setSm n { s.sm n with pending := some (v.extractLsb' 0 16, .host) })
  | .smPinctrl n => .ok (s.setSm n { s.sm n with pinctrl := v })
  | .irq0Inte => .ok { s with inte0 := v.extractLsb' 0 12 }
  | .irq0Intf => .ok { s with intf0 := v.extractLsb' 0 12 }
  | .irq1Inte => .ok { s with inte1 := v.extractLsb' 0 12 }
  | .irq1Intf => .ok { s with intf1 := v.extractLsb' 0 12 }
  | .fstat | .flevel | .rxf _ | .dbgPadout | .dbgPadoe | .dbgCfginfo | .smAddr _ | .intr | .irq0Ints | .irq1Ints => .ok s

end Sys2Proof.Machine
end

