-- ==== Sys2Proof/Machine/Engine.lean ====
section
/-! DEFINITION. The XFER engine and the bus: the channel registers, request lines, triggers, aborts, bus routing and the
transfer step (spec/45_transfer_engine.md R146 to R154; 20_memory.md R54 to R60). -/

namespace Sys2Proof.Machine

open Sys2Proof

/-- The registers of the XFER window (45_transfer_engine.md R146). -/
inductive XferReg where
  | readAddr (c : Nat)
  | writeAddr (c : Nat)
  | transCount (c : Nat)
  | ctrlTrig (c : Nat)
  | chanAbort
  deriving DecidableEq, Repr

/-- The register at an offset of the XFER window of an engine of `numCh` channels (45_transfer_engine.md R146, R147).
CHAN_ABORT comes before a channel at the same offset (DESIGN CHOICE, log 16). -/
def xferRegAt (numCh o : Nat) : Option XferReg :=
  if o = 0x444 then some .chanAbort
  else if o / 0x40 < numCh then
    match o % 0x40 with
    | 0x00 => some (.readAddr (o / 0x40))
    | 0x04 => some (.writeAddr (o / 0x40))
    | 0x08 => some (.transCount (o / 0x40))
    | 0x0C => some (.ctrlTrig (o / 0x40))
    | _ => none
  else none

/-- Channel `c` replaced. -/
def State.setChan (s : State) (c : Nat) (ch : Channel) : State := { s with channels := s.channels.set c ch }

/-- CHc_CTRL_TRIG as read, with BUSY and the error bits live (10_state.md R49; BUSY at bit 24: DEDUCED, log 27). -/
def Channel.ctrlValue (ch : Channel) : Word :=
  BitVec.ofBool (ch.readError || ch.writeError) ++ (BitVec.ofBool ch.readError ++ (BitVec.ofBool ch.writeError ++
    (0#4 ++ (BitVec.ofBool ch.busy ++ ch.ctrl))))

/-- The value a read of an engine register returns (45_transfer_engine.md R146); a channel that does not exist has
none. -/
def State.xferValue (s : State) : XferReg → Word
  | .readAddr c => (s.channels[c]?.map (·.readAddr)).getD 0
  | .writeAddr c => (s.channels[c]?.map (·.writeAddr)).getD 0
  | .transCount c => (s.channels[c]?.map fun ch => ch.countMode ++ ch.countRemaining).getD 0
  | .ctrlTrig c => (s.channels[c]?.map Channel.ctrlValue).getD 0
  | .chanAbort => wordOfBits fun c => (s.channels[c]?.map (·.abortPending)).getD false

/-- A channel with the fields of a CTRL_TRIG write stored and the error bits written 1 cleared
(45_transfer_engine.md R146). -/
def Channel.storeCtrl (ch : Channel) (v : Word) : Channel :=
  { ch with ctrl := v.extractLsb' 0 24, readError := ch.readError && !v.getLsbD 30, writeError := ch.writeError && !v.getLsbD 29 }

/-- A channel triggered (45_transfer_engine.md R149). -/
def Channel.trigger (ch : Channel) : Channel :=
  { ch with
    countMode := ch.reloadMode, countRemaining := ch.reloadCount, phase := .idle, abortPending := false,
    busy := !(decide (ch.reloadMode = 0x0#4) && decide (ch.reloadCount = 0)) }

/-- A CTRL_TRIG write on an idle channel `c`: store, then check, then start (45_transfer_engine.md R147, R149). -/
def Channel.writeCtrlTrig (ch : Channel) (a : Agent) (c : Nat) (v : Word) : Except Refusal Channel :=
  let stored := ch.storeCtrl v
  if !v.getLsbD 0 then .ok stored
  else if stored.ctrlAdmitted c && countModeAdmitted stored.reloadMode then .ok stored.trigger
  else .error (.channelConfigNotAdmitted a)

/-- The request to abort a channel (45_transfer_engine.md R152). -/
def Channel.abort (ch : Channel) : Channel :=
  if ch.busy then
    match ch.phase with
    | .idle => { ch with busy := false }
    | .hold _ => { ch with abortPending := true }
  else ch

/-- A write of a register of channel `c`, refused while the channel is busy (45_transfer_engine.md R146). -/
def State.writeChan (s : State) (a : Agent) (c : Nat) (f : Channel → Except Refusal Channel) : Except Refusal State :=
  match s.channels[c]? with
  | none => .error (.unmappedOffset a)
  | some ch =>
    if ch.busy then .error (.busyChannelWrite a)
    else
      match f ch with
      | .ok ch' => .ok (s.setChan c ch')
      | .error r => .error r

/-- A write of an engine register by agent `a` (45_transfer_engine.md R146, R149, R152). -/
def State.xferWrite (s : State) (a : Agent) (v : Word) : XferReg → Except Refusal State
  | .readAddr c => s.writeChan a c fun ch => .ok { ch with readAddr := v }
  | .writeAddr c => s.writeChan a c fun ch => .ok { ch with writeAddr := v }
  | .transCount c => s.writeChan a c fun ch => .ok { ch with countReload := v }
  | .ctrlTrig c => s.writeChan a c fun ch => ch.writeCtrlTrig a c v
  | .chanAbort => .ok { s with channels := s.channels.mapIdx fun c ch => if v.getLsbD c then ch.abort else ch }

/-- Where a bus address leads (20_memory.md R54). -/
inductive Region where
  | seq (offset : Nat)
  | xfer (offset : Nat)
  | platform
  deriving DecidableEq, Repr

/-- The region of a bus address (20_memory.md R54; windows that overlap: DESIGN CHOICE, log 14). -/
def State.regionOf (s : State) (addr : Word) : Region :=
  if (addr - s.params.seqBase).toNat < 0x4000 then .seq (addr - s.params.seqBase).toNat
  else if (addr - s.params.xferBase).toNat < 0x4000 then .xfer (addr - s.params.xferBase).toNat
  else .platform

/-- A register access is 32 bits wide and aligned (20_memory.md R57). -/
def registerAccessOk (addr : Word) (size : AccessSize) : Bool := decide (size = .word) && decide (addr.toNat % 4 = 0)

/-- What a bus read answers: a value and the state after it, a bus error, or a refusal. -/
inductive BusRead where
  | ok (v : Word) (s : State)
  | error
  | refuse (r : Refusal)

/-- What a bus write answers. -/
inductive BusWrite where
  | ok (s : State)
  | error
  | refuse (r : Refusal)

/-- The answer of a register write as a bus write. -/
def BusWrite.ofRegister : Except Refusal State → BusWrite
  | .ok s => .ok s
  | .error r => .refuse r

/-- A read of the SEQ window (20_memory.md R57, R58; R57 before R58: DEDUCED, log 13). -/
def State.seqBusRead (s : State) (a : Agent) (addr : Word) (size : AccessSize) (o : Nat) : BusRead :=
  if !registerAccessOk addr size then .refuse (.narrowRegisterAccess a)
  else if 0x1000 ≤ o then .refuse (.atomicAlias a)
  else
    match seqRegAt o with
    | none => .refuse (.unmappedOffset a)
    | some r => .ok (s.seqValue r) (s.afterSeqRead r)

/-- A write of the SEQ window (20_memory.md R57, R58; R57 before R58: DEDUCED, log 13). -/
def State.seqBusWrite (s : State) (a : Agent) (addr : Word) (size : AccessSize) (v : Word) (o : Nat) : BusWrite :=
  if !registerAccessOk addr size then .refuse (.narrowRegisterAccess a)
  else if 0x1000 ≤ o then .refuse (.atomicAlias a)
  else
    match seqRegAt o with
    | none => .refuse (.unmappedOffset a)
    | some r => .ofRegister (s.seqWrite a v r)

/-- A read of the XFER window (20_memory.md R57, 45_transfer_engine.md R147; R57 before R147: DEDUCED, log 13). -/
def State.xferBusRead (s : State) (a : Agent) (addr : Word) (size : AccessSize) (o : Nat) : BusRead :=
  if !registerAccessOk addr size then .refuse (.narrowRegisterAccess a)
  else
    match xferRegAt s.channels.length o with
    | none => .refuse (.unmappedOffset a)
    | some r => .ok (s.xferValue r) s

/-- A write of the XFER window (20_memory.md R57, 45_transfer_engine.md R147; R57 before R147: DEDUCED, log 13). -/
def State.xferBusWrite (s : State) (a : Agent) (addr : Word) (size : AccessSize) (v : Word) (o : Nat) : BusWrite :=
  if !registerAccessOk addr size then .refuse (.narrowRegisterAccess a)
  else
    match xferRegAt s.channels.length o with
    | none => .refuse (.unmappedOffset a)
    | some r => .ofRegister (s.xferWrite a v r)

/-- `BUS_OK(addr, size)`: the platform address responds (20_memory.md R60; DESIGN CHOICE, log 8). -/
def State.busOk (s : State) (addr : Word) (size : AccessSize) : Bool :=
  s.params.busMap.any fun r =>
    decide (r.size = size) && decide (r.first.toNat ≤ addr.toNat) && decide (addr.toNat ≤ r.last.toNat)

/-- `MemRead(addr, n)` by bus master `a` (20_memory.md R55, R60; misaligned before no response: DESIGN CHOICE, log 12). -/
def State.busRead (s : State) (a : Agent) (addr : Word) (size : AccessSize) : BusRead :=
  match s.regionOf addr with
  | .seq o => s.seqBusRead a addr size o
  | .xfer o => s.xferBusRead a addr size o
  | .platform =>
    if addr.toNat % size.bytes ≠ 0 then .refuse (.misalignedAccess a)
    else if !s.busOk addr size then .error
    else .ok (s.platformValue addr size) s

/-- `MemWrite(addr, n, v)` by bus master `a` (20_memory.md R56, R60; misaligned before no response: DESIGN CHOICE, log
12). -/
def State.busWrite (s : State) (a : Agent) (addr : Word) (size : AccessSize) (v : Word) : BusWrite :=
  match s.regionOf addr with
  | .seq o => s.seqBusWrite a addr size v o
  | .xfer o => s.xferBusWrite a addr size v o
  | .platform =>
    if addr.toNat % size.bytes ≠ 0 then .refuse (.misalignedAccess a)
    else if !s.busOk addr size then .error
    else .ok (s.platformStore addr size v)

/-- The request line `DREQ(t)`, the lines of the block before 0x3F (45_transfer_engine.md R148; DESIGN CHOICE, log 20).
-/
def State.dreq (s : State) (t : Nat) : Bool :=
  let base := 8 * s.params.seqIndex
  if base ≤ t ∧ t < base + 4 then !(s.sm (Fin.ofNat 4 (t - base))).txFull
  else if base + 4 ≤ t ∧ t < base + 8 then !(s.sm (Fin.ofNat 4 (t - base - 4))).rxEmpty
  else if t = 0x3F then true
  else s.env.dreq.getLsbD t

/-- Channel `ch` has an enabled step (45_transfer_engine.md R150, R152). -/
def State.channelEnabled (s : State) (ch : Channel) : Bool :=
  ch.busy &&
    match ch.phase with
    | .hold _ => true
    | .idle => ch.abortPending || s.dreq ch.treqSel

/-- `ByteSwap(v, size)` (45_transfer_engine.md R151). -/
def byteSwap (size : AccessSize) (v : Word) : Word :=
  match size with
  | .byte => v
  | .half => (v.extractLsb' 0 8 ++ v.extractLsb' 8 8).zeroExtend 32
  | .word => v.extractLsb' 0 8 ++ (v.extractLsb' 8 8 ++ (v.extractLsb' 16 8 ++ v.extractLsb' 24 8))

/-- An address after a transfer of `size` bytes (45_transfer_engine.md R150). -/
def advanceAddr (incr : Bool) (addr : Word) (size : AccessSize) : Word :=
  if incr then addr + BitVec.ofNat 32 size.bytes else addr

/-- A channel halted by a bus error or at the end of an abort (45_transfer_engine.md R152, R153). -/
def Channel.halt (ch : Channel) : Channel := { ch with phase := .idle, busy := false, abortPending := false }

/-- A channel after its write phase: the address, the phase, and the count or the end of an abort
(45_transfer_engine.md R150, R152). `aborting` is `abort_pending` before the step; the last write of an abort still
advances WRITE_ADDR (DEDUCED, log 17). -/
def Channel.afterWrite (ch : Channel) (aborting : Bool) (size : AccessSize) : Channel :=
  let moved := { ch with writeAddr := advanceAddr ch.incrWrite ch.writeAddr size, phase := .idle }
  if aborting then moved.halt
  else if ch.countMode = 0x0#4 then
    { moved with
      countRemaining := ch.countRemaining - 1
      busy := if ch.countRemaining - 1 = 0 then false else ch.busy }
  else moved

/-- Channel `c` of a state, updated. -/
def State.updChan (s : State) (c : Nat) (f : Channel → Channel) : State := { s with channels := s.channels.modify c f }

/-- The read phase (45_transfer_engine.md R150, R153). -/
def readPhase (c : Nat) (ch : Channel) (size : AccessSize) (s : State) : Out :=
  match s.busRead (.channel c) ch.readAddr size with
  | .ok v s' =>
    .next (s'.updChan c fun ch' =>
      { ch' with readAddr := advanceAddr ch.incrRead ch.readAddr size, phase := .hold v })
  | .error => .next (s.updChan c fun ch' => { ch'.halt with readError := true })
  | .refuse r => .refused r

/-- The write phase of the held word `v` (45_transfer_engine.md R150 to R153). -/
def writePhase (c : Nat) (ch : Channel) (size : AccessSize) (v : Word) (s : State) : Out :=
  match s.busWrite (.channel c) ch.writeAddr size (if ch.bswap then byteSwap size v else v) with
  | .ok s' => .next (s'.updChan c fun ch' => ch'.afterWrite ch.abortPending size)
  | .error => .next (s.updChan c fun ch' => { ch'.halt with writeError := true })
  | .refuse r => .refused r

/-- A step of channel `c`: a transfer phase where one is enabled, else none (45_transfer_engine.md R150, R157; DESIGN
CHOICE, log 2). A data size of 3 is refused (R147); a busy channel never has it (DEDUCED, log 26). A pending abort with
no word held ends the sequence (DEDUCED, log 18). -/
def channelStep (c : Nat) (s : State) : Out :=
  match s.channels[c]? with
  | none => .next s
  | some ch =>
    if !s.channelEnabled ch then .next s
    else
      match ch.dataSize, ch.phase with
      | none, _ => .refused (.channelConfigNotAdmitted (.channel c))
      | some size, .hold v => writePhase c ch size v s
      | some size, .idle => if ch.abortPending then .next (s.updChan c Channel.halt) else readPhase c ch size s

/-- A host read: the value lands in `hostData` (20_memory.md R55, R84; DESIGN CHOICE, log 10). -/
def hostReadStep (addr : Word) (size : AccessSize) (s : State) : Out :=
  match s.busRead .host addr size with
  | .ok v s' => .next { s' with hostData := v }
  | .error => .fault (.hostBusError addr)
  | .refuse r => .refused r

/-- A host write (20_memory.md R56, R84). -/
def hostWriteStep (addr : Word) (size : AccessSize) (v : Word) (s : State) : Out :=
  match s.busWrite .host addr size v with
  | .ok s' => .next s'
  | .error => .fault (.hostBusError addr)
  | .refuse r => .refused r

end Sys2Proof.Machine
end

