-- ==== Sys2Proof/Machine/Tick.lean ====
section
/-! DEFINITION. The tick of a state machine around the meaning of its instruction, the event of a step, and the block
reset (spec/40_sequencer_cycle.md R104 to R111; 60_exceptions.md R162; 00_scope.md R10, R11; 70_reset_and_hazards.md
R172). -/

namespace Sys2Proof.Machine

open Sys2Proof

/-- State machine `k` has an enabled step: it holds no fault record, and it is enabled, or an injected instruction is
pending with no delay left (40_sequencer_cycle.md R104; 60_exceptions.md R160). -/
def State.smEnabled (s : State) (k : SmId) : Bool :=
  (s.sm k).faultRec.isNone &&
    (s.smEnable.getLsbD k.val || ((s.sm k).pending.isSome && decide ((s.sm k).delayCount = 0)))

/-- `Select()`: the pending injection, else the slot at PC, none where it is unwritten (40_sequencer_cycle.md R109). -/
def State.selectWord (s : State) : Option InstrWord :=
  match s.me.pending with
  | some (w, _) => some w
  | none => readCell (s.imem.get s.me.pc.toFin)

/-- A delay tick: the count and the edge detector only (40_sequencer_cycle.md R108). -/
def delayTick (s : State) : State :=
  s.setMe { s.me with delayCount := s.me.delayCount - 1, edgePrev := some s.pinSample }

/-- The word decoded and executed; a reserved encoding is refused (40_sequencer_cycle.md R105; 30_encoding.md R99). -/
def execWord (w : InstrWord) (s : State) : Out :=
  match decode w with
  | .ok i => exec i s
  | .error _ => .refused (.reservedEncoding (.sm s.active))

/-- A tick of the executing state machine, its outcomes in the order of 60_exceptions.md R162. -/
def tickActive (s : State) : Out :=
  if !s.me.admitted then .refused (.configNotAdmitted (.sm s.active))
  else if 0 < s.me.delayCount then .next (delayTick s)
  else
    match s.selectWord with
    | none => .next (s.takeFault none)
    | some w => execWord w s

/-- The machine with state machine `k` executing (DESIGN CHOICE, log 3). -/
def State.activate (s : State) (k : SmId) : State := { s with active := k }

/-- A tick of state machine `k`; one with no enabled step does nothing (40_sequencer_cycle.md R104; DESIGN CHOICE, log
2). -/
def tickStep (k : SmId) (s : State) : Out :=
  if s.smEnabled k then tickActive (s.activate k) else .next s

/-- A block reset: every piece of the block's and the engine's state at its reset value; the parameters, the inputs and
the model's own fields stay (70_reset_and_hazards.md R172, R173; DEDUCED, log 24). -/
def State.blockReset (s : State) : State :=
  { State.resetWith s.params s.channels.length s.env with
    hostData := s.hostData, active := s.active, now := s.now, agenda := s.agenda }

/-- The event of this step: the agenda's first, else the free schedule's (00_scope.md R11; DESIGN CHOICE, log 1). -/
def State.nextEvent (s : State) : Event :=
  match s.agenda with
  | e :: _ => e
  | [] => Config.schedule s.now

/-- The machine with the event of this step taken off the agenda and the step counted. -/
def State.consume (s : State) : State := { s with agenda := s.agenda.tail, now := s.now + 1 }

/-- One event, on the machine that has already taken it off its agenda (00_scope.md R10). -/
def perform (e : Event) (s : State) : Out :=
  match e with
  | .tick k => tickStep k s
  | .channel c => channelStep c s
  | .hostRead addr size => hostReadStep addr size s
  | .hostWrite addr size v => hostWriteStep addr size v s
  | .environment env => .next { s with env := env }
  | .blockReset => .next s.blockReset

/-- The fetch of SM `s.active` prepared: the word in the slot at its PC, the state machine enabled with nothing
pending, no delay, no fault record and an admitted configuration, and its tick next on the agenda (DESIGN CHOICE, log
25). -/
def State.loadFetch (s : State) (w : InstrWord) : State :=
  let m := { s.me with pending := none, delayCount := 0, faultRec := none }
  let m' := if m.admitted then m
    else { m with execctrl := Sm.reset.execctrl, shiftctrl := Sm.reset.shiftctrl, pinctrl := Sm.reset.pinctrl }
  { (s.setMe m').setSlot s.me.pc.toFin w with
    smEnable := setBit s.smEnable s.active.val, agenda := .tick s.active :: s.agenda }

end Sys2Proof.Machine
end

