-- ==== Sys2Proof/Machine/Step.lean ====
section
/-! DEFINITION. One step of the machine: one event of the interleaving (spec/00_scope.md R10 to R12). -/

namespace Sys2Proof.Machine

open Sys2Proof

/-- One step: the next event, on the machine with that event taken off its agenda. -/
def step (s : State) : Host.Outcome State Fault Refusal := perform s.nextEvent s.consume

/-- The machine with the instruction of the low `nbits` bits of `w` where its next step fetches (DESIGN CHOICE, log
25). -/
def State.withFetchWord (s : State) (nbits w : Nat) : State := s.loadFetch (BitVec.ofNat 16 (w % 2 ^ nbits))

end Sys2Proof.Machine
end

