-- ==== Sys2Proof/Machine/Rule.lean ====
section
/-! DEFINITION. The rule of every instruction, which says how its tick ends: complete, stall, the read of an unwritten
cell, or a refusal (spec/00_scope.md R12). -/

namespace Sys2Proof.Machine

open Sys2Proof

/-- The answer of the rule of `i` at `s`, which the tick of `i` finishes with (00_scope.md R12; 40_sequencer_cycle.md
R105). -/
def ruleOf (i : Instr) (s : State) : RuleResult :=
  match i with
  | .jmpAlways _ addr => ruleJmpAlways addr s
  | .jmpNotX _ addr => ruleJmpNotX addr s
  | .jmpXDec _ addr => ruleJmpXDec addr s
  | .jmpNotY _ addr => ruleJmpNotY addr s
  | .jmpYDec _ addr => ruleJmpYDec addr s
  | .jmpXNeY _ addr => ruleJmpXNeY addr s
  | .jmpPin _ addr => ruleJmpPin addr s
  | .jmpNotOsre _ addr => ruleJmpNotOsre addr s
  | .waitGpio _ pol index => ruleWaitGpio pol index s
  | .waitPin _ pol index => ruleWaitPin pol index s
  | .waitIrq _ pol index => ruleWaitIrq pol index s
  | .waitEdge _ pol index => ruleWaitEdge pol index s
  | .inPins _ count => ruleInPins count s
  | .inX _ count => ruleInX count s
  | .inY _ count => ruleInY count s
  | .inNull _ count => ruleInNull count s
  | .inIsr _ count => ruleInIsr count s
  | .inOsr _ count => ruleInOsr count s
  | .outPins _ count => ruleOutPins count s
  | .outX _ count => ruleOutX count s
  | .outY _ count => ruleOutY count s
  | .outNull _ count => ruleOutNull count s
  | .outPindirs _ count => ruleOutPindirs count s
  | .outPc _ count => ruleOutPc count s
  | .outIsr _ count => ruleOutIsr count s
  | .outExec _ count => ruleOutExec count s
  | .push _ iffull block => rulePush iffull block s
  | .pull _ ifempty block => rulePull ifempty block s
  | .nop _ => ruleNop s
  | .movPins _ op src => ruleMovPins op src s
  | .movX _ op src => ruleMovX op src s
  | .movY _ op src => ruleMovY op src s
  | .movExec _ op src => ruleMovExec op src s
  | .movPc _ op src => ruleMovPc op src s
  | .movIsr _ op src => ruleMovIsr op src s
  | .movOsr _ op src => ruleMovOsr op src s
  | .irqSet _ index => ruleIrqSet index s
  | .irqWait _ index => ruleIrqWait index s
  | .irqClear _ _ index => ruleIrqClear index s
  | .setPins _ data => ruleSetPins data s
  | .setX _ data => ruleSetX data s
  | .setY _ data => ruleSetY data s
  | .setPindirs _ data => ruleSetPindirs data s

end Sys2Proof.Machine
end

