-- ==== Sys2Proof/Safety.lean ====
section
/-! DEFINITION. The terms claims are stated in: what an instruction leaves unchanged, how a tick ends, runs with
weak fairness and deadlock, and the invariant of the machine (spec/00_scope.md R10 to R13; 10_state.md R14 to R22, R48;
40_sequencer_cycle.md R105, R113 to R115; 20_memory.md R60). -/

namespace Sys2Proof.Machine

open Sys2Proof

/-- What no instruction changes: the other state machines, the instruction memory, the block's control and interrupt
registers, the flags only the bus sets, the engine, every byte of platform memory, and the inputs. -/
structure TickFrame (s t : State) : Prop where
  others : ∀ k, k ≠ s.active → t.sm k = s.sm k
  imem : t.imem = s.imem
  smEnable : t.smEnable = s.smEnable
  inputSyncBypass : t.inputSyncBypass = s.inputSyncBypass
  inte0 : t.inte0 = s.inte0
  intf0 : t.intf0 = s.intf0
  inte1 : t.inte1 = s.inte1
  intf1 : t.intf1 = s.intf1
  rxUnder : t.rxUnder = s.rxUnder
  txOver : t.txOver = s.txOver
  channels : t.channels = s.channels
  mem : ∀ a, t.mem.byteAt a = s.mem.byteAt a
  params : t.params = s.params
  env : t.env = s.env
  hostData : t.hostData = s.hostData
  active : t.active = s.active
  now : t.now = s.now
  agenda : t.agenda = s.agenda

/-- The IRQ flags and the stall flags of FDEBUG are unchanged. -/
def SameFlags (s t : State) : Prop := t.irq = s.irq ∧ t.rxStall = s.rxStall ∧ t.txStall = s.txStall

/-- The pads after a tick with field `ds` whose own pin writes give `out` and `oe`: the side-set on top
(40_sequencer_cycle.md R112). -/
def PadsAre (ds : Five) (s t : State) (out oe : Word) : Prop :=
  t.padOut = sideSetOut s.me ds out ∧ t.padOe = sideSetOe s.me ds oe

/-- The executing state machine after a completed instruction that injects nothing: `m`, its effects, with the PC `pc`,
the instruction's delay loaded, nothing pending, and this tick's sample kept (40_sequencer_cycle.md R107, R110, R114).
-/
def Sm.completed (m : Sm) (s : State) (ds : Five) (pc : Five) : Sm :=
  { m with pc := pc, delayCount := (dsSplit s.me ds).delay, pending := none, edgePrev := some s.pinSample }

/-- The instruction `i` completes at `s` in `t` with the private effects `m` and next PC `pc`, the pads written to
`out` and `oe` before the side-set, and nothing else changed. -/
structure CompletesIn (i : Instr) (s t : State) (m : Sm) (pc : Five) (out oe : Word) : Prop where
  runs : exec i s = .next t
  sm : t.me = m.completed s i.ds pc
  pads : PadsAre i.ds s t out oe
  frame : TickFrame s t

/-- The instruction `i` completes at `s` with the private effects `m` and next PC `pc`, its pads written to `out` and
`oe`, and the flags unchanged. -/
def Completes (i : Instr) (s : State) (m : Sm) (pc : Five) (out oe : Word) : Prop :=
  ∃ t, CompletesIn i s t m pc out oe ∧ SameFlags s t

/-- The instruction `i` completes at `s` and injects the word `w`, which its PC `pc` and a delay of 0 go with
(40_sequencer_cycle.md R110, R114). -/
def CompletesInjecting (i : Instr) (s : State) (m : Sm) (pc : Five) (w : InstrWord) : Prop :=
  ∃ t, exec i s = .next t ∧
    t.me = { m with pc := pc, delayCount := 0, pending := some (w, .exec), edgePrev := some s.pinSample } ∧
    PadsAre i.ds s t s.padOut s.padOe ∧ TickFrame s t ∧ SameFlags s t

/-- The instruction `i` stalls at `s` in `t`: the executing state machine keeps everything but its edge history and what
`m` says, the side-set is applied, and nothing else changes but the flags (40_sequencer_cycle.md R113). -/
structure StallsIn (i : Instr) (s t : State) (m : Sm) : Prop where
  runs : exec i s = .next t
  sm : t.me = { m with edgePrev := some s.pinSample }
  pads : PadsAre i.ds s t s.padOut s.padOe
  frame : TickFrame s t

/-- The instruction `i` stalls at `s`: nothing changes but what `m` says, the edge history and the side-set. -/
def Stalls (i : Instr) (s : State) (m : Sm) : Prop := ∃ t, StallsIn i s t m ∧ SameFlags s t

/-- Bit `k` is set, the others are as they were. -/
def Raised {n : Nat} (v v' : BitVec n) (k : Nat) : Prop := ∀ j, v'.getLsbD j = (v.getLsbD j || decide (j = k))

/-- Bit `k` is cleared, the others are as they were. -/
def Lowered {n : Nat} (v v' : BitVec n) (k : Nat) : Prop := ∀ j, v'.getLsbD j = (v.getLsbD j && !decide (j = k))

/-- The instruction `i` stalls at `s` on a full RX FIFO: its one effect is `FDEBUG.RXSTALL` (10_state.md R27). -/
def StallsOnRx (i : Instr) (s : State) : Prop :=
  ∃ t, StallsIn i s t s.me ∧ t.irq = s.irq ∧ t.txStall = s.txStall ∧ Raised s.rxStall t.rxStall s.active.val

/-- The instruction `i` stalls at `s` on an empty TX FIFO: its one effect is `FDEBUG.TXSTALL` (10_state.md R27). -/
def StallsOnTx (i : Instr) (s : State) : Prop :=
  ∃ t, StallsIn i s t s.me ∧ t.irq = s.irq ∧ t.rxStall = s.rxStall ∧ Raised s.txStall t.txStall s.active.val

/-- The instruction `i` takes the fault of 60_exceptions.md R160 at `s`: the record, and no effect at all besides. That
this is a next state of the machine is the model's reading (DEDUCED, log 6). -/
def TakesUnwrittenFault (i : Instr) (s : State) : Prop :=
  exec i s = .next
    (s.setMe { s.me with faultRec := some { reason := .unwrittenRead, pc := s.me.pc, word := some (encode i) } })

/-- The word of `i`: the opcode `op`, its delay/side-set field, and the operand bits 7:5 `hi` and 4:0 `lo`
(30_encoding.md R86). -/
def EncodesAs (i : Instr) (op hi : BitVec 3) (lo : Five) : Prop := encode i = op ++ (i.ds ++ (hi ++ lo))

/-- The word with these fields is refused at `s` (30_encoding.md R99). -/
def RefusesWord (op : BitVec 3) (ds : Five) (hi : BitVec 3) (lo : Five) (s : State) : Prop :=
  execWord (op ++ (ds ++ (hi ++ lo))) s = .refused (.reservedEncoding (.sm s.active))

/-- The value a cell holds once something has written it (10_state.md R23). -/
def Holds {w : Nat} (c : Cell w) (v : BitVec w) : Prop := c.written = true ∧ c.val = v

/-- What a JMP with condition `cond` does at `s`, none where it reads an unwritten register: `m` its private effects
(41_flow.md R121, R122). -/
def JumpsWhen (i : Instr) (addr : Five) (s : State) (m : Sm) (cond : Option Bool) : Prop :=
  (cond = none → TakesUnwrittenFault i s) ∧
  (cond = some true → Completes i s m addr s.padOut s.padOe) ∧
  (cond = some false → Completes i s m (s.me.nextPc none) s.padOut s.padOe)

/-- What a WAIT on `cond` does at `s`: it completes where the condition holds, else it stalls (41_flow.md R123, R124,
R126). -/
def WaitsFor (i : Instr) (s : State) (cond : Prop) : Prop :=
  (cond → Completes i s s.me (s.me.nextPc none) s.padOut s.padOe) ∧ (¬cond → Stalls i s s.me)

/-- An IN of `count` bits reaches the push threshold with AUTOPUSH = 1 (42_shift.md R131). -/
def AutopushDue (m : Sm) (count : Five) : Prop :=
  m.autopush = true ∧ m.pushThresh ≤ min 32 (m.isrCount + bitCount count)

/-- What an IN of `count` bits does at `s`, from a source that reads `src`, none where it is unwritten (42_shift.md
R131). -/
def ShiftsIn (i : Instr) (count : Five) (s : State) (src : Option Word) : Prop :=
  (src = none → TakesUnwrittenFault i s) ∧
  ∀ v, src = some v →
    (¬AutopushDue s.me count →
      Completes i s
        { s.me with
          isr := shiftInValue s.me.inShiftRight s.me.isr (bitCount count) v,
          isrCount := min 32 (s.me.isrCount + bitCount count) }
        (s.me.nextPc none) s.padOut s.padOe) ∧
    (AutopushDue s.me count → s.me.rx.length ≠ s.me.rxCap →
      Completes i s
        { s.me with
          rx := s.me.rx ++ [shiftInValue s.me.inShiftRight s.me.isr (bitCount count) v], isr := 0, isrCount := 0 }
        (s.me.nextPc none) s.padOut s.padOe) ∧
    (AutopushDue s.me count → s.me.rx.length = s.me.rxCap → StallsOnRx i s)

/-- An OUT would refill the OSR from the TX FIFO (42_shift.md R133). -/
def AutopullDue (m : Sm) : Prop := m.autopull = true ∧ m.pullThresh ≤ m.osrCount

/-- The word `osr` an OUT shifts, its count `cnt` and the TX FIFO `tx` it leaves: the refill of autopull, or the OSR
(42_shift.md R133). -/
def OutTakes (m : Sm) (osr : Word) (cnt : Nat) (tx : List Word) : Prop :=
  (AutopullDue m ∧ m.tx = osr :: tx ∧ cnt = 0) ∨ (¬AutopullDue m ∧ Holds m.osr osr ∧ cnt = m.osrCount ∧ tx = m.tx)

/-- The state machine after an OUT of `count` bits of `osr`, but for its destination (42_shift.md R129, R133). -/
def Sm.shiftedOut (m : Sm) (count : Five) (osr : Word) (cnt : Nat) (tx : List Word) : Sm :=
  { m with
    tx := tx, osr := .of (shiftOutRest m.outShiftRight osr (bitCount count)), osrCount := min 32 (cnt + bitCount count) }

/-- The configuration registers of two state machines agree. -/
def SameConfig (m m' : Sm) : Prop :=
  m'.clkdiv = m.clkdiv ∧ m'.execctrl = m.execctrl ∧ m'.shiftctrl = m.shiftctrl ∧ m'.pinctrl = m.pinctrl

/-- The FIFOs of `m'` are those of `m` after at most one pop of the TX FIFO and at most one push of the RX FIFO
(10_state.md R19, R20). -/
def FifosAdvance (m m' : Sm) : Prop :=
  (m'.tx = m.tx ∨ ∃ w, m.tx = w :: m'.tx) ∧ (m'.rx = m.rx ∨ ∃ w, m'.rx = m.rx ++ [w])

/-- The PC lies in the wrap range (40_sequencer_cycle.md R116). -/
def InWrapRange (m : Sm) (pc : Five) : Prop := m.wrapBottom.toNat ≤ pc.toNat ∧ pc.toNat ≤ m.wrapTop.toNat

/-- Every jump target the instruction names or computes lies in the wrap range (40_sequencer_cycle.md R116): a JMP's
address; OUT PC and MOV PC, whose targets are data, are not among the instructions this holds of. -/
def TargetsInRange (m : Sm) : Instr → Prop
  | .jmpAlways _ addr | .jmpNotX _ addr | .jmpXDec _ addr | .jmpNotY _ addr | .jmpYDec _ addr | .jmpXNeY _ addr
  | .jmpPin _ addr | .jmpNotOsre _ addr => InWrapRange m addr
  | .outPc _ _ | .movPc _ _ _ => False
  | .waitGpio _ _ _ | .waitPin _ _ _ | .waitIrq _ _ _ | .waitEdge _ _ _ | .inPins _ _ | .inX _ _ | .inY _ _ | .inNull _ _
  | .inIsr _ _ | .inOsr _ _ | .outPins _ _ | .outX _ _ | .outY _ _ | .outNull _ _ | .outPindirs _ _ | .outIsr _ _
  | .outExec _ _ | .push _ _ _ | .pull _ _ _ | .nop _ | .movPins _ _ _ | .movX _ _ _ | .movY _ _ _ | .movExec _ _ _
  | .movIsr _ _ _ | .movOsr _ _ _ | .irqSet _ _ | .irqWait _ _ | .irqClear _ _ _ | .setPins _ _ | .setX _ _ | .setY _ _
  | .setPindirs _ _ => True

/-- Bus addresses: the windows are word aligned and apart (20_memory.md R54). -/
def WindowsApart (p : Params) : Prop :=
  p.seqBase.toNat % 4 = 0 ∧ p.xferBase.toNat % 4 = 0 ∧ 0x4000 ≤ (p.xferBase - p.seqBase).toNat ∧
    0x4000 ≤ (p.seqBase - p.xferBase).toNat

/-- The bus address of a register of the SEQ window (20_memory.md R61). -/
def State.seqAddr (s : State) (r : SeqReg) : Word := s.params.seqBase + BitVec.ofNat 32 r.offset

/-- The bus address of offset `o` of the XFER window (45_transfer_engine.md R146). -/
def State.xferAddr (s : State) (o : Nat) : Word := s.params.xferBase + BitVec.ofNat 32 o

/-- The word state machine `k` executes at its next non-delay tick: the pending injection, else the slot at its PC
(40_sequencer_cycle.md R109). -/
def Selects (s : State) (k : SmId) (w : InstrWord) : Prop :=
  (∃ kind, (s.sm k).pending = some (w, kind)) ∨
    ((s.sm k).pending = none ∧ Holds (s.imem.get (s.sm k).pc.toFin) w)

/-- The next step is a non-delay tick of state machine `k`, which has an enabled step and an admitted configuration. -/
def TicksNext (s : State) (k : SmId) : Prop :=
  s.nextEvent = .tick k ∧ s.smEnabled k = true ∧ (s.sm k).admitted = true ∧ (s.sm k).delayCount = 0

/-- Word `w` is a reserved encoding (30_encoding.md R99). -/
def Reserved (w : InstrWord) : Prop :=
  let op := field (w.zeroExtend 32) 13 3
  let hi := field (w.zeroExtend 32) 5 3
  let lo := field (w.zeroExtend 32) 0 5
  (op = 2 ∧ (hi = 4 ∨ hi = 5)) ∨
  (op = 4 ∧ lo ≠ 0) ∨
  (op = 5 ∧ (hi = 3 ∨ lo / 8 = 3 ∨ lo % 8 = 4)) ∨
  (op = 6 ∧ (w.getLsbD 7 = true ∨ w.getLsbD 3 = true)) ∨
  (op = 1 ∧ hi % 4 = 2 ∧ w.getLsbD 3 = true) ∨
  (op = 7 ∧ (hi = 3 ∨ hi = 5 ∨ hi = 6 ∨ hi = 7))

/-! Runs: one event a step, chosen by the interleaving (00_scope.md R10 to R13). -/

/-- The step in which the interleaving chooses the event `e` (00_scope.md R11). A step of the machine with an empty agenda
is the one on the event of the free schedule. -/
def State.stepOn (s : State) (e : Event) : Out := step { s with agenda := [e] }

/-- The agent whose step an event is; the environment and the reset controller are not among the agents of a fair run. -/
def stepper : Event → Option Agent
  | .tick k => some (.sm k)
  | .channel c => some (.channel c)
  | .hostRead _ _ => some .host
  | .hostWrite _ _ _ => some .host
  | .environment _ => none
  | .blockReset => none

/-- The agent has an enabled step: a state machine by 40_sequencer_cycle.md R104, a channel by 45_transfer_engine.md R150
and R152; the host may step at any point (20_memory.md R84). -/
def State.HasStep (s : State) : Agent → Prop
  | .sm k => s.smEnabled k = true
  | .channel c => ∃ ch, s.channels[c]? = some ch ∧ s.channelEnabled ch = true
  | .host => True

/-- An infinite run: `es n` is the event of step `n` and `ss n` the state before it. A run has no final state, and a
refusal ends none of them in success: a run that meets one is not among them (00_scope.md R13; 60_exceptions.md R161). -/
def IsRun (es : Nat → Event) (ss : Nat → State) : Prop := ∀ n, (ss n).stepOn (es n) = .next (ss (n + 1))

/-- Weak fairness: a state machine or a channel whose step stays enabled eventually takes it (00_scope.md R11). It is not
asked of the host and the environment, which may step at any point but need not (DESIGN CHOICE, log 29). -/
def WeaklyFair (es : Nat → Event) (ss : Nat → State) : Prop :=
  ∀ (a : Agent) (n : Nat), a ≠ .host → (∀ m, n ≤ m → (ss m).HasStep a) → ∃ m, n ≤ m ∧ stepper (es m) = some a

/-- The step of state machine `k` is a tick whose instruction stalls (00_scope.md R12; 40_sequencer_cycle.md R113). -/
def State.Stalls (s : State) (k : SmId) : Prop :=
  s.smEnabled k = true ∧ (s.sm k).admitted = true ∧ (s.sm k).delayCount = 0 ∧
    ∃ w i u, Selects s k w ∧ decode w = .ok i ∧
      ruleOf i (State.activate { s with agenda := [], now := s.now + 1 } k) = .stall u

/-- `t` is reached from `s` by steps of state machines and channels alone. -/
inductive State.Reaches : State → State → Prop where
  | refl (s : State) : s.Reaches s
  | step {s t u : State} {e : Event} : (∃ k, e = .tick k) ∨ (∃ c, e = .channel c) → s.stepOn e = .next t → t.Reaches u →
      s.Reaches u

/-- A deadlock: no state machine and no channel can step, now or after steps of these alone: it has no enabled step, or
its step stalls (00_scope.md R12, R13). That the host and the environment are not asked to be stuck is the model's choice
(DESIGN CHOICE, log 29). -/
def State.Deadlock (s : State) : Prop :=
  ∀ t, s.Reaches t → (∀ k, t.smEnabled k = false ∨ t.Stalls k) ∧ ∀ c, ¬t.HasStep (.channel c)

/-- Channel `c` is busy and holds the word `v`, to be written at `addr` (45_transfer_engine.md R150). -/
def State.HoldsWord (s : State) (c : Nat) (v addr : Word) : Prop :=
  ∃ ch, s.channels[c]? = some ch ∧ ch.busy = true ∧ ch.phase = .hold v ∧ ch.writeAddr = addr

/-! The invariant. -/

/-- The invariant of a state machine: counts, delay and FIFO levels in their ranges, reserved register bits 0
(10_state.md R17, R18, R20, R22, R38, R39, R42). -/
structure SmInv (m : Sm) : Prop where
  isrCount : m.isrCount ≤ 32
  osrCount : m.osrCount ≤ 32
  delayCount : m.delayCount ≤ 31
  txLevel : m.tx.length ≤ m.txCap
  rxLevel : m.rx.length ≤ m.rxCap
  clkdiv : clkdivStored m.clkdiv = m.clkdiv
  execctrl : execctrlStored m.execctrl = m.execctrl
  shiftctrl : shiftctrlStored m.shiftctrl = m.shiftctrl

/-- The invariant of channel `c`: a busy channel has an admitted configuration and, if counted, transfers left; a
channel that holds a word is busy (45_transfer_engine.md R147, R149, R150). -/
structure ChannelInv (c : Nat) (ch : Channel) : Prop where
  admitted : ch.busy = true → ch.ctrlAdmitted c = true ∧ countModeAdmitted ch.countMode = true
  remaining : ch.busy = true → ch.countMode = 0x0#4 → ch.countRemaining ≠ 0
  holding : ∀ v, ch.phase = .hold v → ch.busy = true

/-- The invariant of the machine. -/
structure State.Inv (s : State) : Prop where
  sms : ∀ k, SmInv (s.sm k)
  channels : ∀ c ch, s.channels[c]? = some ch → ChannelInv c ch
  mem : s.mem.wf = true

end Sys2Proof.Machine
end

