-- ==== Sys2Proof/Certificates/Slice0/Obligations.lean ====
section
/-! DEFINITION. The statements for the provers, in the order of the spec's files. -/

open Sys2Proof Sys2Proof.Machine

/-! Encoding (30_encoding.md). -/

/-- Decoding the word of a well-formed instruction gives it back, with every operand. -/
def Obligations.DecodeEncode : Prop := ∀ i : Instr, i.wf = true → decode (encode i) = .ok i

/-- Each word spells at most one instruction: whatever a word decodes to is well formed and encodes to that word. -/
def Obligations.EncodeDecode : Prop :=
  ∀ (w : InstrWord) (i : Instr), decode w = .ok i → i.wf = true ∧ encode i = w

/-- The words that decode to no instruction are exactly the reserved encodings, and a tick that would execute one,
fetched or injected, is refused. -/
def Obligations.ReservedEncodings : Prop :=
  (∀ w : InstrWord, (∃ r, decode w = .error r) ↔ Reserved w) ∧
  ∀ (s : State) (k : SmId) (w : InstrWord), TicksNext s k → Selects s k w → Reserved w →
    step s = .refused (.reservedEncoding (.sm k))

/-- Words of spec/95_test_vectors.md and of the worked examples decode to the instructions they are given for. -/
def Obligations.SampleWords : Prop :=
  decode 0x0043#16 = .ok (.jmpXDec 0 3) ∧ decode 0x2068#16 = .ok (.waitEdge 0 false 8) ∧
  decode 0x20C2#16 = .ok (.waitIrq 0 true 2) ∧ decode 0x4008#16 = .ok (.inPins 0 8) ∧
  decode 0x6008#16 = .ok (.outPins 0 8) ∧ decode 0x8020#16 = .ok (.push 0 false true) ∧
  decode 0x80A0#16 = .ok (.pull 0 false true) ∧ decode 0xA02F#16 = .ok (.movX 0 .invert .osr) ∧
  decode 0xA042#16 = .ok (.nop 0) ∧ decode 0xC021#16 = .ok (.irqWait 0 1) ∧ decode 0xE081#16 = .ok (.setPindirs 0 1)

/-- The split of the delay/side-set field under every admitted configuration. -/
def Obligations.DelaySideSetSplit : Prop :=
  ∀ (m : Sm) (ds : Five), m.sidesetCount ≤ 5 → ¬(m.sideEn = true ∧ m.sidesetCount = 0) →
    (dsSplit m ds).delay = (if m.sidesetCount = 5 then 0 else ds.toNat % 2 ^ (5 - m.sidesetCount)) ∧
    (m.sideEn = false →
      (dsSplit m ds).ssValid = decide (0 < m.sidesetCount) ∧ (dsSplit m ds).ssBits = m.sidesetCount ∧
      ∀ j < m.sidesetCount, (dsSplit m ds).ssValue.getLsbD j = ds.getLsbD (5 - m.sidesetCount + j)) ∧
    (m.sideEn = true →
      (dsSplit m ds).ssValid = ds.getLsbD 4 ∧ (dsSplit m ds).ssBits = m.sidesetCount - 1 ∧
      ∀ j < m.sidesetCount - 1, (dsSplit m ds).ssValue.getLsbD j = ds.getLsbD (5 - m.sidesetCount + j))

/-! The tick (40_sequencer_cycle.md). -/

/-- When a state machine has an enabled step. A tick chosen for one that has none leaves the machine as it is but for
the event taken off the agenda: that stutter is the model's choice (DESIGN CHOICE, log 2). A deadlock (log 29) is never
left by a tick or a channel step, and such a step changes nothing but edge histories, stall flags, the flag and the latch
of an `irq wait`, and what a side-set writes. In a weakly fair run (log 29) a state machine whose step stays enabled comes
to a non-delay tick after every point, and a word a busy channel holds is kept until that channel's own step, which comes,
unless a block reset does. -/
def Obligations.EnabledStep : Prop :=
  (∀ (s : State) (k : SmId),
    (s.smEnabled k = true ↔
      (s.sm k).faultRec = none ∧
        (s.smEnable.getLsbD k.val = true ∨ ((s.sm k).pending ≠ none ∧ (s.sm k).delayCount = 0))) ∧
    (s.nextEvent = .tick k → s.smEnabled k = false → step s = .next s.consume)) ∧
  (∀ (s : State) (e : Event), s.Deadlock → (∃ k, e = .tick k) ∨ (∃ c, e = .channel c) →
    ∃ t, s.stepOn e = .next t ∧ t.Deadlock ∧
      (∀ k, t.sm k = { s.sm k with edgePrev := (t.sm k).edgePrev, irqWaiting := (t.sm k).irqWaiting }) ∧
      t.imem = s.imem ∧ t.channels = s.channels ∧ ∀ a, t.mem.byteAt a = s.mem.byteAt a) ∧
  ∀ (es : Nat → Event) (ss : Nat → State), IsRun es ss → WeaklyFair es ss →
    (∀ (k : SmId) (n : Nat), (∀ m, n ≤ m → (ss m).smEnabled k = true) →
      ∃ m, n ≤ m ∧ es m = .tick k ∧ ((ss m).sm k).delayCount = 0) ∧
    ∀ (c n : Nat) (v addr : Word), (ss n).HoldsWord c v addr →
      ∃ m, n ≤ m ∧ (∀ j, n ≤ j → j ≤ m → (ss j).HoldsWord c v addr) ∧ (es m = .channel c ∨ es m = .blockReset)

/-- A step whose event is a non-delay tick runs the instruction that the pending injection, else the slot at PC, decodes
to, on the machine that has taken the event off its agenda and made `k` the executing state machine; an unwritten slot
takes the fault of the spec, which is a next state of the machine (DEDUCED, log 6). -/
def Obligations.StepRunsDecoded : Prop :=
  ∀ (s : State) (k : SmId), TicksNext s k →
    (∀ (w : InstrWord) (i : Instr), Selects s k w → decode w = .ok i → step s = exec i (s.consume.activate k)) ∧
    ((s.sm k).pending = none → (s.imem.get (s.sm k).pc.toFin).written = false →
      step s = .next
        ((s.consume.activate k).setSm k
          { s.sm k with faultRec := some { reason := .unwrittenRead, pc := (s.sm k).pc, word := none } }))

/-- A tick with a delay left counts it down and updates the edge detector, and does nothing else. -/
def Obligations.DelayTick : Prop :=
  ∀ (s : State) (k : SmId), s.nextEvent = .tick k → s.smEnabled k = true → (s.sm k).admitted = true →
    0 < (s.sm k).delayCount →
    step s = .next
      ((s.consume.activate k).setSm k
        { s.sm k with delayCount := (s.sm k).delayCount - 1, edgePrev := some (s.consume.activate k).pinSample })

/-- The bits of EXECCTRL, SHIFTCTRL and PINCTRL at which each field stands, a threshold of 0 meaning 32; the admitted
configurations, a tick under any other, and the bus write that stores one, which is accepted. -/
def Obligations.ConfigAdmitted : Prop :=
  (∀ m : Sm,
    m.sideEn = m.execctrl.getLsbD 30 ∧ m.sidePindir = m.execctrl.getLsbD 29 ∧
    m.jmpPin.toNat = m.execctrl.toNat / 2 ^ 24 % 2 ^ 5 ∧ m.inlineOutEn = m.execctrl.getLsbD 18 ∧
    m.outSticky = m.execctrl.getLsbD 17 ∧ m.wrapTop.toNat = m.execctrl.toNat / 2 ^ 12 % 2 ^ 5 ∧
    m.wrapBottom.toNat = m.execctrl.toNat / 2 ^ 7 % 2 ^ 5 ∧ m.statusSel = m.execctrl.getLsbD 4 ∧
    m.statusN = m.execctrl.toNat % 2 ^ 4) ∧
  (∀ m : Sm,
    let pull := m.shiftctrl.toNat / 2 ^ 25 % 2 ^ 5
    let push := m.shiftctrl.toNat / 2 ^ 20 % 2 ^ 5
    m.fjoinRx = m.shiftctrl.getLsbD 31 ∧ m.fjoinTx = m.shiftctrl.getLsbD 30 ∧
    m.pullThresh = (if pull = 0 then 32 else pull) ∧ m.pushThresh = (if push = 0 then 32 else push) ∧
    m.outShiftRight = m.shiftctrl.getLsbD 19 ∧ m.inShiftRight = m.shiftctrl.getLsbD 18 ∧
    m.autopull = m.shiftctrl.getLsbD 17 ∧ m.autopush = m.shiftctrl.getLsbD 16) ∧
  (∀ m : Sm,
    m.sidesetCount = m.pinctrl.toNat / 2 ^ 29 ∧ m.setCount = m.pinctrl.toNat / 2 ^ 26 % 2 ^ 3 ∧
    m.outCount = m.pinctrl.toNat / 2 ^ 20 % 2 ^ 6 ∧ m.inBase.toNat = m.pinctrl.toNat / 2 ^ 15 % 2 ^ 5 ∧
    m.sidesetBase.toNat = m.pinctrl.toNat / 2 ^ 10 % 2 ^ 5 ∧ m.setBase.toNat = m.pinctrl.toNat / 2 ^ 5 % 2 ^ 5 ∧
    m.outBase.toNat = m.pinctrl.toNat % 2 ^ 5) ∧
  (∀ m : Sm, m.admitted = true ↔
    ¬(m.fjoinTx = true ∧ m.fjoinRx = true) ∧ m.sidesetCount ≤ 5 ∧ m.setCount ≤ 5 ∧ m.outCount ≤ 32 ∧
      ¬(m.sideEn = true ∧ m.sidesetCount = 0) ∧ m.outSticky = false ∧ m.inlineOutEn = false) ∧
  (∀ (s : State) (k : SmId), s.nextEvent = .tick k → s.smEnabled k = true → (s.sm k).admitted = false →
    step s = .refused (.configNotAdmitted (.sm k))) ∧
  ∀ (s : State) (a : Agent) (k : SmId) (v : Word), WindowsApart s.params →
    (∃ t, s.busWrite a (s.seqAddr (.smExecctrl k)) .word v = .ok t) ∧
    (∃ t, s.busWrite a (s.seqAddr (.smShiftctrl k)) .word v = .ok t) ∧
    ∃ t, s.busWrite a (s.seqAddr (.smPinctrl k)) .word v = .ok t

/-- The PC after a completed instruction: a jump, the wrap, the next slot modulo 32, or no move for an injected one. -/
def Obligations.NextPc : Prop :=
  ∀ m : Sm,
    (∀ t, m.nextPc (some t) = t) ∧
    (m.pending = none →
      (m.pc = m.wrapTop → m.nextPc none = m.wrapBottom) ∧
      (m.pc ≠ m.wrapTop → (m.nextPc none).toNat = (m.pc.toNat + 1) % 32)) ∧
    (m.pending ≠ none → m.nextPc none = m.pc)

/-- A pin write puts bit `i` of the value on pin `(base + i) mod 32` for `i < count`, and leaves the other pins; bit
`i` of the input view is pin `(base + i) mod 32` of the sample. -/
def Obligations.PinRanges : Prop :=
  ∀ (pad : Word) (base : Five) (value : Word),
    (∀ count ≤ 32,
      (∀ i < count, (writePinRange pad base count value).getLsbD ((base.toNat + i) % 32) = value.getLsbD i) ∧
      ∀ p < 32, (∀ i < count, p ≠ (base.toNat + i) % 32) →
        (writePinRange pad base count value).getLsbD p = pad.getLsbD p) ∧
    ∀ i < 32, (rotatePins value base).getLsbD i = value.getLsbD ((base.toNat + i) % 32)

/-- The level of each pin a state machine samples: driven by the block, from outside, by both, or by neither; and the
step in which the environment changes its inputs. That a draw is the free constant `Config.pinDraw` at the step counter,
and that the inputs are held in `env`, are the model's choices (DESIGN CHOICE, logs 5 and 9). -/
def Obligations.PinLevels : Prop :=
  ∀ (s : State),
    (∀ env, s.nextEvent = .environment env → step s = .next { s.consume with env := env }) ∧
    ∀ p < 32,
    let drive := p < s.params.numGpio ∧ s.env.funcsel[p]? = some .seq ∧ s.padOe.getLsbD p = true
    let ext := if p < s.params.numGpio then (s.env.ext[p]?).getD .z else .z
    let out := s.padOut.getLsbD p
    let draw := (Config.pinDraw s.now).getLsbD p
    (drive → ext = .z → s.pinSample.getLsbD p = out) ∧
    (drive → ext = (if out then .high else .low) → s.pinSample.getLsbD p = out) ∧
    (drive → ext = (if out then .low else .high) → s.pinSample.getLsbD p = draw) ∧
    (¬drive → ext = .low → s.pinSample.getLsbD p = false) ∧
    (¬drive → ext = .high → s.pinSample.getLsbD p = true) ∧
    (¬drive → ext = .z → s.pinSample.getLsbD p = draw)

/-! JMP and WAIT (41_flow.md). -/

/-- JMP, all eight conditions: the encoding, where each jumps, the decrement of `x--` and `y--`, and the fault on an
unwritten register, which is a next state with the record written (60_exceptions.md R160; DEDUCED, log 6). -/
def Obligations.JmpRule : Prop :=
  ∀ (ds addr : Five) (s : State),
    JumpsWhen (.jmpAlways ds addr) addr s s.me (some true) ∧
    JumpsWhen (.jmpNotX ds addr) addr s s.me ((readCell s.me.x).map fun x => decide (x = 0)) ∧
    JumpsWhen (.jmpXDec ds addr) addr s { s.me with x := .of (s.me.x.val - 1) }
      ((readCell s.me.x).map fun x => decide (x ≠ 0)) ∧
    JumpsWhen (.jmpNotY ds addr) addr s s.me ((readCell s.me.y).map fun y => decide (y = 0)) ∧
    JumpsWhen (.jmpYDec ds addr) addr s { s.me with y := .of (s.me.y.val - 1) }
      ((readCell s.me.y).map fun y => decide (y ≠ 0)) ∧
    JumpsWhen (.jmpXNeY ds addr) addr s s.me
      ((readCell s.me.x).bind fun x => (readCell s.me.y).map fun y => decide (x ≠ y)) ∧
    JumpsWhen (.jmpPin ds addr) addr s s.me (some (s.pinSample.getLsbD s.me.jmpPin.toNat)) ∧
    JumpsWhen (.jmpNotOsre ds addr) addr s s.me (some (decide (s.me.osrCount < s.me.pullThresh))) ∧
    EncodesAs (.jmpAlways ds addr) 0b000#3 0b000#3 addr ∧ EncodesAs (.jmpNotX ds addr) 0b000#3 0b001#3 addr ∧
    EncodesAs (.jmpXDec ds addr) 0b000#3 0b010#3 addr ∧ EncodesAs (.jmpNotY ds addr) 0b000#3 0b011#3 addr ∧
    EncodesAs (.jmpYDec ds addr) 0b000#3 0b100#3 addr ∧ EncodesAs (.jmpXNeY ds addr) 0b000#3 0b101#3 addr ∧
    EncodesAs (.jmpPin ds addr) 0b000#3 0b110#3 addr ∧ EncodesAs (.jmpNotOsre ds addr) 0b000#3 0b111#3 addr

/-- WAIT GPIO and WAIT PIN: the encoding, and the level of a pin, by absolute number or from IN_BASE; complete or
stall. -/
def Obligations.WaitLevelRule : Prop :=
  ∀ (ds index : Five) (pol : Bool) (s : State),
    WaitsFor (.waitGpio ds pol index) s (s.pinSample.getLsbD index.toNat = pol) ∧
    WaitsFor (.waitPin ds pol index) s (s.pinSample.getLsbD ((s.me.inBase.toNat + index.toNat) % 32) = pol) ∧
    EncodesAs (.waitGpio ds pol index) 0b001#3 (BitVec.ofBool pol ++ 0b00#2) index ∧
    EncodesAs (.waitPin ds pol index) 0b001#3 (BitVec.ofBool pol ++ 0b01#2) index

/-- WAIT IRQ: the encoding; complete where the flag is at the level, clearing it for a wait for 1; stall elsewhere; a
reserved index is refused. -/
def Obligations.WaitIrqRule : Prop :=
  ∀ (ds index : Five) (pol : Bool) (s : State),
    EncodesAs (.waitIrq ds pol index) 0b001#3 (BitVec.ofBool pol ++ 0b10#2) index ∧
    (irqIndex index s.active = none →
      exec (.waitIrq ds pol index) s = .refused (.reservedEncoding (.sm s.active))) ∧
    ∀ f, irqIndex index s.active = some f →
      (s.irq.getLsbD f.toNat = pol →
        ∃ t, CompletesIn (.waitIrq ds pol index) s t s.me (s.me.nextPc none) s.padOut s.padOe ∧
          (pol = true → Lowered s.irq t.irq f.toNat) ∧ (pol = false → t.irq = s.irq) ∧ t.rxStall = s.rxStall ∧
          t.txStall = s.txStall) ∧
      (s.irq.getLsbD f.toNat ≠ pol → Stalls (.waitIrq ds pol index) s s.me)

/-- WAIT EDGE: the encoding; complete on a tick whose sample differs from the previous one at the pin, in the direction
named; no edge where there is no previous sample. -/
def Obligations.WaitEdgeRule : Prop :=
  ∀ (ds index : Five) (s : State),
    WaitsFor (.waitEdge ds false index) s
      (∃ prev, s.me.edgePrev = some prev ∧ prev.getLsbD index.toNat = true ∧ s.pinSample.getLsbD index.toNat = false) ∧
    WaitsFor (.waitEdge ds true index) s
      (∃ prev, s.me.edgePrev = some prev ∧ prev.getLsbD index.toNat = false ∧ s.pinSample.getLsbD index.toNat = true) ∧
    ∀ pol, EncodesAs (.waitEdge ds pol index) 0b001#3 (BitVec.ofBool pol ++ 0b11#2) index

/-! IN, OUT, PUSH and PULL (42_shift.md). -/

/-- The bits of the ISR after `n` bits of `d` have entered it, the bits that leave the OSR and the bits that stay, from
either end. -/
def Obligations.ShiftBits : Prop :=
  ∀ (isr osr d : Word) (n : Nat), 1 ≤ n → n ≤ 32 → ∀ j < 32,
    (shiftInValue true isr n d).getLsbD j = (if j < 32 - n then isr.getLsbD (j + n) else d.getLsbD (j - (32 - n))) ∧
    (shiftInValue false isr n d).getLsbD j = (if j < n then d.getLsbD j else isr.getLsbD (j - n)) ∧
    (shiftOutData true osr n).getLsbD j = (decide (j < n) && osr.getLsbD j) ∧
    (shiftOutData false osr n).getLsbD j = (decide (j < n) && osr.getLsbD (32 - n + j)) ∧
    (shiftOutRest true osr n).getLsbD j = (decide (j + n < 32) && osr.getLsbD (j + n)) ∧
    (shiftOutRest false osr n).getLsbD j = (decide (n ≤ j) && osr.getLsbD (j - n))

/-- IN, all six sources: the encoding, the shift, the autopush, the stall on a full RX FIFO, and the fault on an unwritten
source, which is a next state with the record written (60_exceptions.md R160; DEDUCED, log 6); the two reserved sources
are refused. -/
def Obligations.InRule : Prop :=
  ∀ (ds count : Five) (s : State),
    ShiftsIn (.inPins ds count) count s (some (rotatePins s.pinSample s.me.inBase)) ∧
    ShiftsIn (.inX ds count) count s (readCell s.me.x) ∧
    ShiftsIn (.inY ds count) count s (readCell s.me.y) ∧
    ShiftsIn (.inNull ds count) count s (some 0#32) ∧
    ShiftsIn (.inIsr ds count) count s (some s.me.isr) ∧
    ShiftsIn (.inOsr ds count) count s (readCell s.me.osr) ∧
    EncodesAs (.inPins ds count) 0b010#3 0b000#3 count ∧ EncodesAs (.inX ds count) 0b010#3 0b001#3 count ∧
    EncodesAs (.inY ds count) 0b010#3 0b010#3 count ∧ EncodesAs (.inNull ds count) 0b010#3 0b011#3 count ∧
    EncodesAs (.inIsr ds count) 0b010#3 0b110#3 count ∧ EncodesAs (.inOsr ds count) 0b010#3 0b111#3 count ∧
    RefusesWord 0b010#3 ds 0b100#3 count s ∧ RefusesWord 0b010#3 ds 0b101#3 count s

/-- OUT, all eight destinations: the encoding, the bits an OUT takes, the refill of autopull, what each destination does
with the bits, the stall of autopull on an empty TX FIFO, and the fault on an unwritten OSR that nothing refills, which is
a next state with the record written (60_exceptions.md R160; DEDUCED, log 6). -/
def Obligations.OutRule : Prop :=
  ∀ (ds count : Five) (s : State),
    (∀ (osr : Word) (cnt : Nat) (tx : List Word), OutTakes s.me osr cnt tx →
      let n := bitCount count
      let data := shiftOutData s.me.outShiftRight osr n
      let m := s.me.shiftedOut count osr cnt tx
      let next := s.me.nextPc none
      Completes (.outPins ds count) s m next (writePinRange s.padOut s.me.outBase s.me.outCount data) s.padOe ∧
      Completes (.outX ds count) s { m with x := .of data } next s.padOut s.padOe ∧
      Completes (.outY ds count) s { m with y := .of data } next s.padOut s.padOe ∧
      Completes (.outNull ds count) s m next s.padOut s.padOe ∧
      Completes (.outPindirs ds count) s m next s.padOut (writePinRange s.padOe s.me.outBase s.me.outCount data) ∧
      Completes (.outPc ds count) s m (data.extractLsb' 0 5) s.padOut s.padOe ∧
      Completes (.outIsr ds count) s { m with isr := data, isrCount := n } next s.padOut s.padOe ∧
      CompletesInjecting (.outExec ds count) s m next (data.extractLsb' 0 16)) ∧
    (∀ i ∈ [Instr.outPins ds count, .outX ds count, .outY ds count, .outNull ds count, .outPindirs ds count,
        .outPc ds count, .outIsr ds count, .outExec ds count],
      (AutopullDue s.me → s.me.tx = [] → StallsOnTx i s) ∧
      (¬AutopullDue s.me → s.me.osr.written = false → TakesUnwrittenFault i s)) ∧
    EncodesAs (.outPins ds count) 0b011#3 0b000#3 count ∧ EncodesAs (.outX ds count) 0b011#3 0b001#3 count ∧
    EncodesAs (.outY ds count) 0b011#3 0b010#3 count ∧ EncodesAs (.outNull ds count) 0b011#3 0b011#3 count ∧
    EncodesAs (.outPindirs ds count) 0b011#3 0b100#3 count ∧ EncodesAs (.outPc ds count) 0b011#3 0b101#3 count ∧
    EncodesAs (.outIsr ds count) 0b011#3 0b110#3 count ∧ EncodesAs (.outExec ds count) 0b011#3 0b111#3 count

/-- PUSH: the encoding; no effect below the threshold with `iffull`; on a full RX FIFO the stall of a blocking one, and
the loss of the word by a non-blocking one; else the push. -/
def Obligations.PushRule : Prop :=
  ∀ (ds : Five) (iffull block : Bool) (s : State),
    let skips := iffull = true ∧ s.me.isrCount < s.me.pushThresh
    let full := s.me.rx.length = s.me.rxCap
    let next := s.me.nextPc none
    EncodesAs (.push ds iffull block) 0b100#3 (0b0#1 ++ (BitVec.ofBool iffull ++ BitVec.ofBool block)) 0b00000#5 ∧
    (∀ lo, lo ≠ 0 → RefusesWord 0b100#3 ds (0b0#1 ++ (BitVec.ofBool iffull ++ BitVec.ofBool block)) lo s) ∧
    (skips → Completes (.push ds iffull block) s s.me next s.padOut s.padOe) ∧
    (¬skips → full → block = true → StallsOnRx (.push ds iffull block) s) ∧
    (¬skips → full → block = false → s.params.noblockPushClears = true →
      Completes (.push ds iffull block) s { s.me with isr := 0, isrCount := 0 } next s.padOut s.padOe) ∧
    (¬skips → full → block = false → s.params.noblockPushClears = false →
      Completes (.push ds iffull block) s s.me next s.padOut s.padOe) ∧
    (¬skips → ¬full →
      Completes (.push ds iffull block) s { s.me with rx := s.me.rx ++ [s.me.isr], isr := 0, isrCount := 0 } next
        s.padOut s.padOe)

/-- PULL: the encoding; no effect below the threshold with `ifempty`, nor on a full OSR with autopull; on an empty TX
FIFO the stall of a blocking one, and the copy of X by a non-blocking one, or, with X unwritten, its fault, which is a
next state with the record written (60_exceptions.md R160; DEDUCED, log 6); else the pull. -/
def Obligations.PullRule : Prop :=
  ∀ (ds : Five) (ifempty block : Bool) (s : State),
    let skips := (ifempty = true ∧ s.me.osrCount < s.me.pullThresh) ∨ (s.me.autopull = true ∧ s.me.osrCount = 0)
    let next := s.me.nextPc none
    EncodesAs (.pull ds ifempty block) 0b100#3 (0b1#1 ++ (BitVec.ofBool ifempty ++ BitVec.ofBool block)) 0b00000#5 ∧
    (∀ lo, lo ≠ 0 → RefusesWord 0b100#3 ds (0b1#1 ++ (BitVec.ofBool ifempty ++ BitVec.ofBool block)) lo s) ∧
    (skips → Completes (.pull ds ifempty block) s s.me next s.padOut s.padOe) ∧
    (¬skips → s.me.tx = [] → block = true → StallsOnTx (.pull ds ifempty block) s) ∧
    (¬skips → s.me.tx = [] → block = false → s.me.x.written = false → TakesUnwrittenFault (.pull ds ifempty block) s) ∧
    (¬skips → s.me.tx = [] → block = false → ∀ x, Holds s.me.x x →
      Completes (.pull ds ifempty block) s { s.me with osr := .of x, osrCount := 0 } next s.padOut s.padOe) ∧
    (¬skips → ∀ w rest, s.me.tx = w :: rest →
      Completes (.pull ds ifempty block) s { s.me with tx := rest, osr := .of w, osrCount := 0 } next s.padOut s.padOe)

/-! MOV, IRQ and SET (43_mov_irq_set.md). -/

/-- `nop` is `mov y, y`, 0xA042 with a field of 0 and any other field in bits 12:8, and completes in every state with
no effect but its side-set and delay. -/
def Obligations.NopRule : Prop :=
  encode (.nop 0) = 0xA042#16 ∧
  ∀ (ds : Five) (s : State),
    EncodesAs (.nop ds) 0b101#3 0b010#3 0b00010#5 ∧ Completes (.nop ds) s s.me (s.me.nextPc none) s.padOut s.padOe

/-- The sources and the operations of MOV. -/
def Obligations.MovOperands : Prop :=
  ∀ (m : Sm) (cur v : Word),
    m.movSource cur .pins = some (rotatePins cur m.inBase) ∧ m.movSource cur .x = readCell m.x ∧
    m.movSource cur .y = readCell m.y ∧ m.movSource cur .null = some 0#32 ∧
    m.movSource cur .status =
      some (if (if m.statusSel then m.rx.length else m.tx.length) < m.statusN then 0xFFFFFFFF#32 else 0#32) ∧
    m.movSource cur .isr = some m.isr ∧ m.movSource cur .osr = readCell m.osr ∧ movOperation .none v = v ∧
    movOperation .invert v = ~~~v ∧ ∀ j < 32, (movOperation .reverse v).getLsbD j = v.getLsbD (31 - j)

/-- MOV, all seven destinations: the encoding; from any source with any operation; the copy of X or Y onto itself
completes even where the register is unwritten, every other read of an unwritten register faults, which is a next state
with the record written (60_exceptions.md R160; DEDUCED, log 6). -/
def Obligations.MovRule : Prop :=
  ∀ (ds : Five) (op : MovOp) (src : MovSrc) (s : State),
    let next := s.me.nextPc none
    (∀ v, s.me.movSource s.pinSample src = some v →
      let r := movOperation op v
      Completes (.movPins ds op src) s s.me next (writePinRange s.padOut s.me.outBase s.me.outCount r) s.padOe ∧
      Completes (.movX ds op src) s { s.me with x := .of r } next s.padOut s.padOe ∧
      Completes (.movY ds op src) s { s.me with y := .of r } next s.padOut s.padOe ∧
      CompletesInjecting (.movExec ds op src) s s.me next (r.extractLsb' 0 16) ∧
      Completes (.movPc ds op src) s s.me (r.extractLsb' 0 5) s.padOut s.padOe ∧
      Completes (.movIsr ds op src) s { s.me with isr := r, isrCount := 0 } next s.padOut s.padOe ∧
      Completes (.movOsr ds op src) s { s.me with osr := .of r, osrCount := 0 } next s.padOut s.padOe) ∧
    (s.me.movSource s.pinSample src = none →
      (∀ i ∈ [Instr.movPins ds op src, .movExec ds op src, .movPc ds op src, .movIsr ds op src, .movOsr ds op src],
        TakesUnwrittenFault i s) ∧
      (¬(op = .none ∧ src = .x) → TakesUnwrittenFault (.movX ds op src) s) ∧
      (¬(op = .none ∧ src = .y) → TakesUnwrittenFault (.movY ds op src) s)) ∧
    Completes (.movX ds .none .x) s s.me next s.padOut s.padOe ∧
    Completes (.movY ds .none .y) s s.me next s.padOut s.padOe ∧
    (let lo : Five := op.code ++ src.code;
      EncodesAs (.movPins ds op src) 0b101#3 0b000#3 lo ∧ EncodesAs (.movX ds op src) 0b101#3 0b001#3 lo ∧
      EncodesAs (.movY ds op src) 0b101#3 0b010#3 lo ∧ EncodesAs (.movExec ds op src) 0b101#3 0b100#3 lo ∧
      EncodesAs (.movPc ds op src) 0b101#3 0b101#3 lo ∧ EncodesAs (.movIsr ds op src) 0b101#3 0b110#3 lo ∧
      EncodesAs (.movOsr ds op src) 0b101#3 0b111#3 lo) ∧
    (∀ lo, RefusesWord 0b101#3 ds 0b011#3 lo s) ∧
    ∀ hi lo, lo.extractLsb' 3 2 = 0b11#2 ∨ lo.extractLsb' 0 3 = 0b100#3 → RefusesWord 0b101#3 ds hi lo s

/-- The flag a 5-bit index names for state machine `k`: none with bit 3 set, absolute, or relative modulo 4 in bits
1:0. -/
def Obligations.IrqIndexRule : Prop :=
  ∀ (idx : Five) (k : SmId),
    (idx.getLsbD 3 = true → irqIndex idx k = none) ∧
    (idx.getLsbD 3 = false → idx.getLsbD 4 = false → irqIndex idx k = some (idx.extractLsb' 0 3)) ∧
    (idx.getLsbD 3 = false → idx.getLsbD 4 = true →
      ∃ f, irqIndex idx k = some f ∧
        f.toNat = (if idx.getLsbD 2 then 4 else 0) + ((idx.extractLsb' 0 2).toNat + k.val) % 4)

/-- IRQ, its three forms: the encoding, the set, the set that waits for the clear, and the clear. Where the latch
`irq_waiting` is true, a set of either form raises nothing and waits for the clear of its own flag: that a plain set does
so too, as one injected while another IRQ waits, is the model's literal reading of the pseudocode of 43_mov_irq_set.md
R144 (DEDUCED, log 21). A reserved index is refused. -/
def Obligations.IrqRule : Prop :=
  ∀ (ds index : Five) (s : State),
    let next := s.me.nextPc none
    (EncodesAs (.irqSet ds index) 0b110#3 0b000#3 index ∧ EncodesAs (.irqWait ds index) 0b110#3 0b001#3 index ∧
      (∀ wait, EncodesAs (.irqClear ds wait index) 0b110#3 (0b0#1 ++ (0b1#1 ++ BitVec.ofBool wait)) index) ∧
      ∀ hi lo, hi.getLsbD 2 = true ∨ lo.getLsbD 3 = true → RefusesWord 0b110#3 ds hi lo s) ∧
    (irqIndex index s.active = none → ∀ wait,
      ∀ i ∈ [Instr.irqSet ds index, .irqWait ds index, .irqClear ds wait index],
        exec i s = .refused (.reservedEncoding (.sm s.active))) ∧
    ∀ f, irqIndex index s.active = some f →
      (∀ wait, ∃ t, CompletesIn (.irqClear ds wait index) s t s.me next s.padOut s.padOe ∧
        Lowered s.irq t.irq f.toNat ∧ t.rxStall = s.rxStall ∧ t.txStall = s.txStall) ∧
      (s.me.irqWaiting = false →
        (∃ t, CompletesIn (.irqSet ds index) s t s.me next s.padOut s.padOe ∧ Raised s.irq t.irq f.toNat ∧
          t.rxStall = s.rxStall ∧ t.txStall = s.txStall) ∧
        ∃ t, StallsIn (.irqWait ds index) s t { s.me with irqWaiting := true } ∧ Raised s.irq t.irq f.toNat ∧
          t.rxStall = s.rxStall ∧ t.txStall = s.txStall) ∧
      (s.me.irqWaiting = true → ∀ i ∈ [Instr.irqSet ds index, .irqWait ds index],
        (s.irq.getLsbD f.toNat = false →
          Completes i s { s.me with irqWaiting := false } next s.padOut s.padOe) ∧
        (s.irq.getLsbD f.toNat = true → Stalls i s s.me))

/-- SET, all four destinations: the encoding, and the value each writes. -/
def Obligations.SetRule : Prop :=
  ∀ (ds data : Five) (s : State),
    let next := s.me.nextPc none
    let v : Word := data.zeroExtend 32
    Completes (.setPins ds data) s s.me next (writePinRange s.padOut s.me.setBase s.me.setCount v) s.padOe ∧
    Completes (.setX ds data) s { s.me with x := .of v } next s.padOut s.padOe ∧
    Completes (.setY ds data) s { s.me with y := .of v } next s.padOut s.padOe ∧
    Completes (.setPindirs ds data) s s.me next s.padOut (writePinRange s.padOe s.me.setBase s.me.setCount v) ∧
    EncodesAs (.setPins ds data) 0b111#3 0b000#3 data ∧ EncodesAs (.setX ds data) 0b111#3 0b001#3 data ∧
    EncodesAs (.setY ds data) 0b111#3 0b010#3 data ∧ EncodesAs (.setPindirs ds data) 0b111#3 0b100#3 data ∧
    ∀ hi ∈ [0b011#3, 0b101#3, 0b110#3, 0b111#3], RefusesWord 0b111#3 ds hi data s

/-! All instructions at once. -/

/-- Every well-formed instruction answers a next state in every state, and no instruction ends in a fault of the
machine: an unwritten read, the spec's one fault, is a next state with the record written, which is the model's reading of
60_exceptions.md R160 (DEDUCED, log 6). The only refusal is that of a term no word spells (log 23). -/
def Obligations.EveryInstructionRuns : Prop :=
  ∀ (i : Instr) (s : State),
    (i.wf = true → ∃ t, exec i s = .next t) ∧
    (∀ r, exec i s = .refused r → i.wf = false ∧ r = .reservedEncoding (.sm s.active)) ∧
    ∀ r, exec i s ≠ .fault r

/-- No instruction changes another state machine, the instruction memory, a configuration, control or interrupt
register, a channel, a byte of memory, or the inputs. -/
def Obligations.InstructionFrame : Prop :=
  ∀ (i : Instr) (s t : State), exec i s = .next t → TickFrame s t ∧ SameConfig s.me t.me

/-- The fault of an unwritten read, a next state of the machine (DEDUCED, log 6): any instruction that leaves a record
where there was none records the reason, its PC and its word and has no other effect; where X, Y and the OSR are written,
as they are after `State.reset` (log 4), no instruction leaves one, and they stay written; a state machine with a record
has no enabled step, while every other one keeps its own; a tick chosen for it is a stutter, which is the model's choice
(DESIGN CHOICE, log 2); and no step but a block reset clears or changes a record. -/
def Obligations.UnwrittenReadFault : Prop :=
  (∀ (i : Instr) (s t : State), exec i s = .next t → s.me.faultRec = none → t.me.faultRec ≠ none →
    t.me = { s.me with faultRec := some { reason := .unwrittenRead, pc := s.me.pc, word := some (encode i) } } ∧
    TickFrame s t ∧ SameFlags s t ∧ t.padOut = s.padOut ∧ t.padOe = s.padOe ∧ t.smEnabled t.active = false ∧
    ∀ k, k ≠ s.active → t.smEnabled k = s.smEnabled k) ∧
  (∀ (i : Instr) (s t : State), exec i s = .next t → s.me.faultRec = none → s.me.x.written = true →
    s.me.y.written = true → s.me.osr.written = true →
    t.me.faultRec = none ∧ t.me.x.written = true ∧ t.me.y.written = true ∧ t.me.osr.written = true) ∧
  (∀ (s : State) (k : SmId), s.nextEvent = .tick k → (s.sm k).faultRec ≠ none → step s = .next s.consume) ∧
  ∀ (s t : State) (k : SmId) (r : FaultRecord), (s.sm k).faultRec = some r → s.nextEvent ≠ .blockReset →
    step s = .next t → (t.sm k).faultRec = some r

/-- On every tick of an instruction that does not fault, completing or stalling, a valid side-set is what the side-set
pins hold afterwards, whatever the instruction itself wrote to them. -/
def Obligations.SideSetWins : Prop :=
  ∀ (i : Instr) (s t : State), exec i s = .next t → t.me.faultRec = none → (dsSplit s.me i.ds).ssValid = true →
    ∀ j < (dsSplit s.me i.ds).ssBits,
      (s.me.sidePindir = false →
        t.padOut.getLsbD ((s.me.sidesetBase.toNat + j) % 32) = (dsSplit s.me i.ds).ssValue.getLsbD j) ∧
      (s.me.sidePindir = true →
        t.padOe.getLsbD ((s.me.sidesetBase.toNat + j) % 32) = (dsSplit s.me i.ds).ssValue.getLsbD j)

/-- An instruction takes at most one word, the head, from its TX FIFO and adds at most one, at the tail, to its RX
FIFO. -/
def Obligations.FifoOrder : Prop :=
  ∀ (i : Instr) (s t : State), exec i s = .next t → FifosAdvance s.me t.me

/-- A fetched instruction whose jump targets lie in the wrap range keeps the PC in it. -/
def Obligations.WrapRange : Prop :=
  ∀ (i : Instr) (s t : State), exec i s = .next t → s.me.pending = none → s.me.wrapBottom.toNat ≤ s.me.wrapTop.toNat →
    InWrapRange s.me s.me.pc → TargetsInRange s.me i → InWrapRange t.me t.me.pc

/-! The registers of the block (10_state.md, 20_memory.md). -/

/-- The SEQ register map: the register at each offset, and no other register below 0x1000. -/
def Obligations.RegisterMap : Prop :=
  ([seqRegAt 0x000, seqRegAt 0x004, seqRegAt 0x008, seqRegAt 0x00C, seqRegAt 0x030, seqRegAt 0x034, seqRegAt 0x038,
      seqRegAt 0x03C, seqRegAt 0x040, seqRegAt 0x044, seqRegAt 0x128, seqRegAt 0x12C, seqRegAt 0x130, seqRegAt 0x134,
      seqRegAt 0x138, seqRegAt 0x13C, seqRegAt 0x140] =
    [some .ctrl, some .fstat, some .fdebug, some .flevel, some .irq, some .irqForce, some .inputSyncBypass,
      some .dbgPadout, some .dbgPadoe, some .dbgCfginfo, some .intr, some .irq0Inte, some .irq0Intf, some .irq0Ints,
      some .irq1Inte, some .irq1Intf, some .irq1Ints]) ∧
  (∀ n : SmId,
    seqRegAt (0x010 + 4 * n.val) = some (.txf n) ∧ seqRegAt (0x020 + 4 * n.val) = some (.rxf n) ∧
    seqRegAt (0x0C8 + 0x18 * n.val) = some (.smClkdiv n) ∧ seqRegAt (0x0CC + 0x18 * n.val) = some (.smExecctrl n) ∧
    seqRegAt (0x0D0 + 0x18 * n.val) = some (.smShiftctrl n) ∧ seqRegAt (0x0D4 + 0x18 * n.val) = some (.smAddr n) ∧
    seqRegAt (0x0D8 + 0x18 * n.val) = some (.smInstr n) ∧ seqRegAt (0x0DC + 0x18 * n.val) = some (.smPinctrl n)) ∧
  (∀ i : Fin 32, seqRegAt (0x048 + 4 * i.val) = some (.instrMem i)) ∧
  ∀ o r, seqRegAt o = some r → o = r.offset ∧ o % 4 = 0 ∧ o ≤ 0x140

/-- Where a bus address leads, and what an access to a window reaches: a narrow or misaligned one is refused, before the
alias ranges and the unmapped offsets (20_memory.md R57 read before R58 and 45_transfer_engine.md R147: DEDUCED, log 13);
then the alias ranges, the unmapped offsets of either window, and the register at the offset. CHAN_ABORT is at 0x444
whatever the number of channels (DESIGN CHOICE, log 16). -/
def Obligations.RegisterAccess : Prop :=
  (∀ (s : State) (addr : Word), WindowsApart s.params →
    (∀ o < 0x4000, s.regionOf (s.params.seqBase + BitVec.ofNat 32 o) = .seq o ∧ s.regionOf (s.xferAddr o) = .xfer o) ∧
    ((∀ o < 0x4000, addr ≠ s.params.seqBase + BitVec.ofNat 32 o ∧ addr ≠ s.xferAddr o) →
      s.regionOf addr = .platform)) ∧
  (∀ (s : State) (a : Agent) (addr v : Word) (size : AccessSize) (o : Nat), s.regionOf addr = .seq o →
    let whole := size = .word ∧ addr.toNat % 4 = 0
    (¬whole → s.busRead a addr size = .refuse (.narrowRegisterAccess a) ∧
      s.busWrite a addr size v = .refuse (.narrowRegisterAccess a)) ∧
    (whole → 0x1000 ≤ o → s.busRead a addr size = .refuse (.atomicAlias a) ∧
      s.busWrite a addr size v = .refuse (.atomicAlias a)) ∧
    (whole → o < 0x1000 → seqRegAt o = none → s.busRead a addr size = .refuse (.unmappedOffset a) ∧
      s.busWrite a addr size v = .refuse (.unmappedOffset a)) ∧
    (whole → o < 0x1000 → ∀ r, seqRegAt o = some r →
      s.busRead a addr size = .ok (s.seqValue r) (s.afterSeqRead r) ∧
      s.busWrite a addr size v = .ofRegister (s.seqWrite a v r))) ∧
  ∀ (s : State) (a : Agent) (addr v : Word) (size : AccessSize) (o : Nat), s.regionOf addr = .xfer o →
    let whole := size = .word ∧ addr.toNat % 4 = 0
    (¬whole → s.busRead a addr size = .refuse (.narrowRegisterAccess a) ∧
      s.busWrite a addr size v = .refuse (.narrowRegisterAccess a)) ∧
    (whole → o ≠ 0x444 → (s.channels.length ≤ o / 0x40 ∨ 0x10 ≤ o % 0x40) →
      s.busRead a addr size = .refuse (.unmappedOffset a) ∧ s.busWrite a addr size v = .refuse (.unmappedOffset a))

/-- A write of TXFn pushes, or is dropped with TXOVER where the FIFO is full. -/
def Obligations.TxfWrite : Prop :=
  ∀ (s : State) (a : Agent) (n : SmId) (v : Word), WindowsApart s.params →
    ((s.sm n).tx.length ≠ (s.sm n).txCap →
      s.busWrite a (s.seqAddr (.txf n)) .word v = .ok (s.setSm n { s.sm n with tx := (s.sm n).tx ++ [v] })) ∧
    ((s.sm n).tx.length = (s.sm n).txCap →
      ∃ t, s.busWrite a (s.seqAddr (.txf n)) .word v = .ok t ∧ t = { s with txOver := t.txOver } ∧
        Raised s.txOver t.txOver n.val)

/-- A read of RXFn pops, or sets RXUNDER where the FIFO is empty; a read of any other register changes nothing, and the
status registers read the levels, flags, pads, PC and next instruction they show, reserved bits 0, those of the write-only
IRQ_FORCE among them (DEDUCED, log 30). -/
def Obligations.RxfRead : Prop :=
  ∀ (s : State) (a : Agent), WindowsApart s.params →
    (∀ n w rest, (s.sm n).rx = w :: rest →
      s.busRead a (s.seqAddr (.rxf n)) .word = .ok w (s.setSm n { s.sm n with rx := rest })) ∧
    (∀ n, (s.sm n).rx = [] →
      ∃ v t, s.busRead a (s.seqAddr (.rxf n)) .word = .ok v t ∧ t = { s with rxUnder := t.rxUnder } ∧
        Raised s.rxUnder t.rxUnder n.val) ∧
    (∀ r, (∀ n, r ≠ .rxf n) → ∃ v, s.busRead a (s.seqAddr r) .word = .ok v s) ∧
    (∃ v, s.busRead a (s.seqAddr .fstat) .word = .ok v s ∧ v &&& 0xF0F0F0F0#32 = 0 ∧ ∀ k : SmId,
      v.getLsbD k.val = decide ((s.sm k).rx.length = (s.sm k).rxCap) ∧
      v.getLsbD (8 + k.val) = decide ((s.sm k).rx.length = 0) ∧
      v.getLsbD (16 + k.val) = decide ((s.sm k).tx.length = (s.sm k).txCap) ∧
      v.getLsbD (24 + k.val) = decide ((s.sm k).tx.length = 0)) ∧
    (∃ v, s.busRead a (s.seqAddr .fdebug) .word = .ok v s ∧ v &&& 0xF0F0F0F0#32 = 0 ∧ ∀ k < 4,
      v.getLsbD k = s.rxStall.getLsbD k ∧ v.getLsbD (8 + k) = s.rxUnder.getLsbD k ∧
      v.getLsbD (16 + k) = s.txOver.getLsbD k ∧ v.getLsbD (24 + k) = s.txStall.getLsbD k) ∧
    (∃ v, s.busRead a (s.seqAddr .flevel) .word = .ok v s ∧ ∀ k : SmId,
      v.extractLsb' (8 * k.val) 4 = BitVec.ofNat 4 (s.sm k).tx.length ∧
      v.extractLsb' (8 * k.val + 4) 4 = BitVec.ofNat 4 (s.sm k).rx.length) ∧
    (∃ v, s.busRead a (s.seqAddr .irq) .word = .ok v s ∧ v.toNat = s.irq.toNat) ∧
    (∃ v, s.busRead a (s.seqAddr .irqForce) .word = .ok v s ∧ v.toNat < 2 ^ 8) ∧
    (∃ v, s.busRead a (s.seqAddr .irq0Ints) .word = .ok v s ∧
      v.toNat = ((s.intr ||| s.intf0) &&& s.inte0).toNat) ∧
    (∃ v, s.busRead a (s.seqAddr .irq1Ints) .word = .ok v s ∧
      v.toNat = ((s.intr ||| s.intf1) &&& s.inte1).toNat) ∧
    s.busRead a (s.seqAddr .dbgPadout) .word = .ok s.padOut s ∧
    s.busRead a (s.seqAddr .dbgPadoe) .word = .ok s.padOe s ∧
    s.busRead a (s.seqAddr .dbgCfginfo) .word = .ok 0x00200404#32 s ∧
    ∀ n : SmId,
      (∃ v, s.busRead a (s.seqAddr (.smAddr n)) .word = .ok v s ∧ v.toNat = (s.sm n).pc.toNat) ∧
      ∃ v, s.busRead a (s.seqAddr (.smInstr n)) .word = .ok v s ∧ v.toNat < 2 ^ 16 ∧
        (∀ w kind, (s.sm n).pending = some (w, kind) → v.toNat = w.toNat) ∧
        ∀ w, (s.sm n).pending = none → Holds (s.imem.get (s.sm n).pc.toFin) w → v.toNat = w.toNat

/-- A write of FDEBUG, of IRQ and of IRQ_FORCE: the flags written 1 are cleared, cleared and set, the others stay. -/
def Obligations.FlagWrites : Prop :=
  ∀ (s : State) (a : Agent) (v : Word), WindowsApart s.params →
    (∃ t, s.busWrite a (s.seqAddr .fdebug) .word v = .ok t ∧
      t = { s with txStall := t.txStall, txOver := t.txOver, rxUnder := t.rxUnder, rxStall := t.rxStall } ∧
      ∀ k < 4,
        t.txStall.getLsbD k = (s.txStall.getLsbD k && !v.getLsbD (24 + k)) ∧
        t.txOver.getLsbD k = (s.txOver.getLsbD k && !v.getLsbD (16 + k)) ∧
        t.rxUnder.getLsbD k = (s.rxUnder.getLsbD k && !v.getLsbD (8 + k)) ∧
        t.rxStall.getLsbD k = (s.rxStall.getLsbD k && !v.getLsbD k)) ∧
    (∃ t, s.busWrite a (s.seqAddr .irq) .word v = .ok t ∧ t = { s with irq := t.irq } ∧
      ∀ f < 8, t.irq.getLsbD f = (s.irq.getLsbD f && !v.getLsbD f)) ∧
    ∃ t, s.busWrite a (s.seqAddr .irqForce) .word v = .ok t ∧ t = { s with irq := t.irq } ∧
      ∀ f < 8, t.irq.getLsbD f = (s.irq.getLsbD f || v.getLsbD f)

/-- A read of CTRL returns the enables, every other bit 0 (10_state.md R30; 20_memory.md R62, R64). A write of it: the
enables, and the restart of each state machine whose SM_RESTART bit is 1; CLKDIV_RESTART changes timing only, so nothing
of the model (DEDUCED, log 19). -/
def Obligations.CtrlWrite : Prop :=
  ∀ (s : State) (a : Agent) (v : Word), WindowsApart s.params →
    (∃ x, s.busRead a (s.seqAddr .ctrl) .word = .ok x s ∧ x.extractLsb' 0 4 = s.smEnable ∧ x.extractLsb' 4 28 = 0) ∧
    ∃ t, s.busWrite a (s.seqAddr .ctrl) .word v = .ok t ∧ t = { s with smEnable := t.smEnable, sms := t.sms } ∧
      (∀ k < 4, t.smEnable.getLsbD k = v.getLsbD k) ∧
      ∀ k : SmId, t.sm k =
        if v.getLsbD (4 + k.val) then
          { s.sm k with
            isr := 0, isrCount := 0, osrCount := 32, delayCount := 0, pending := none, irqWaiting := false,
            edgePrev := none }
        else s.sm k

/-- A write of INSTR_MEMi stores the slot, unless it is the slot an enabled state machine is on. -/
def Obligations.InstrMemWrite : Prop :=
  ∀ (s : State) (a : Agent) (i : Fin 32) (v : Word), WindowsApart s.params →
    let live := ∃ k : SmId, s.smEnable.getLsbD k.val = true ∧ (s.sm k).pc.toNat = i.val
    (live → s.busWrite a (s.seqAddr (.instrMem i)) .word v = .refuse (.liveInstructionWrite a)) ∧
    (¬live → ∃ t, s.busWrite a (s.seqAddr (.instrMem i)) .word v = .ok t ∧ t = { s with imem := t.imem } ∧
      Holds (t.imem.get i) (v.extractLsb' 0 16) ∧ ∀ j, j ≠ i → t.imem.get j = s.imem.get j)

/-- A write of SMn_INSTR injects its low half, unless an injection is pending. -/
def Obligations.InjectionWrite : Prop :=
  ∀ (s : State) (a : Agent) (n : SmId) (v : Word), WindowsApart s.params →
    ((s.sm n).pending = none →
      s.busWrite a (s.seqAddr (.smInstr n)) .word v =
        .ok (s.setSm n { s.sm n with pending := some (v.extractLsb' 0 16, .host) })) ∧
    ((s.sm n).pending ≠ none →
      s.busWrite a (s.seqAddr (.smInstr n)) .word v = .refuse (.injectionOverrun a))

/-- EXEC_STALLED reads 1 exactly while a host injection is pending. -/
def Obligations.ExecStalledRead : Prop :=
  ∀ (s : State) (a : Agent) (n : SmId), WindowsApart s.params →
    ∃ v, s.busRead a (s.seqAddr (.smExecctrl n)) .word = .ok v s ∧
      (v.getLsbD 31 = true ↔ ∃ w, (s.sm n).pending = some (w, .host))

/-- A write of a read-write register stores its fields, reserved and read-only bits ignored, and nothing else changes; a
read of it then returns the stored bits; a write of a read-only register changes nothing. What SMn_SHIFTCTRL does to the
FIFOs is in ShiftctrlWrite. -/
def Obligations.ConfigWrites : Prop :=
  ∀ (s : State) (a : Agent) (n : SmId) (v : Word), WindowsApart s.params →
    let stores := fun (r : SeqReg) (t : State) (mask : Word) =>
      s.busWrite a (s.seqAddr r) .word v = .ok t ∧ t.busRead a (t.seqAddr r) .word = .ok (v &&& mask) t
    stores (.smClkdiv n) (s.setSm n { s.sm n with clkdiv := v &&& 0xFFFFFF00#32 }) 0xFFFFFF00#32 ∧
    (let t := s.setSm n { s.sm n with execctrl := v &&& 0x7FFFFF9F#32 };
      s.busWrite a (s.seqAddr (.smExecctrl n)) .word v = .ok t ∧
      ∃ x, t.busRead a (t.seqAddr (.smExecctrl n)) .word = .ok x t ∧ x &&& 0x7FFFFFFF#32 = v &&& 0x7FFFFF9F#32) ∧
    (∃ t, stores (.smShiftctrl n) t 0xFFFF0000#32) ∧
    stores (.smPinctrl n) (s.setSm n { s.sm n with pinctrl := v }) 0xFFFFFFFF#32 ∧
    stores .inputSyncBypass { s with inputSyncBypass := v } 0xFFFFFFFF#32 ∧
    stores .irq0Inte { s with inte0 := v.extractLsb' 0 12 } 0x00000FFF#32 ∧
    stores .irq0Intf { s with intf0 := v.extractLsb' 0 12 } 0x00000FFF#32 ∧
    stores .irq1Inte { s with inte1 := v.extractLsb' 0 12 } 0x00000FFF#32 ∧
    stores .irq1Intf { s with intf1 := v.extractLsb' 0 12 } 0x00000FFF#32 ∧
    ∀ r ∈ [SeqReg.fstat, .flevel, .rxf n, .dbgPadout, .dbgPadoe, .dbgCfginfo, .smAddr n, .intr, .irq0Ints, .irq1Ints],
      s.busWrite a (s.seqAddr r) .word v = .ok s

/-- The FIFO capacities each admitted setting of the join bits gives (10_state.md R21; with both set the capacities are
log 15's, and not stated here). A write of SMn_SHIFTCTRL that changes a join bit empties both FIFOs; one that changes none
leaves them. -/
def Obligations.ShiftctrlWrite : Prop :=
  (∀ m : Sm,
    (m.shiftctrl.getLsbD 30 = false → m.shiftctrl.getLsbD 31 = false → m.txCap = 4 ∧ m.rxCap = 4) ∧
    (m.shiftctrl.getLsbD 30 = true → m.shiftctrl.getLsbD 31 = false → m.txCap = 8 ∧ m.rxCap = 0) ∧
    (m.shiftctrl.getLsbD 30 = false → m.shiftctrl.getLsbD 31 = true → m.txCap = 0 ∧ m.rxCap = 8)) ∧
  ∀ (s : State) (a : Agent) (n : SmId) (v : Word), WindowsApart s.params →
    let kept := { s.sm n with shiftctrl := v &&& 0xFFFF0000#32 }
    let same := v.getLsbD 31 = (s.sm n).fjoinRx ∧ v.getLsbD 30 = (s.sm n).fjoinTx
    (same → s.busWrite a (s.seqAddr (.smShiftctrl n)) .word v = .ok (s.setSm n kept)) ∧
    (¬same → s.busWrite a (s.seqAddr (.smShiftctrl n)) .word v = .ok (s.setSm n { kept with tx := [], rx := [] }))

/-- The twelve raw interrupt sources, readable in INTR (60_exceptions.md R164), and the two outputs computed from them,
the forces and the enables (R165). -/
def Obligations.InterruptSources : Prop :=
  ∀ s : State,
    s.seqValue .intr = s.intr.zeroExtend 32 ∧
    (∀ k : SmId,
      s.intr.getLsbD k.val = !decide ((s.sm k).rx.length = 0) ∧
      s.intr.getLsbD (4 + k.val) = !decide ((s.sm k).tx.length = (s.sm k).txCap)) ∧
    (∀ f < 4, s.intr.getLsbD (8 + f) = s.irq.getLsbD f) ∧
    (s.irq0Out = true ↔ ∃ b < 12, (s.intr.getLsbD b || s.intf0.getLsbD b) = true ∧ s.inte0.getLsbD b = true) ∧
    (s.irq1Out = true ↔ ∃ b < 12, (s.intr.getLsbD b || s.intf1.getLsbD b) = true ∧ s.inte1.getLsbD b = true)

/-! Platform memory and the host (20_memory.md). -/

/-- Platform memory: a misaligned access is refused, also where the address does not respond, an order the spec leaves
open (DESIGN CHOICE, log 12); an aligned one that does not respond is a bus error; a read assembles the bytes
little-endian, a byte nothing has written reading as a draw (log 5); and a write stores the bytes of its value and leaves
every other byte. -/
def Obligations.PlatformMemory : Prop :=
  ∀ (s : State) (a : Agent) (addr v : Word) (size : AccessSize), s.regionOf addr = .platform →
    let aligned := addr.toNat % size.bytes = 0
    let responds := s.busOk addr size = true
    (¬aligned → s.busRead a addr size = .refuse (.misalignedAccess a) ∧
      s.busWrite a addr size v = .refuse (.misalignedAccess a)) ∧
    (aligned → ¬responds → s.busRead a addr size = .error ∧ s.busWrite a addr size v = .error) ∧
    (aligned → responds →
      (∃ x, s.busRead a addr size = .ok x s ∧
        (∀ i < size.bytes, ∀ j < 8, x.getLsbD (8 * i + j) =
          ((s.mem.byteAt (addr.toNat + i)).getD (Config.byteDraw s.now (addr.toNat + i))).getLsbD j) ∧
        ∀ b, 8 * size.bytes ≤ b → x.getLsbD b = false) ∧
      ∃ t, s.busWrite a addr size v = .ok t ∧ t = { s with mem := t.mem } ∧
        (∀ i < size.bytes, t.mem.byteAt (addr.toNat + i) = some (v.extractLsb' (8 * i) 8)) ∧
        ∀ b, (b < addr.toNat ∨ addr.toNat + size.bytes ≤ b) → t.mem.byteAt b = s.mem.byteAt b)

/-- A step whose event is a host access makes that access: the value read lands in `hostData` (log 10), a refusal is the
step's, and a bus error, which the spec leaves out for the host, stops the model (log 11). -/
def Obligations.HostAccess : Prop :=
  ∀ (s : State) (addr v : Word) (size : AccessSize),
    (s.nextEvent = .hostRead addr size →
      (∀ x t, s.consume.busRead .host addr size = .ok x t → step s = .next { t with hostData := x }) ∧
      (s.consume.busRead .host addr size = .error → step s = .fault (.hostBusError addr)) ∧
      ∀ r, s.consume.busRead .host addr size = .refuse r → step s = .refused r) ∧
    (s.nextEvent = .hostWrite addr size v →
      (∀ t, s.consume.busWrite .host addr size v = .ok t → step s = .next t) ∧
      (s.consume.busWrite .host addr size v = .error → step s = .fault (.hostBusError addr)) ∧
      ∀ r, s.consume.busWrite .host addr size v = .refuse r → step s = .refused r)

/-! The transfer engine (45_transfer_engine.md). -/

/-- The registers of a channel: what each reads, the bits of CTRL_TRIG at which its fields stand, what a write of the
first three stores, and the refusal of every write while the channel is busy. The engine has at most 17 channels, so that
CHAN_ABORT has an offset of its own (log 16). -/
def Obligations.ChannelRegisters : Prop :=
  ∀ (s : State) (a : Agent) (c : Nat) (ch : Channel) (v : Word), WindowsApart s.params → s.channels.length ≤ 17 →
    s.channels[c]? = some ch →
    let at_ := fun o => s.xferAddr (0x40 * c + o)
    s.busRead a (at_ 0x00) .word = .ok ch.readAddr s ∧ s.busRead a (at_ 0x04) .word = .ok ch.writeAddr s ∧
    s.busRead a (at_ 0x08) .word = .ok (ch.countMode ++ ch.countRemaining) s ∧
    (∃ x, s.busRead a (at_ 0x0C) .word = .ok x s ∧ x.extractLsb' 0 24 = ch.ctrl ∧ x.getLsbD 24 = ch.busy ∧
      x.extractLsb' 25 4 = 0 ∧ x.getLsbD 29 = ch.writeError ∧ x.getLsbD 30 = ch.readError ∧
      x.getLsbD 31 = (ch.readError || ch.writeError)) ∧
    (ch.sniffEn = ch.ctrl.getLsbD 23 ∧ ch.bswap = ch.ctrl.getLsbD 22 ∧ ch.treqSel = ch.ctrl.toNat / 2 ^ 15 % 2 ^ 6 ∧
      ch.chainTo = ch.ctrl.toNat / 2 ^ 11 % 2 ^ 4 ∧ ch.ringSize = ch.ctrl.toNat / 2 ^ 6 % 2 ^ 4 ∧
      ch.incrWrite = ch.ctrl.getLsbD 5 ∧ ch.incrRead = ch.ctrl.getLsbD 4 ∧
      let size := ch.ctrl.toNat / 2 ^ 2 % 2 ^ 2
      (ch.dataSize = some .byte ↔ size = 0) ∧ (ch.dataSize = some .half ↔ size = 1) ∧
      (ch.dataSize = some .word ↔ size = 2) ∧ (ch.dataSize = none ↔ size = 3)) ∧
    (ch.busy = true → ∀ o ∈ [0x00, 0x04, 0x08, 0x0C],
      s.busWrite a (at_ o) .word v = .refuse (.busyChannelWrite a)) ∧
    (ch.busy = false →
      s.busWrite a (at_ 0x00) .word v = .ok (s.setChan c { ch with readAddr := v }) ∧
      s.busWrite a (at_ 0x04) .word v = .ok (s.setChan c { ch with writeAddr := v }) ∧
      s.busWrite a (at_ 0x08) .word v = .ok (s.setChan c { ch with countReload := v }))

/-- A write of CTRL_TRIG of an idle channel: it stores the fields and clears the error bits written 1, then with EN = 1
checks the configuration and starts a sequence. At most 17 channels (log 16). -/
def Obligations.Trigger : Prop :=
  ∀ (s : State) (a : Agent) (c : Nat) (ch : Channel) (v : Word), WindowsApart s.params → s.channels.length ≤ 17 →
    s.channels[c]? = some ch → ch.busy = false →
    let write := s.busWrite a (s.xferAddr (0x40 * c + 0x0C)) .word v
    let stored :=
      { ch with
        ctrl := v.extractLsb' 0 24, readError := ch.readError && !v.getLsbD 30,
        writeError := ch.writeError && !v.getLsbD 29 }
    let mode := field ch.countReload 28 4
    let admitted := field v 2 2 ≠ 3 ∧ field v 6 4 = 0 ∧ field v 11 4 = c ∧ v.getLsbD 23 = false ∧ (mode = 0 ∨ mode = 15)
    (v.getLsbD 0 = false → write = .ok (s.setChan c stored)) ∧
    (v.getLsbD 0 = true → ¬admitted → write = .refuse (.channelConfigNotAdmitted a)) ∧
    (v.getLsbD 0 = true → admitted →
      write = .ok (s.setChan c
        { stored with
          countMode := ch.countReload.extractLsb' 28 4, countRemaining := ch.countReload.extractLsb' 0 28,
          phase := .idle, abortPending := false, busy := !decide (mode = 0 ∧ field ch.countReload 0 28 = 0) }))

/-- The level of each request line. A block index of 7 would put a line of the block at 0x3F (log 20). -/
def Obligations.RequestLines : Prop :=
  ∀ s : State,
    (∀ k : SmId,
      s.dreq (8 * s.params.seqIndex + k.val) = !decide ((s.sm k).tx.length = (s.sm k).txCap) ∧
      s.dreq (8 * s.params.seqIndex + 4 + k.val) = !decide ((s.sm k).rx.length = 0)) ∧
    (s.params.seqIndex ≠ 7 → s.dreq 0x3F = true) ∧
    ∀ t, t ≠ 0x3F → (t < 8 * s.params.seqIndex ∨ 8 * s.params.seqIndex + 8 ≤ t) → s.dreq t = s.env.dreq.getLsbD t

/-- The read phase of a channel: enabled by its request line, it reads, advances the read address, and holds the word; a
refused access ends the step in its refusal. With the line at 0 there is no enabled step: that the step chosen for the
channel is then a stutter is the model's choice (DESIGN CHOICE, log 2). -/
def Obligations.ChannelReadPhase : Prop :=
  ∀ (s : State) (c : Nat) (ch : Channel) (size : AccessSize), s.nextEvent = .channel c → s.channels[c]? = some ch →
    ch.busy = true → ch.phase = .idle → ch.abortPending = false → ch.dataSize = some size →
    (s.dreq ch.treqSel = false → step s = .next s.consume) ∧
    (s.dreq ch.treqSel = true → ∀ v t, s.consume.busRead (.channel c) ch.readAddr size = .ok v t →
      step s = .next (t.updChan c fun ch' =>
        { ch' with
          readAddr := if ch.incrRead then ch.readAddr + BitVec.ofNat 32 size.bytes else ch.readAddr,
          phase := .hold v })) ∧
    (s.dreq ch.treqSel = true → ∀ r, s.consume.busRead (.channel c) ch.readAddr size = .refuse r →
      step s = .refused r)

/-- The write phase of a channel, which needs no request: it writes the held word, advances the write address, and counts
down, or goes on for ever in the endless mode; a refused access ends the step in its refusal. -/
def Obligations.ChannelWritePhase : Prop :=
  ∀ (s : State) (c : Nat) (ch : Channel) (size : AccessSize) (v : Word), s.nextEvent = .channel c →
    s.channels[c]? = some ch → ch.busy = true → ch.phase = .hold v → ch.dataSize = some size →
    let write := s.consume.busWrite (.channel c) ch.writeAddr size (if ch.bswap then byteSwap size v else v)
    (ch.abortPending = false → ∀ t, write = .ok t →
      step s = .next (t.updChan c fun ch' =>
        let moved :=
          { ch' with
            writeAddr := if ch'.incrWrite then ch'.writeAddr + BitVec.ofNat 32 size.bytes else ch'.writeAddr,
            phase := .idle }
        if ch'.countMode = 0x0#4 then
          { moved with
            countRemaining := ch'.countRemaining - 1,
            busy := if ch'.countRemaining - 1 = 0 then false else ch'.busy }
        else moved)) ∧
    ∀ r, write = .refuse r → step s = .refused r

/-- The byte swap of a word, a halfword and a byte. -/
def Obligations.ByteSwapBytes : Prop :=
  ∀ v : Word,
    byteSwap .word v =
      ((v &&& 0xFF#32) <<< 24) ||| (((v >>> 8) &&& 0xFF#32) <<< 16) ||| (((v >>> 16) &&& 0xFF#32) <<< 8) |||
        ((v >>> 24) &&& 0xFF#32) ∧
    byteSwap .half v = ((v &&& 0xFF#32) <<< 8) ||| ((v >>> 8) &&& 0xFF#32) ∧ byteSwap .byte v = v

/-- An abort: nothing on an idle channel, a stop at once between transfers, and with a word held a last write that ends
the sequence without a count; CHAN_ABORT reads the aborts pending. That CHAN_ABORT is at 0x444 whatever the number of
channels is the model's choice (DESIGN CHOICE, log 16), and that the last write still advances the write address is its
reading of 45_transfer_engine.md R152 (DEDUCED, log 17). -/
def Obligations.AbortRequest : Prop :=
  (∀ (s : State) (a : Agent), WindowsApart s.params →
    ∃ x, s.busRead a (s.xferAddr 0x444) .word = .ok x s ∧
      ∀ c < 32, x.getLsbD c = true ↔ ∃ ch, s.channels[c]? = some ch ∧ ch.abortPending = true) ∧
  (∀ (s : State) (a : Agent) (v : Word), WindowsApart s.params →
    ∃ t, s.busWrite a (s.xferAddr 0x444) .word v = .ok t ∧ t = { s with channels := t.channels } ∧
      ∀ c : Nat, t.channels[c]? = (s.channels[c]?).map fun ch =>
        if v.getLsbD c = true ∧ ch.busy = true then
          match ch.phase with
          | .idle => { ch with busy := false }
          | .hold _ => { ch with abortPending := true }
        else ch) ∧
  ∀ (s t : State) (c : Nat) (ch : Channel) (size : AccessSize) (v : Word), s.nextEvent = .channel c →
    s.channels[c]? = some ch → ch.busy = true → ch.phase = .hold v → ch.abortPending = true →
    ch.dataSize = some size →
    s.consume.busWrite (.channel c) ch.writeAddr size (if ch.bswap then byteSwap size v else v) = .ok t →
    step s = .next (t.updChan c fun ch' =>
      { ch' with
        writeAddr := if ch'.incrWrite then ch'.writeAddr + BitVec.ofNat 32 size.bytes else ch'.writeAddr,
        phase := .idle, busy := false, abortPending := false })

/-- A bus error in either phase halts the channel with its error bit set and its addresses and counts kept. -/
def Obligations.BusErrors : Prop :=
  ∀ (s : State) (c : Nat) (ch : Channel) (size : AccessSize), s.nextEvent = .channel c → s.channels[c]? = some ch →
    ch.busy = true → ch.dataSize = some size →
    (ch.phase = .idle → ch.abortPending = false → s.dreq ch.treqSel = true →
      s.consume.busRead (.channel c) ch.readAddr size = .error →
      step s = .next (s.consume.setChan c
        { ch with readError := true, phase := .idle, busy := false, abortPending := false })) ∧
    ∀ v, ch.phase = .hold v →
      s.consume.busWrite (.channel c) ch.writeAddr size (if ch.bswap then byteSwap size v else v) = .error →
      step s = .next (s.consume.setChan c
        { ch with writeError := true, phase := .idle, busy := false, abortPending := false })

/-- The source's channel: its read phase takes the head of the RX FIFO of state machine 0, and its write phase puts the
held word at the tail of the TX FIFO, or drops it with TXOVER where that FIFO is full. With RX0 empty it has no enabled
step: that the step chosen for it is then a stutter is the model's choice (DESIGN CHOICE, log 2). -/
def Obligations.Loopback : Prop :=
  ∀ (s : State) (c : Nat) (ch : Channel), WindowsApart s.params → s.nextEvent = .channel c →
    s.channels[c]? = some ch → ch.busy = true → ch.abortPending = false → ch.countMode = 0xF#4 →
    ch.readAddr = s.seqAddr (.rxf 0) → ch.writeAddr = s.seqAddr (.txf 0) → ch.dataSize = some .word →
    ch.incrRead = false → ch.incrWrite = false → ch.bswap = false → ch.treqSel = 8 * s.params.seqIndex + 4 →
    (∀ w rest, ch.phase = .idle → (s.sm 0).rx = w :: rest →
      step s = .next ((s.consume.setSm 0 { s.sm 0 with rx := rest }).setChan c { ch with phase := .hold w })) ∧
    (ch.phase = .idle → (s.sm 0).rx = [] → step s = .next s.consume) ∧
    ∀ w, ch.phase = .hold w →
      ((s.sm 0).tx.length ≠ (s.sm 0).txCap →
        step s = .next ((s.consume.setSm 0 { s.sm 0 with tx := (s.sm 0).tx ++ [w] }).setChan c
          { ch with phase := .idle })) ∧
      ((s.sm 0).tx.length = (s.sm 0).txCap →
        ∃ t : State, step s = .next (t.setChan c { ch with phase := .idle }) ∧ t = { s.consume with txOver := t.txOver } ∧
          Raised s.txOver t.txOver 0)

/-! Reset and the invariant (70_reset_and_hazards.md, 10_state.md). -/

/-- Reset: every piece of state, and what the registers then read, whatever the parameters and the inputs. X, Y and the
OSR hold 0, which 92_eei_decisions.md D7 allows, or are unwritten, as 10_state.md R16 and R18 say, by the model's parameter
`unwrittenAtReset` (DESIGN CHOICE, log 4). IRQ_FORCE has no state of its own and its bits 7:0 read as a draw (log 30). -/
def Obligations.ResetState : Prop :=
  ∀ (p : Params) (numCh : Nat) (env : Env),
    let s := State.resetWith p numCh env
    (∀ k : SmId,
      let m := s.sm k
      m.pc = 0 ∧ m.isr = 0 ∧ m.isrCount = 0 ∧ m.osrCount = 32 ∧
      (p.unwrittenAtReset = false → Holds m.x 0 ∧ Holds m.y 0 ∧ Holds m.osr 0) ∧
      (p.unwrittenAtReset = true → m.x.written = false ∧ m.y.written = false ∧ m.osr.written = false) ∧ m.tx = [] ∧ m.rx = [] ∧ m.txCap = 4 ∧ m.rxCap = 4 ∧ m.delayCount = 0 ∧ m.pending = none ∧
      m.irqWaiting = false ∧ m.edgePrev = none ∧ m.faultRec = none ∧ s.seqValue (.smClkdiv k) = 0x00010000#32 ∧
      s.seqValue (.smExecctrl k) = 0x0001F000#32 ∧ s.seqValue (.smShiftctrl k) = 0x000C0000#32 ∧
      s.seqValue (.smPinctrl k) = 0x14000000#32 ∧ s.seqValue (.smAddr k) = 0) ∧
    (∀ i : Fin 32, (s.imem.get i).written = false) ∧
    s.irq = 0 ∧ s.padOut = 0 ∧ s.padOe = 0 ∧ s.rxStall = 0 ∧ s.rxUnder = 0 ∧ s.txOver = 0 ∧ s.txStall = 0 ∧
    s.inte0 = 0 ∧ s.intf0 = 0 ∧ s.inte1 = 0 ∧ s.intf1 = 0 ∧ s.smEnable = 0 ∧ s.inputSyncBypass = 0 ∧
    s.seqValue .ctrl = 0 ∧ s.seqValue .fstat = 0x0F000F00#32 ∧ s.seqValue .fdebug = 0 ∧ s.seqValue .flevel = 0 ∧
    s.seqValue .irq = 0 ∧ s.seqValue .dbgPadout = 0 ∧ s.seqValue .dbgPadoe = 0 ∧
    s.seqValue .dbgCfginfo = 0x00200404#32 ∧ s.seqValue .intr = 0x000000F0#32 ∧ s.seqValue .irq0Ints = 0 ∧
    s.seqValue .irq1Ints = 0 ∧ s.channels.length = numCh ∧
    (∀ (c : Nat) (ch : Channel), s.channels[c]? = some ch →
      ch.readAddr = 0 ∧ ch.writeAddr = 0 ∧ ch.countReload = 0 ∧ ch.countRemaining = 0 ∧ ch.countMode = 0 ∧
      ch.busy = false ∧ ch.phase = .idle ∧ ch.abortPending = false ∧ ch.ctrlValue = 0) ∧
    s.xferValue .chanAbort = 0 ∧ ∀ a, s.mem.byteAt a = none

/-- A block reset is one step that puts the block and the engine into their reset state; the parameters and the inputs,
and the model's own fields, are not block state and stay (log 24). -/
def Obligations.BlockResetStep : Prop :=
  ∀ s : State, s.nextEvent = .blockReset →
    step s = .next
      { State.resetWith s.params s.channels.length s.env with
        hostData := s.hostData, active := s.active, now := s.now + 1, agenda := s.agenda.tail }

/-- Every step keeps the invariant: counts, delays and FIFO levels in their ranges, reserved register bits 0, busy
channels admitted, and the memory in its canonical form. -/
def Obligations.StepKeepsInvariant : Prop := ∀ s t : State, s.Inv → step s = .next t → t.Inv

/-- The invariant holds right after reset. -/
def Obligations.ResetInvariant : Prop := State.reset.Inv
end

