-- ==== Sys2Proof/Laws/Bits.lean ====
section
/-! SUPPORT. The bits of the vectors the bit-field helpers build. -/

namespace Sys2Proof.Machine

open Sys2Proof

theorem getLsbD_ofBits (n : Nat) (f : Nat → Bool) (i : Nat) : (ofBits n f).getLsbD i = (decide (i < n) && f i) := by
  induction n with
  | zero => simp [ofBits]
  | succ n ih =>
    rw [ofBits, BitVec.getLsbD_cons, ih]
    by_cases h : i = n
    · simp [h]
    · have : (i < n + 1) ↔ (i < n) := by omega
      simp [h, this]

@[simp] theorem getLsbD_wordOfBits (f : Nat → Bool) (i : Nat) :
    (wordOfBits f).getLsbD i = (decide (i < 32) && f i) := getLsbD_ofBits 32 f i

/-- A pin of the range takes its bit of the value, every other pin keeps its level (40_sequencer_cycle.md R117). -/
theorem getLsbD_writePinRange (pad : Word) (base : Five) (count : Nat) (value : Word) {p : Nat} (hp : p < 32) :
    (writePinRange pad base count value).getLsbD p =
      if (p + 32 - base.toNat) % 32 < count then value.getLsbD ((p + 32 - base.toNat) % 32) else pad.getLsbD p := by
  rw [writePinRange, getLsbD_wordOfBits, decide_eq_true hp, Bool.true_and]

theorem getLsbD_rotatePins (cur : Word) (base : Five) {i : Nat} (hi : i < 32) :
    (rotatePins cur base).getLsbD i = cur.getLsbD ((base.toNat + i) % 32) := by
  rw [rotatePins, getLsbD_wordOfBits, decide_eq_true hi, Bool.true_and, pinAdd]

theorem getLsbD_rev32 (v : Word) {i : Nat} (hi : i < 32) : (rev32 v).getLsbD i = v.getLsbD (31 - i) := by
  rw [rev32, getLsbD_wordOfBits, decide_eq_true hi, Bool.true_and]

theorem getLsbD_pinSample (s : State) {p : Nat} (hp : p < 32) : s.pinSample.getLsbD p = s.pinAt p := by
  rw [State.pinSample, getLsbD_wordOfBits, decide_eq_true hp, Bool.true_and]

theorem getLsbD_setBit {w : Nat} (v : BitVec w) (i j : Nat) :
    (setBit v i).getLsbD j = (v.getLsbD j || (decide (j < w) && decide (i = j))) := by
  simp [setBit, BitVec.getLsbD_twoPow]
  by_cases h : i = j <;> simp_all

theorem getLsbD_clearBit {w : Nat} (v : BitVec w) (i j : Nat) :
    (clearBit v i).getLsbD j = (v.getLsbD j && !decide (i = j)) := by
  by_cases hj : j < w
  · by_cases h : i = j
    · subst h; simp [clearBit, hj]
    · simp [clearBit, hj, h, Ne.symm h]
  · simp [clearBit, BitVec.getLsbD_of_ge v j (by omega)]

theorem getLsbD_maskBits (n i : Nat) : (maskBits n).getLsbD i = (decide (i < 32) && decide (i < n)) := by
  simp [maskBits, BitVec.getLsbD_ofNat, Nat.testBit_two_pow_sub_one]

end Sys2Proof.Machine
end

