-- ==== Sys2Proof/Laws/Encoding.lean ====
section
/-! SUPPORT. The fields of a packed word (spec/30_encoding.md R86). -/

namespace Sys2Proof

@[simp] theorem packWord_op (op : BitVec 3) (ds : Five) (hi : BitVec 3) (lo : Five) :
    (packWord op ds hi lo).extractLsb' 13 3 = op := by
  apply BitVec.eq_of_getLsbD_eq
  intro i hi'
  interval_cases i <;> simp only [packWord, BitVec.getLsbD_extractLsb', BitVec.getLsbD_append] <;> simp

@[simp] theorem packWord_ds (op : BitVec 3) (ds : Five) (hi : BitVec 3) (lo : Five) :
    (packWord op ds hi lo).extractLsb' 8 5 = ds := by
  apply BitVec.eq_of_getLsbD_eq
  intro i hi'
  interval_cases i <;> simp only [packWord, BitVec.getLsbD_extractLsb', BitVec.getLsbD_append] <;> simp

@[simp] theorem packWord_hi (op : BitVec 3) (ds : Five) (hi : BitVec 3) (lo : Five) :
    (packWord op ds hi lo).extractLsb' 5 3 = hi := by
  apply BitVec.eq_of_getLsbD_eq
  intro i hi'
  interval_cases i <;> simp only [packWord, BitVec.getLsbD_extractLsb', BitVec.getLsbD_append] <;> simp

@[simp] theorem packWord_lo (op : BitVec 3) (ds : Five) (hi : BitVec 3) (lo : Five) :
    (packWord op ds hi lo).extractLsb' 0 5 = lo := by
  apply BitVec.eq_of_getLsbD_eq
  intro i hi'
  interval_cases i <;> simp only [packWord, BitVec.getLsbD_extractLsb', BitVec.getLsbD_append] <;> simp

/-- A word is the packing of its own fields. -/
theorem packWord_fields (w : InstrWord) :
    packWord (w.extractLsb' 13 3) (w.extractLsb' 8 5) (w.extractLsb' 5 3) (w.extractLsb' 0 5) = w := by
  apply BitVec.eq_of_getLsbD_eq
  intro i hi'
  interval_cases i <;> simp only [packWord, BitVec.getLsbD_extractLsb', BitVec.getLsbD_append] <;> simp

/-- Decoding a packed word decodes its fields. -/
theorem decode_packWord (op : BitVec 3) (ds : Five) (hi : BitVec 3) (lo : Five) :
    decode (packWord op ds hi lo) = decodeFields op ds hi lo := by
  simp [decode]

end Sys2Proof
end

