-- ==== Sys2Proof/Laws/State.lean ====
section
/-! SUPPORT. The small lemmas of the state's accessors and updates: one per field per update, and how reading a state
machine goes through each update. -/

namespace Sys2Proof.Machine

open Sys2Proof

@[simp] theorem State.sm_setSm_same (s : State) (k : SmId) (m : Sm) : (s.setSm k m).sm k = m := by
  show (s.sms.set k.val m k.isLt)[k.val] = m
  simp

theorem State.sm_setSm_ne (s : State) {j k : SmId} (m : Sm) (h : j ≠ k) : (s.setSm k m).sm j = s.sm j := by
  have h' : k.val ≠ j.val := fun e => h (Fin.ext e.symm)
  show (s.sms.set k.val m k.isLt)[j.val] = s.sms[j.val]
  simp [h']

theorem State.sm_setSm (s : State) (j k : SmId) (m : Sm) : (s.setSm k m).sm j = if j = k then m else s.sm j := by
  by_cases h : j = k
  · subst h; simp
  · simp [h, State.sm_setSm_ne]

@[simp] theorem State.me_setMe (s : State) (m : Sm) : (s.setMe m).me = m :=
  State.sm_setSm_same s s.active m

theorem State.sm_setMe_ne (s : State) {j : SmId} (m : Sm) (h : j ≠ s.active) : (s.setMe m).sm j = s.sm j :=
  State.sm_setSm_ne s m h

theorem State.sm_setMe (s : State) (j : SmId) (m : Sm) : (s.setMe m).sm j = if j = s.active then m else s.sm j :=
  State.sm_setSm s j s.active m

@[simp] theorem State.me_activate (s : State) (k : SmId) : (s.activate k).me = s.sm k := rfl

@[simp] theorem State.setSm_params (s : State) (k : SmId) (m : Sm) : (s.setSm k m).params = s.params := rfl
@[simp] theorem State.setSm_imem (s : State) (k : SmId) (m : Sm) : (s.setSm k m).imem = s.imem := rfl
@[simp] theorem State.setSm_irq (s : State) (k : SmId) (m : Sm) : (s.setSm k m).irq = s.irq := rfl
@[simp] theorem State.setSm_padOut (s : State) (k : SmId) (m : Sm) : (s.setSm k m).padOut = s.padOut := rfl
@[simp] theorem State.setSm_padOe (s : State) (k : SmId) (m : Sm) : (s.setSm k m).padOe = s.padOe := rfl
@[simp] theorem State.setSm_rxStall (s : State) (k : SmId) (m : Sm) : (s.setSm k m).rxStall = s.rxStall := rfl
@[simp] theorem State.setSm_rxUnder (s : State) (k : SmId) (m : Sm) : (s.setSm k m).rxUnder = s.rxUnder := rfl
@[simp] theorem State.setSm_txOver (s : State) (k : SmId) (m : Sm) : (s.setSm k m).txOver = s.txOver := rfl
@[simp] theorem State.setSm_txStall (s : State) (k : SmId) (m : Sm) : (s.setSm k m).txStall = s.txStall := rfl
@[simp] theorem State.setSm_inte0 (s : State) (k : SmId) (m : Sm) : (s.setSm k m).inte0 = s.inte0 := rfl
@[simp] theorem State.setSm_intf0 (s : State) (k : SmId) (m : Sm) : (s.setSm k m).intf0 = s.intf0 := rfl
@[simp] theorem State.setSm_inte1 (s : State) (k : SmId) (m : Sm) : (s.setSm k m).inte1 = s.inte1 := rfl
@[simp] theorem State.setSm_intf1 (s : State) (k : SmId) (m : Sm) : (s.setSm k m).intf1 = s.intf1 := rfl
@[simp] theorem State.setSm_smEnable (s : State) (k : SmId) (m : Sm) : (s.setSm k m).smEnable = s.smEnable := rfl
@[simp] theorem State.setSm_inputSyncBypass (s : State) (k : SmId) (m : Sm) : (s.setSm k m).inputSyncBypass = s.inputSyncBypass := rfl
@[simp] theorem State.setSm_channels (s : State) (k : SmId) (m : Sm) : (s.setSm k m).channels = s.channels := rfl
@[simp] theorem State.setSm_mem (s : State) (k : SmId) (m : Sm) : (s.setSm k m).mem = s.mem := rfl
@[simp] theorem State.setSm_env (s : State) (k : SmId) (m : Sm) : (s.setSm k m).env = s.env := rfl
@[simp] theorem State.setSm_hostData (s : State) (k : SmId) (m : Sm) : (s.setSm k m).hostData = s.hostData := rfl
@[simp] theorem State.setSm_active (s : State) (k : SmId) (m : Sm) : (s.setSm k m).active = s.active := rfl
@[simp] theorem State.setSm_now (s : State) (k : SmId) (m : Sm) : (s.setSm k m).now = s.now := rfl
@[simp] theorem State.setSm_agenda (s : State) (k : SmId) (m : Sm) : (s.setSm k m).agenda = s.agenda := rfl

@[simp] theorem State.setMe_params (s : State) (m : Sm) : (s.setMe m).params = s.params := rfl
@[simp] theorem State.setMe_imem (s : State) (m : Sm) : (s.setMe m).imem = s.imem := rfl
@[simp] theorem State.setMe_irq (s : State) (m : Sm) : (s.setMe m).irq = s.irq := rfl
@[simp] theorem State.setMe_padOut (s : State) (m : Sm) : (s.setMe m).padOut = s.padOut := rfl
@[simp] theorem State.setMe_padOe (s : State) (m : Sm) : (s.setMe m).padOe = s.padOe := rfl
@[simp] theorem State.setMe_rxStall (s : State) (m : Sm) : (s.setMe m).rxStall = s.rxStall := rfl
@[simp] theorem State.setMe_rxUnder (s : State) (m : Sm) : (s.setMe m).rxUnder = s.rxUnder := rfl
@[simp] theorem State.setMe_txOver (s : State) (m : Sm) : (s.setMe m).txOver = s.txOver := rfl
@[simp] theorem State.setMe_txStall (s : State) (m : Sm) : (s.setMe m).txStall = s.txStall := rfl
@[simp] theorem State.setMe_inte0 (s : State) (m : Sm) : (s.setMe m).inte0 = s.inte0 := rfl
@[simp] theorem State.setMe_intf0 (s : State) (m : Sm) : (s.setMe m).intf0 = s.intf0 := rfl
@[simp] theorem State.setMe_inte1 (s : State) (m : Sm) : (s.setMe m).inte1 = s.inte1 := rfl
@[simp] theorem State.setMe_intf1 (s : State) (m : Sm) : (s.setMe m).intf1 = s.intf1 := rfl
@[simp] theorem State.setMe_smEnable (s : State) (m : Sm) : (s.setMe m).smEnable = s.smEnable := rfl
@[simp] theorem State.setMe_inputSyncBypass (s : State) (m : Sm) : (s.setMe m).inputSyncBypass = s.inputSyncBypass := rfl
@[simp] theorem State.setMe_channels (s : State) (m : Sm) : (s.setMe m).channels = s.channels := rfl
@[simp] theorem State.setMe_mem (s : State) (m : Sm) : (s.setMe m).mem = s.mem := rfl
@[simp] theorem State.setMe_env (s : State) (m : Sm) : (s.setMe m).env = s.env := rfl
@[simp] theorem State.setMe_hostData (s : State) (m : Sm) : (s.setMe m).hostData = s.hostData := rfl
@[simp] theorem State.setMe_active (s : State) (m : Sm) : (s.setMe m).active = s.active := rfl
@[simp] theorem State.setMe_now (s : State) (m : Sm) : (s.setMe m).now = s.now := rfl
@[simp] theorem State.setMe_agenda (s : State) (m : Sm) : (s.setMe m).agenda = s.agenda := rfl

@[simp] theorem State.setIrq_params (s : State) (f : BitVec 3) : (s.setIrq f).params = s.params := rfl
@[simp] theorem State.setIrq_sms (s : State) (f : BitVec 3) : (s.setIrq f).sms = s.sms := rfl
@[simp] theorem State.setIrq_imem (s : State) (f : BitVec 3) : (s.setIrq f).imem = s.imem := rfl
@[simp] theorem State.setIrq_irq (s : State) (f : BitVec 3) :
    (s.setIrq f).irq = setBit s.irq f.toNat := rfl
@[simp] theorem State.setIrq_padOut (s : State) (f : BitVec 3) : (s.setIrq f).padOut = s.padOut := rfl
@[simp] theorem State.setIrq_padOe (s : State) (f : BitVec 3) : (s.setIrq f).padOe = s.padOe := rfl
@[simp] theorem State.setIrq_rxStall (s : State) (f : BitVec 3) : (s.setIrq f).rxStall = s.rxStall := rfl
@[simp] theorem State.setIrq_rxUnder (s : State) (f : BitVec 3) : (s.setIrq f).rxUnder = s.rxUnder := rfl
@[simp] theorem State.setIrq_txOver (s : State) (f : BitVec 3) : (s.setIrq f).txOver = s.txOver := rfl
@[simp] theorem State.setIrq_txStall (s : State) (f : BitVec 3) : (s.setIrq f).txStall = s.txStall := rfl
@[simp] theorem State.setIrq_inte0 (s : State) (f : BitVec 3) : (s.setIrq f).inte0 = s.inte0 := rfl
@[simp] theorem State.setIrq_intf0 (s : State) (f : BitVec 3) : (s.setIrq f).intf0 = s.intf0 := rfl
@[simp] theorem State.setIrq_inte1 (s : State) (f : BitVec 3) : (s.setIrq f).inte1 = s.inte1 := rfl
@[simp] theorem State.setIrq_intf1 (s : State) (f : BitVec 3) : (s.setIrq f).intf1 = s.intf1 := rfl
@[simp] theorem State.setIrq_smEnable (s : State) (f : BitVec 3) : (s.setIrq f).smEnable = s.smEnable := rfl
@[simp] theorem State.setIrq_inputSyncBypass (s : State) (f : BitVec 3) : (s.setIrq f).inputSyncBypass = s.inputSyncBypass := rfl
@[simp] theorem State.setIrq_channels (s : State) (f : BitVec 3) : (s.setIrq f).channels = s.channels := rfl
@[simp] theorem State.setIrq_mem (s : State) (f : BitVec 3) : (s.setIrq f).mem = s.mem := rfl
@[simp] theorem State.setIrq_env (s : State) (f : BitVec 3) : (s.setIrq f).env = s.env := rfl
@[simp] theorem State.setIrq_hostData (s : State) (f : BitVec 3) : (s.setIrq f).hostData = s.hostData := rfl
@[simp] theorem State.setIrq_active (s : State) (f : BitVec 3) : (s.setIrq f).active = s.active := rfl
@[simp] theorem State.setIrq_now (s : State) (f : BitVec 3) : (s.setIrq f).now = s.now := rfl
@[simp] theorem State.setIrq_agenda (s : State) (f : BitVec 3) : (s.setIrq f).agenda = s.agenda := rfl
@[simp] theorem State.setIrq_sm (s : State) (f : BitVec 3) (j : SmId) : (s.setIrq f).sm j = s.sm j := rfl
@[simp] theorem State.setIrq_me (s : State) (f : BitVec 3) : (s.setIrq f).me = s.me := rfl

@[simp] theorem State.clearIrq_params (s : State) (f : BitVec 3) : (s.clearIrq f).params = s.params := rfl
@[simp] theorem State.clearIrq_sms (s : State) (f : BitVec 3) : (s.clearIrq f).sms = s.sms := rfl
@[simp] theorem State.clearIrq_imem (s : State) (f : BitVec 3) : (s.clearIrq f).imem = s.imem := rfl
@[simp] theorem State.clearIrq_irq (s : State) (f : BitVec 3) :
    (s.clearIrq f).irq = clearBit s.irq f.toNat := rfl
@[simp] theorem State.clearIrq_padOut (s : State) (f : BitVec 3) : (s.clearIrq f).padOut = s.padOut := rfl
@[simp] theorem State.clearIrq_padOe (s : State) (f : BitVec 3) : (s.clearIrq f).padOe = s.padOe := rfl
@[simp] theorem State.clearIrq_rxStall (s : State) (f : BitVec 3) : (s.clearIrq f).rxStall = s.rxStall := rfl
@[simp] theorem State.clearIrq_rxUnder (s : State) (f : BitVec 3) : (s.clearIrq f).rxUnder = s.rxUnder := rfl
@[simp] theorem State.clearIrq_txOver (s : State) (f : BitVec 3) : (s.clearIrq f).txOver = s.txOver := rfl
@[simp] theorem State.clearIrq_txStall (s : State) (f : BitVec 3) : (s.clearIrq f).txStall = s.txStall := rfl
@[simp] theorem State.clearIrq_inte0 (s : State) (f : BitVec 3) : (s.clearIrq f).inte0 = s.inte0 := rfl
@[simp] theorem State.clearIrq_intf0 (s : State) (f : BitVec 3) : (s.clearIrq f).intf0 = s.intf0 := rfl
@[simp] theorem State.clearIrq_inte1 (s : State) (f : BitVec 3) : (s.clearIrq f).inte1 = s.inte1 := rfl
@[simp] theorem State.clearIrq_intf1 (s : State) (f : BitVec 3) : (s.clearIrq f).intf1 = s.intf1 := rfl
@[simp] theorem State.clearIrq_smEnable (s : State) (f : BitVec 3) : (s.clearIrq f).smEnable = s.smEnable := rfl
@[simp] theorem State.clearIrq_inputSyncBypass (s : State) (f : BitVec 3) : (s.clearIrq f).inputSyncBypass = s.inputSyncBypass := rfl
@[simp] theorem State.clearIrq_channels (s : State) (f : BitVec 3) : (s.clearIrq f).channels = s.channels := rfl
@[simp] theorem State.clearIrq_mem (s : State) (f : BitVec 3) : (s.clearIrq f).mem = s.mem := rfl
@[simp] theorem State.clearIrq_env (s : State) (f : BitVec 3) : (s.clearIrq f).env = s.env := rfl
@[simp] theorem State.clearIrq_hostData (s : State) (f : BitVec 3) : (s.clearIrq f).hostData = s.hostData := rfl
@[simp] theorem State.clearIrq_active (s : State) (f : BitVec 3) : (s.clearIrq f).active = s.active := rfl
@[simp] theorem State.clearIrq_now (s : State) (f : BitVec 3) : (s.clearIrq f).now = s.now := rfl
@[simp] theorem State.clearIrq_agenda (s : State) (f : BitVec 3) : (s.clearIrq f).agenda = s.agenda := rfl
@[simp] theorem State.clearIrq_sm (s : State) (f : BitVec 3) (j : SmId) : (s.clearIrq f).sm j = s.sm j := rfl
@[simp] theorem State.clearIrq_me (s : State) (f : BitVec 3) : (s.clearIrq f).me = s.me := rfl

@[simp] theorem State.setRxStall_params (s : State) : (s.setRxStall).params = s.params := rfl
@[simp] theorem State.setRxStall_sms (s : State) : (s.setRxStall).sms = s.sms := rfl
@[simp] theorem State.setRxStall_imem (s : State) : (s.setRxStall).imem = s.imem := rfl
@[simp] theorem State.setRxStall_irq (s : State) : (s.setRxStall).irq = s.irq := rfl
@[simp] theorem State.setRxStall_padOut (s : State) : (s.setRxStall).padOut = s.padOut := rfl
@[simp] theorem State.setRxStall_padOe (s : State) : (s.setRxStall).padOe = s.padOe := rfl
@[simp] theorem State.setRxStall_rxStall (s : State) :
    (s.setRxStall).rxStall = setBit s.rxStall s.active.val := rfl
@[simp] theorem State.setRxStall_rxUnder (s : State) : (s.setRxStall).rxUnder = s.rxUnder := rfl
@[simp] theorem State.setRxStall_txOver (s : State) : (s.setRxStall).txOver = s.txOver := rfl
@[simp] theorem State.setRxStall_txStall (s : State) : (s.setRxStall).txStall = s.txStall := rfl
@[simp] theorem State.setRxStall_inte0 (s : State) : (s.setRxStall).inte0 = s.inte0 := rfl
@[simp] theorem State.setRxStall_intf0 (s : State) : (s.setRxStall).intf0 = s.intf0 := rfl
@[simp] theorem State.setRxStall_inte1 (s : State) : (s.setRxStall).inte1 = s.inte1 := rfl
@[simp] theorem State.setRxStall_intf1 (s : State) : (s.setRxStall).intf1 = s.intf1 := rfl
@[simp] theorem State.setRxStall_smEnable (s : State) : (s.setRxStall).smEnable = s.smEnable := rfl
@[simp] theorem State.setRxStall_inputSyncBypass (s : State) : (s.setRxStall).inputSyncBypass = s.inputSyncBypass := rfl
@[simp] theorem State.setRxStall_channels (s : State) : (s.setRxStall).channels = s.channels := rfl
@[simp] theorem State.setRxStall_mem (s : State) : (s.setRxStall).mem = s.mem := rfl
@[simp] theorem State.setRxStall_env (s : State) : (s.setRxStall).env = s.env := rfl
@[simp] theorem State.setRxStall_hostData (s : State) : (s.setRxStall).hostData = s.hostData := rfl
@[simp] theorem State.setRxStall_active (s : State) : (s.setRxStall).active = s.active := rfl
@[simp] theorem State.setRxStall_now (s : State) : (s.setRxStall).now = s.now := rfl
@[simp] theorem State.setRxStall_agenda (s : State) : (s.setRxStall).agenda = s.agenda := rfl
@[simp] theorem State.setRxStall_sm (s : State) (j : SmId) : (s.setRxStall).sm j = s.sm j := rfl
@[simp] theorem State.setRxStall_me (s : State) : (s.setRxStall).me = s.me := rfl

@[simp] theorem State.setTxStall_params (s : State) : (s.setTxStall).params = s.params := rfl
@[simp] theorem State.setTxStall_sms (s : State) : (s.setTxStall).sms = s.sms := rfl
@[simp] theorem State.setTxStall_imem (s : State) : (s.setTxStall).imem = s.imem := rfl
@[simp] theorem State.setTxStall_irq (s : State) : (s.setTxStall).irq = s.irq := rfl
@[simp] theorem State.setTxStall_padOut (s : State) : (s.setTxStall).padOut = s.padOut := rfl
@[simp] theorem State.setTxStall_padOe (s : State) : (s.setTxStall).padOe = s.padOe := rfl
@[simp] theorem State.setTxStall_rxStall (s : State) : (s.setTxStall).rxStall = s.rxStall := rfl
@[simp] theorem State.setTxStall_rxUnder (s : State) : (s.setTxStall).rxUnder = s.rxUnder := rfl
@[simp] theorem State.setTxStall_txOver (s : State) : (s.setTxStall).txOver = s.txOver := rfl
@[simp] theorem State.setTxStall_txStall (s : State) :
    (s.setTxStall).txStall = setBit s.txStall s.active.val := rfl
@[simp] theorem State.setTxStall_inte0 (s : State) : (s.setTxStall).inte0 = s.inte0 := rfl
@[simp] theorem State.setTxStall_intf0 (s : State) : (s.setTxStall).intf0 = s.intf0 := rfl
@[simp] theorem State.setTxStall_inte1 (s : State) : (s.setTxStall).inte1 = s.inte1 := rfl
@[simp] theorem State.setTxStall_intf1 (s : State) : (s.setTxStall).intf1 = s.intf1 := rfl
@[simp] theorem State.setTxStall_smEnable (s : State) : (s.setTxStall).smEnable = s.smEnable := rfl
@[simp] theorem State.setTxStall_inputSyncBypass (s : State) : (s.setTxStall).inputSyncBypass = s.inputSyncBypass := rfl
@[simp] theorem State.setTxStall_channels (s : State) : (s.setTxStall).channels = s.channels := rfl
@[simp] theorem State.setTxStall_mem (s : State) : (s.setTxStall).mem = s.mem := rfl
@[simp] theorem State.setTxStall_env (s : State) : (s.setTxStall).env = s.env := rfl
@[simp] theorem State.setTxStall_hostData (s : State) : (s.setTxStall).hostData = s.hostData := rfl
@[simp] theorem State.setTxStall_active (s : State) : (s.setTxStall).active = s.active := rfl
@[simp] theorem State.setTxStall_now (s : State) : (s.setTxStall).now = s.now := rfl
@[simp] theorem State.setTxStall_agenda (s : State) : (s.setTxStall).agenda = s.agenda := rfl
@[simp] theorem State.setTxStall_sm (s : State) (j : SmId) : (s.setTxStall).sm j = s.sm j := rfl
@[simp] theorem State.setTxStall_me (s : State) : (s.setTxStall).me = s.me := rfl

@[simp] theorem State.sideSet_params (s : State) (m : Sm) (ds : Five) : (s.sideSet m ds).params = s.params := rfl
@[simp] theorem State.sideSet_sms (s : State) (m : Sm) (ds : Five) : (s.sideSet m ds).sms = s.sms := rfl
@[simp] theorem State.sideSet_imem (s : State) (m : Sm) (ds : Five) : (s.sideSet m ds).imem = s.imem := rfl
@[simp] theorem State.sideSet_irq (s : State) (m : Sm) (ds : Five) : (s.sideSet m ds).irq = s.irq := rfl
@[simp] theorem State.sideSet_padOut (s : State) (m : Sm) (ds : Five) :
    (s.sideSet m ds).padOut = sideSetOut m ds s.padOut := rfl
@[simp] theorem State.sideSet_padOe (s : State) (m : Sm) (ds : Five) :
    (s.sideSet m ds).padOe = sideSetOe m ds s.padOe := rfl
@[simp] theorem State.sideSet_rxStall (s : State) (m : Sm) (ds : Five) : (s.sideSet m ds).rxStall = s.rxStall := rfl
@[simp] theorem State.sideSet_rxUnder (s : State) (m : Sm) (ds : Five) : (s.sideSet m ds).rxUnder = s.rxUnder := rfl
@[simp] theorem State.sideSet_txOver (s : State) (m : Sm) (ds : Five) : (s.sideSet m ds).txOver = s.txOver := rfl
@[simp] theorem State.sideSet_txStall (s : State) (m : Sm) (ds : Five) : (s.sideSet m ds).txStall = s.txStall := rfl
@[simp] theorem State.sideSet_inte0 (s : State) (m : Sm) (ds : Five) : (s.sideSet m ds).inte0 = s.inte0 := rfl
@[simp] theorem State.sideSet_intf0 (s : State) (m : Sm) (ds : Five) : (s.sideSet m ds).intf0 = s.intf0 := rfl
@[simp] theorem State.sideSet_inte1 (s : State) (m : Sm) (ds : Five) : (s.sideSet m ds).inte1 = s.inte1 := rfl
@[simp] theorem State.sideSet_intf1 (s : State) (m : Sm) (ds : Five) : (s.sideSet m ds).intf1 = s.intf1 := rfl
@[simp] theorem State.sideSet_smEnable (s : State) (m : Sm) (ds : Five) : (s.sideSet m ds).smEnable = s.smEnable := rfl
@[simp] theorem State.sideSet_inputSyncBypass (s : State) (m : Sm) (ds : Five) : (s.sideSet m ds).inputSyncBypass = s.inputSyncBypass := rfl
@[simp] theorem State.sideSet_channels (s : State) (m : Sm) (ds : Five) : (s.sideSet m ds).channels = s.channels := rfl
@[simp] theorem State.sideSet_mem (s : State) (m : Sm) (ds : Five) : (s.sideSet m ds).mem = s.mem := rfl
@[simp] theorem State.sideSet_env (s : State) (m : Sm) (ds : Five) : (s.sideSet m ds).env = s.env := rfl
@[simp] theorem State.sideSet_hostData (s : State) (m : Sm) (ds : Five) : (s.sideSet m ds).hostData = s.hostData := rfl
@[simp] theorem State.sideSet_active (s : State) (m : Sm) (ds : Five) : (s.sideSet m ds).active = s.active := rfl
@[simp] theorem State.sideSet_now (s : State) (m : Sm) (ds : Five) : (s.sideSet m ds).now = s.now := rfl
@[simp] theorem State.sideSet_agenda (s : State) (m : Sm) (ds : Five) : (s.sideSet m ds).agenda = s.agenda := rfl
@[simp] theorem State.sideSet_sm (s : State) (m : Sm) (ds : Five) (j : SmId) : (s.sideSet m ds).sm j = s.sm j := rfl
@[simp] theorem State.sideSet_me (s : State) (m : Sm) (ds : Five) : (s.sideSet m ds).me = s.me := rfl

@[simp] theorem State.outPinsWrite_params (s : State) (v : Word) : (s.outPinsWrite v).params = s.params := rfl
@[simp] theorem State.outPinsWrite_sms (s : State) (v : Word) : (s.outPinsWrite v).sms = s.sms := rfl
@[simp] theorem State.outPinsWrite_imem (s : State) (v : Word) : (s.outPinsWrite v).imem = s.imem := rfl
@[simp] theorem State.outPinsWrite_irq (s : State) (v : Word) : (s.outPinsWrite v).irq = s.irq := rfl
@[simp] theorem State.outPinsWrite_padOut (s : State) (v : Word) :
    (s.outPinsWrite v).padOut = writePinRange s.padOut s.me.outBase s.me.outCount v := rfl
@[simp] theorem State.outPinsWrite_padOe (s : State) (v : Word) : (s.outPinsWrite v).padOe = s.padOe := rfl
@[simp] theorem State.outPinsWrite_rxStall (s : State) (v : Word) : (s.outPinsWrite v).rxStall = s.rxStall := rfl
@[simp] theorem State.outPinsWrite_rxUnder (s : State) (v : Word) : (s.outPinsWrite v).rxUnder = s.rxUnder := rfl
@[simp] theorem State.outPinsWrite_txOver (s : State) (v : Word) : (s.outPinsWrite v).txOver = s.txOver := rfl
@[simp] theorem State.outPinsWrite_txStall (s : State) (v : Word) : (s.outPinsWrite v).txStall = s.txStall := rfl
@[simp] theorem State.outPinsWrite_inte0 (s : State) (v : Word) : (s.outPinsWrite v).inte0 = s.inte0 := rfl
@[simp] theorem State.outPinsWrite_intf0 (s : State) (v : Word) : (s.outPinsWrite v).intf0 = s.intf0 := rfl
@[simp] theorem State.outPinsWrite_inte1 (s : State) (v : Word) : (s.outPinsWrite v).inte1 = s.inte1 := rfl
@[simp] theorem State.outPinsWrite_intf1 (s : State) (v : Word) : (s.outPinsWrite v).intf1 = s.intf1 := rfl
@[simp] theorem State.outPinsWrite_smEnable (s : State) (v : Word) : (s.outPinsWrite v).smEnable = s.smEnable := rfl
@[simp] theorem State.outPinsWrite_inputSyncBypass (s : State) (v : Word) : (s.outPinsWrite v).inputSyncBypass = s.inputSyncBypass := rfl
@[simp] theorem State.outPinsWrite_channels (s : State) (v : Word) : (s.outPinsWrite v).channels = s.channels := rfl
@[simp] theorem State.outPinsWrite_mem (s : State) (v : Word) : (s.outPinsWrite v).mem = s.mem := rfl
@[simp] theorem State.outPinsWrite_env (s : State) (v : Word) : (s.outPinsWrite v).env = s.env := rfl
@[simp] theorem State.outPinsWrite_hostData (s : State) (v : Word) : (s.outPinsWrite v).hostData = s.hostData := rfl
@[simp] theorem State.outPinsWrite_active (s : State) (v : Word) : (s.outPinsWrite v).active = s.active := rfl
@[simp] theorem State.outPinsWrite_now (s : State) (v : Word) : (s.outPinsWrite v).now = s.now := rfl
@[simp] theorem State.outPinsWrite_agenda (s : State) (v : Word) : (s.outPinsWrite v).agenda = s.agenda := rfl
@[simp] theorem State.outPinsWrite_sm (s : State) (v : Word) (j : SmId) : (s.outPinsWrite v).sm j = s.sm j := rfl
@[simp] theorem State.outPinsWrite_me (s : State) (v : Word) : (s.outPinsWrite v).me = s.me := rfl

@[simp] theorem State.outPindirsWrite_params (s : State) (v : Word) : (s.outPindirsWrite v).params = s.params := rfl
@[simp] theorem State.outPindirsWrite_sms (s : State) (v : Word) : (s.outPindirsWrite v).sms = s.sms := rfl
@[simp] theorem State.outPindirsWrite_imem (s : State) (v : Word) : (s.outPindirsWrite v).imem = s.imem := rfl
@[simp] theorem State.outPindirsWrite_irq (s : State) (v : Word) : (s.outPindirsWrite v).irq = s.irq := rfl
@[simp] theorem State.outPindirsWrite_padOut (s : State) (v : Word) : (s.outPindirsWrite v).padOut = s.padOut := rfl
@[simp] theorem State.outPindirsWrite_padOe (s : State) (v : Word) :
    (s.outPindirsWrite v).padOe = writePinRange s.padOe s.me.outBase s.me.outCount v := rfl
@[simp] theorem State.outPindirsWrite_rxStall (s : State) (v : Word) : (s.outPindirsWrite v).rxStall = s.rxStall := rfl
@[simp] theorem State.outPindirsWrite_rxUnder (s : State) (v : Word) : (s.outPindirsWrite v).rxUnder = s.rxUnder := rfl
@[simp] theorem State.outPindirsWrite_txOver (s : State) (v : Word) : (s.outPindirsWrite v).txOver = s.txOver := rfl
@[simp] theorem State.outPindirsWrite_txStall (s : State) (v : Word) : (s.outPindirsWrite v).txStall = s.txStall := rfl
@[simp] theorem State.outPindirsWrite_inte0 (s : State) (v : Word) : (s.outPindirsWrite v).inte0 = s.inte0 := rfl
@[simp] theorem State.outPindirsWrite_intf0 (s : State) (v : Word) : (s.outPindirsWrite v).intf0 = s.intf0 := rfl
@[simp] theorem State.outPindirsWrite_inte1 (s : State) (v : Word) : (s.outPindirsWrite v).inte1 = s.inte1 := rfl
@[simp] theorem State.outPindirsWrite_intf1 (s : State) (v : Word) : (s.outPindirsWrite v).intf1 = s.intf1 := rfl
@[simp] theorem State.outPindirsWrite_smEnable (s : State) (v : Word) : (s.outPindirsWrite v).smEnable = s.smEnable := rfl
@[simp] theorem State.outPindirsWrite_inputSyncBypass (s : State) (v : Word) : (s.outPindirsWrite v).inputSyncBypass = s.inputSyncBypass := rfl
@[simp] theorem State.outPindirsWrite_channels (s : State) (v : Word) : (s.outPindirsWrite v).channels = s.channels := rfl
@[simp] theorem State.outPindirsWrite_mem (s : State) (v : Word) : (s.outPindirsWrite v).mem = s.mem := rfl
@[simp] theorem State.outPindirsWrite_env (s : State) (v : Word) : (s.outPindirsWrite v).env = s.env := rfl
@[simp] theorem State.outPindirsWrite_hostData (s : State) (v : Word) : (s.outPindirsWrite v).hostData = s.hostData := rfl
@[simp] theorem State.outPindirsWrite_active (s : State) (v : Word) : (s.outPindirsWrite v).active = s.active := rfl
@[simp] theorem State.outPindirsWrite_now (s : State) (v : Word) : (s.outPindirsWrite v).now = s.now := rfl
@[simp] theorem State.outPindirsWrite_agenda (s : State) (v : Word) : (s.outPindirsWrite v).agenda = s.agenda := rfl
@[simp] theorem State.outPindirsWrite_sm (s : State) (v : Word) (j : SmId) : (s.outPindirsWrite v).sm j = s.sm j := rfl
@[simp] theorem State.outPindirsWrite_me (s : State) (v : Word) : (s.outPindirsWrite v).me = s.me := rfl

@[simp] theorem State.takeFault_params (s : State) (w : Option InstrWord) : (s.takeFault w).params = s.params := rfl
@[simp] theorem State.takeFault_imem (s : State) (w : Option InstrWord) : (s.takeFault w).imem = s.imem := rfl
@[simp] theorem State.takeFault_irq (s : State) (w : Option InstrWord) : (s.takeFault w).irq = s.irq := rfl
@[simp] theorem State.takeFault_padOut (s : State) (w : Option InstrWord) : (s.takeFault w).padOut = s.padOut := rfl
@[simp] theorem State.takeFault_padOe (s : State) (w : Option InstrWord) : (s.takeFault w).padOe = s.padOe := rfl
@[simp] theorem State.takeFault_rxStall (s : State) (w : Option InstrWord) : (s.takeFault w).rxStall = s.rxStall := rfl
@[simp] theorem State.takeFault_rxUnder (s : State) (w : Option InstrWord) : (s.takeFault w).rxUnder = s.rxUnder := rfl
@[simp] theorem State.takeFault_txOver (s : State) (w : Option InstrWord) : (s.takeFault w).txOver = s.txOver := rfl
@[simp] theorem State.takeFault_txStall (s : State) (w : Option InstrWord) : (s.takeFault w).txStall = s.txStall := rfl
@[simp] theorem State.takeFault_inte0 (s : State) (w : Option InstrWord) : (s.takeFault w).inte0 = s.inte0 := rfl
@[simp] theorem State.takeFault_intf0 (s : State) (w : Option InstrWord) : (s.takeFault w).intf0 = s.intf0 := rfl
@[simp] theorem State.takeFault_inte1 (s : State) (w : Option InstrWord) : (s.takeFault w).inte1 = s.inte1 := rfl
@[simp] theorem State.takeFault_intf1 (s : State) (w : Option InstrWord) : (s.takeFault w).intf1 = s.intf1 := rfl
@[simp] theorem State.takeFault_smEnable (s : State) (w : Option InstrWord) : (s.takeFault w).smEnable = s.smEnable := rfl
@[simp] theorem State.takeFault_inputSyncBypass (s : State) (w : Option InstrWord) : (s.takeFault w).inputSyncBypass = s.inputSyncBypass := rfl
@[simp] theorem State.takeFault_channels (s : State) (w : Option InstrWord) : (s.takeFault w).channels = s.channels := rfl
@[simp] theorem State.takeFault_mem (s : State) (w : Option InstrWord) : (s.takeFault w).mem = s.mem := rfl
@[simp] theorem State.takeFault_env (s : State) (w : Option InstrWord) : (s.takeFault w).env = s.env := rfl
@[simp] theorem State.takeFault_hostData (s : State) (w : Option InstrWord) : (s.takeFault w).hostData = s.hostData := rfl
@[simp] theorem State.takeFault_active (s : State) (w : Option InstrWord) : (s.takeFault w).active = s.active := rfl
@[simp] theorem State.takeFault_now (s : State) (w : Option InstrWord) : (s.takeFault w).now = s.now := rfl
@[simp] theorem State.takeFault_agenda (s : State) (w : Option InstrWord) : (s.takeFault w).agenda = s.agenda := rfl

@[simp] theorem State.setSlot_params (s : State) (i : Fin 32) (w : InstrWord) : (s.setSlot i w).params = s.params := rfl
@[simp] theorem State.setSlot_sms (s : State) (i : Fin 32) (w : InstrWord) : (s.setSlot i w).sms = s.sms := rfl
@[simp] theorem State.setSlot_imem (s : State) (i : Fin 32) (w : InstrWord) :
    (s.setSlot i w).imem = s.imem.set i.val (.of w) i.isLt := rfl
@[simp] theorem State.setSlot_irq (s : State) (i : Fin 32) (w : InstrWord) : (s.setSlot i w).irq = s.irq := rfl
@[simp] theorem State.setSlot_padOut (s : State) (i : Fin 32) (w : InstrWord) : (s.setSlot i w).padOut = s.padOut := rfl
@[simp] theorem State.setSlot_padOe (s : State) (i : Fin 32) (w : InstrWord) : (s.setSlot i w).padOe = s.padOe := rfl
@[simp] theorem State.setSlot_rxStall (s : State) (i : Fin 32) (w : InstrWord) : (s.setSlot i w).rxStall = s.rxStall := rfl
@[simp] theorem State.setSlot_rxUnder (s : State) (i : Fin 32) (w : InstrWord) : (s.setSlot i w).rxUnder = s.rxUnder := rfl
@[simp] theorem State.setSlot_txOver (s : State) (i : Fin 32) (w : InstrWord) : (s.setSlot i w).txOver = s.txOver := rfl
@[simp] theorem State.setSlot_txStall (s : State) (i : Fin 32) (w : InstrWord) : (s.setSlot i w).txStall = s.txStall := rfl
@[simp] theorem State.setSlot_inte0 (s : State) (i : Fin 32) (w : InstrWord) : (s.setSlot i w).inte0 = s.inte0 := rfl
@[simp] theorem State.setSlot_intf0 (s : State) (i : Fin 32) (w : InstrWord) : (s.setSlot i w).intf0 = s.intf0 := rfl
@[simp] theorem State.setSlot_inte1 (s : State) (i : Fin 32) (w : InstrWord) : (s.setSlot i w).inte1 = s.inte1 := rfl
@[simp] theorem State.setSlot_intf1 (s : State) (i : Fin 32) (w : InstrWord) : (s.setSlot i w).intf1 = s.intf1 := rfl
@[simp] theorem State.setSlot_smEnable (s : State) (i : Fin 32) (w : InstrWord) : (s.setSlot i w).smEnable = s.smEnable := rfl
@[simp] theorem State.setSlot_inputSyncBypass (s : State) (i : Fin 32) (w : InstrWord) : (s.setSlot i w).inputSyncBypass = s.inputSyncBypass := rfl
@[simp] theorem State.setSlot_channels (s : State) (i : Fin 32) (w : InstrWord) : (s.setSlot i w).channels = s.channels := rfl
@[simp] theorem State.setSlot_mem (s : State) (i : Fin 32) (w : InstrWord) : (s.setSlot i w).mem = s.mem := rfl
@[simp] theorem State.setSlot_env (s : State) (i : Fin 32) (w : InstrWord) : (s.setSlot i w).env = s.env := rfl
@[simp] theorem State.setSlot_hostData (s : State) (i : Fin 32) (w : InstrWord) : (s.setSlot i w).hostData = s.hostData := rfl
@[simp] theorem State.setSlot_active (s : State) (i : Fin 32) (w : InstrWord) : (s.setSlot i w).active = s.active := rfl
@[simp] theorem State.setSlot_now (s : State) (i : Fin 32) (w : InstrWord) : (s.setSlot i w).now = s.now := rfl
@[simp] theorem State.setSlot_agenda (s : State) (i : Fin 32) (w : InstrWord) : (s.setSlot i w).agenda = s.agenda := rfl
@[simp] theorem State.setSlot_sm (s : State) (i : Fin 32) (w : InstrWord) (j : SmId) : (s.setSlot i w).sm j = s.sm j := rfl
@[simp] theorem State.setSlot_me (s : State) (i : Fin 32) (w : InstrWord) : (s.setSlot i w).me = s.me := rfl

@[simp] theorem State.platformStore_params (s : State) (addr : Word) (size : AccessSize) (v : Word) : (s.platformStore addr size v).params = s.params := rfl
@[simp] theorem State.platformStore_sms (s : State) (addr : Word) (size : AccessSize) (v : Word) : (s.platformStore addr size v).sms = s.sms := rfl
@[simp] theorem State.platformStore_imem (s : State) (addr : Word) (size : AccessSize) (v : Word) : (s.platformStore addr size v).imem = s.imem := rfl
@[simp] theorem State.platformStore_irq (s : State) (addr : Word) (size : AccessSize) (v : Word) : (s.platformStore addr size v).irq = s.irq := rfl
@[simp] theorem State.platformStore_padOut (s : State) (addr : Word) (size : AccessSize) (v : Word) : (s.platformStore addr size v).padOut = s.padOut := rfl
@[simp] theorem State.platformStore_padOe (s : State) (addr : Word) (size : AccessSize) (v : Word) : (s.platformStore addr size v).padOe = s.padOe := rfl
@[simp] theorem State.platformStore_rxStall (s : State) (addr : Word) (size : AccessSize) (v : Word) : (s.platformStore addr size v).rxStall = s.rxStall := rfl
@[simp] theorem State.platformStore_rxUnder (s : State) (addr : Word) (size : AccessSize) (v : Word) : (s.platformStore addr size v).rxUnder = s.rxUnder := rfl
@[simp] theorem State.platformStore_txOver (s : State) (addr : Word) (size : AccessSize) (v : Word) : (s.platformStore addr size v).txOver = s.txOver := rfl
@[simp] theorem State.platformStore_txStall (s : State) (addr : Word) (size : AccessSize) (v : Word) : (s.platformStore addr size v).txStall = s.txStall := rfl
@[simp] theorem State.platformStore_inte0 (s : State) (addr : Word) (size : AccessSize) (v : Word) : (s.platformStore addr size v).inte0 = s.inte0 := rfl
@[simp] theorem State.platformStore_intf0 (s : State) (addr : Word) (size : AccessSize) (v : Word) : (s.platformStore addr size v).intf0 = s.intf0 := rfl
@[simp] theorem State.platformStore_inte1 (s : State) (addr : Word) (size : AccessSize) (v : Word) : (s.platformStore addr size v).inte1 = s.inte1 := rfl
@[simp] theorem State.platformStore_intf1 (s : State) (addr : Word) (size : AccessSize) (v : Word) : (s.platformStore addr size v).intf1 = s.intf1 := rfl
@[simp] theorem State.platformStore_smEnable (s : State) (addr : Word) (size : AccessSize) (v : Word) : (s.platformStore addr size v).smEnable = s.smEnable := rfl
@[simp] theorem State.platformStore_inputSyncBypass (s : State) (addr : Word) (size : AccessSize) (v : Word) : (s.platformStore addr size v).inputSyncBypass = s.inputSyncBypass := rfl
@[simp] theorem State.platformStore_channels (s : State) (addr : Word) (size : AccessSize) (v : Word) : (s.platformStore addr size v).channels = s.channels := rfl
@[simp] theorem State.platformStore_mem (s : State) (addr : Word) (size : AccessSize) (v : Word) :
    (s.platformStore addr size v).mem = s.mem.setBytes addr.toNat (bytesOf size v) := rfl
@[simp] theorem State.platformStore_env (s : State) (addr : Word) (size : AccessSize) (v : Word) : (s.platformStore addr size v).env = s.env := rfl
@[simp] theorem State.platformStore_hostData (s : State) (addr : Word) (size : AccessSize) (v : Word) : (s.platformStore addr size v).hostData = s.hostData := rfl
@[simp] theorem State.platformStore_active (s : State) (addr : Word) (size : AccessSize) (v : Word) : (s.platformStore addr size v).active = s.active := rfl
@[simp] theorem State.platformStore_now (s : State) (addr : Word) (size : AccessSize) (v : Word) : (s.platformStore addr size v).now = s.now := rfl
@[simp] theorem State.platformStore_agenda (s : State) (addr : Word) (size : AccessSize) (v : Word) : (s.platformStore addr size v).agenda = s.agenda := rfl
@[simp] theorem State.platformStore_sm (s : State) (addr : Word) (size : AccessSize) (v : Word) (j : SmId) : (s.platformStore addr size v).sm j = s.sm j := rfl
@[simp] theorem State.platformStore_me (s : State) (addr : Word) (size : AccessSize) (v : Word) : (s.platformStore addr size v).me = s.me := rfl

@[simp] theorem State.setChan_params (s : State) (c : Nat) (ch : Channel) : (s.setChan c ch).params = s.params := rfl
@[simp] theorem State.setChan_sms (s : State) (c : Nat) (ch : Channel) : (s.setChan c ch).sms = s.sms := rfl
@[simp] theorem State.setChan_imem (s : State) (c : Nat) (ch : Channel) : (s.setChan c ch).imem = s.imem := rfl
@[simp] theorem State.setChan_irq (s : State) (c : Nat) (ch : Channel) : (s.setChan c ch).irq = s.irq := rfl
@[simp] theorem State.setChan_padOut (s : State) (c : Nat) (ch : Channel) : (s.setChan c ch).padOut = s.padOut := rfl
@[simp] theorem State.setChan_padOe (s : State) (c : Nat) (ch : Channel) : (s.setChan c ch).padOe = s.padOe := rfl
@[simp] theorem State.setChan_rxStall (s : State) (c : Nat) (ch : Channel) : (s.setChan c ch).rxStall = s.rxStall := rfl
@[simp] theorem State.setChan_rxUnder (s : State) (c : Nat) (ch : Channel) : (s.setChan c ch).rxUnder = s.rxUnder := rfl
@[simp] theorem State.setChan_txOver (s : State) (c : Nat) (ch : Channel) : (s.setChan c ch).txOver = s.txOver := rfl
@[simp] theorem State.setChan_txStall (s : State) (c : Nat) (ch : Channel) : (s.setChan c ch).txStall = s.txStall := rfl
@[simp] theorem State.setChan_inte0 (s : State) (c : Nat) (ch : Channel) : (s.setChan c ch).inte0 = s.inte0 := rfl
@[simp] theorem State.setChan_intf0 (s : State) (c : Nat) (ch : Channel) : (s.setChan c ch).intf0 = s.intf0 := rfl
@[simp] theorem State.setChan_inte1 (s : State) (c : Nat) (ch : Channel) : (s.setChan c ch).inte1 = s.inte1 := rfl
@[simp] theorem State.setChan_intf1 (s : State) (c : Nat) (ch : Channel) : (s.setChan c ch).intf1 = s.intf1 := rfl
@[simp] theorem State.setChan_smEnable (s : State) (c : Nat) (ch : Channel) : (s.setChan c ch).smEnable = s.smEnable := rfl
@[simp] theorem State.setChan_inputSyncBypass (s : State) (c : Nat) (ch : Channel) : (s.setChan c ch).inputSyncBypass = s.inputSyncBypass := rfl
@[simp] theorem State.setChan_channels (s : State) (c : Nat) (ch : Channel) :
    (s.setChan c ch).channels = s.channels.set c ch := rfl
@[simp] theorem State.setChan_mem (s : State) (c : Nat) (ch : Channel) : (s.setChan c ch).mem = s.mem := rfl
@[simp] theorem State.setChan_env (s : State) (c : Nat) (ch : Channel) : (s.setChan c ch).env = s.env := rfl
@[simp] theorem State.setChan_hostData (s : State) (c : Nat) (ch : Channel) : (s.setChan c ch).hostData = s.hostData := rfl
@[simp] theorem State.setChan_active (s : State) (c : Nat) (ch : Channel) : (s.setChan c ch).active = s.active := rfl
@[simp] theorem State.setChan_now (s : State) (c : Nat) (ch : Channel) : (s.setChan c ch).now = s.now := rfl
@[simp] theorem State.setChan_agenda (s : State) (c : Nat) (ch : Channel) : (s.setChan c ch).agenda = s.agenda := rfl
@[simp] theorem State.setChan_sm (s : State) (c : Nat) (ch : Channel) (j : SmId) : (s.setChan c ch).sm j = s.sm j := rfl
@[simp] theorem State.setChan_me (s : State) (c : Nat) (ch : Channel) : (s.setChan c ch).me = s.me := rfl

@[simp] theorem State.updChan_params (s : State) (c : Nat) (f : Channel → Channel) : (s.updChan c f).params = s.params := rfl
@[simp] theorem State.updChan_sms (s : State) (c : Nat) (f : Channel → Channel) : (s.updChan c f).sms = s.sms := rfl
@[simp] theorem State.updChan_imem (s : State) (c : Nat) (f : Channel → Channel) : (s.updChan c f).imem = s.imem := rfl
@[simp] theorem State.updChan_irq (s : State) (c : Nat) (f : Channel → Channel) : (s.updChan c f).irq = s.irq := rfl
@[simp] theorem State.updChan_padOut (s : State) (c : Nat) (f : Channel → Channel) : (s.updChan c f).padOut = s.padOut := rfl
@[simp] theorem State.updChan_padOe (s : State) (c : Nat) (f : Channel → Channel) : (s.updChan c f).padOe = s.padOe := rfl
@[simp] theorem State.updChan_rxStall (s : State) (c : Nat) (f : Channel → Channel) : (s.updChan c f).rxStall = s.rxStall := rfl
@[simp] theorem State.updChan_rxUnder (s : State) (c : Nat) (f : Channel → Channel) : (s.updChan c f).rxUnder = s.rxUnder := rfl
@[simp] theorem State.updChan_txOver (s : State) (c : Nat) (f : Channel → Channel) : (s.updChan c f).txOver = s.txOver := rfl
@[simp] theorem State.updChan_txStall (s : State) (c : Nat) (f : Channel → Channel) : (s.updChan c f).txStall = s.txStall := rfl
@[simp] theorem State.updChan_inte0 (s : State) (c : Nat) (f : Channel → Channel) : (s.updChan c f).inte0 = s.inte0 := rfl
@[simp] theorem State.updChan_intf0 (s : State) (c : Nat) (f : Channel → Channel) : (s.updChan c f).intf0 = s.intf0 := rfl
@[simp] theorem State.updChan_inte1 (s : State) (c : Nat) (f : Channel → Channel) : (s.updChan c f).inte1 = s.inte1 := rfl
@[simp] theorem State.updChan_intf1 (s : State) (c : Nat) (f : Channel → Channel) : (s.updChan c f).intf1 = s.intf1 := rfl
@[simp] theorem State.updChan_smEnable (s : State) (c : Nat) (f : Channel → Channel) : (s.updChan c f).smEnable = s.smEnable := rfl
@[simp] theorem State.updChan_inputSyncBypass (s : State) (c : Nat) (f : Channel → Channel) : (s.updChan c f).inputSyncBypass = s.inputSyncBypass := rfl
@[simp] theorem State.updChan_channels (s : State) (c : Nat) (f : Channel → Channel) :
    (s.updChan c f).channels = s.channels.modify c f := rfl
@[simp] theorem State.updChan_mem (s : State) (c : Nat) (f : Channel → Channel) : (s.updChan c f).mem = s.mem := rfl
@[simp] theorem State.updChan_env (s : State) (c : Nat) (f : Channel → Channel) : (s.updChan c f).env = s.env := rfl
@[simp] theorem State.updChan_hostData (s : State) (c : Nat) (f : Channel → Channel) : (s.updChan c f).hostData = s.hostData := rfl
@[simp] theorem State.updChan_active (s : State) (c : Nat) (f : Channel → Channel) : (s.updChan c f).active = s.active := rfl
@[simp] theorem State.updChan_now (s : State) (c : Nat) (f : Channel → Channel) : (s.updChan c f).now = s.now := rfl
@[simp] theorem State.updChan_agenda (s : State) (c : Nat) (f : Channel → Channel) : (s.updChan c f).agenda = s.agenda := rfl
@[simp] theorem State.updChan_sm (s : State) (c : Nat) (f : Channel → Channel) (j : SmId) : (s.updChan c f).sm j = s.sm j := rfl
@[simp] theorem State.updChan_me (s : State) (c : Nat) (f : Channel → Channel) : (s.updChan c f).me = s.me := rfl

@[simp] theorem State.activate_params (s : State) (k : SmId) : (s.activate k).params = s.params := rfl
@[simp] theorem State.activate_sms (s : State) (k : SmId) : (s.activate k).sms = s.sms := rfl
@[simp] theorem State.activate_imem (s : State) (k : SmId) : (s.activate k).imem = s.imem := rfl
@[simp] theorem State.activate_irq (s : State) (k : SmId) : (s.activate k).irq = s.irq := rfl
@[simp] theorem State.activate_padOut (s : State) (k : SmId) : (s.activate k).padOut = s.padOut := rfl
@[simp] theorem State.activate_padOe (s : State) (k : SmId) : (s.activate k).padOe = s.padOe := rfl
@[simp] theorem State.activate_rxStall (s : State) (k : SmId) : (s.activate k).rxStall = s.rxStall := rfl
@[simp] theorem State.activate_rxUnder (s : State) (k : SmId) : (s.activate k).rxUnder = s.rxUnder := rfl
@[simp] theorem State.activate_txOver (s : State) (k : SmId) : (s.activate k).txOver = s.txOver := rfl
@[simp] theorem State.activate_txStall (s : State) (k : SmId) : (s.activate k).txStall = s.txStall := rfl
@[simp] theorem State.activate_inte0 (s : State) (k : SmId) : (s.activate k).inte0 = s.inte0 := rfl
@[simp] theorem State.activate_intf0 (s : State) (k : SmId) : (s.activate k).intf0 = s.intf0 := rfl
@[simp] theorem State.activate_inte1 (s : State) (k : SmId) : (s.activate k).inte1 = s.inte1 := rfl
@[simp] theorem State.activate_intf1 (s : State) (k : SmId) : (s.activate k).intf1 = s.intf1 := rfl
@[simp] theorem State.activate_smEnable (s : State) (k : SmId) : (s.activate k).smEnable = s.smEnable := rfl
@[simp] theorem State.activate_inputSyncBypass (s : State) (k : SmId) : (s.activate k).inputSyncBypass = s.inputSyncBypass := rfl
@[simp] theorem State.activate_channels (s : State) (k : SmId) : (s.activate k).channels = s.channels := rfl
@[simp] theorem State.activate_mem (s : State) (k : SmId) : (s.activate k).mem = s.mem := rfl
@[simp] theorem State.activate_env (s : State) (k : SmId) : (s.activate k).env = s.env := rfl
@[simp] theorem State.activate_hostData (s : State) (k : SmId) : (s.activate k).hostData = s.hostData := rfl
@[simp] theorem State.activate_active (s : State) (k : SmId) :
    (s.activate k).active = k := rfl
@[simp] theorem State.activate_now (s : State) (k : SmId) : (s.activate k).now = s.now := rfl
@[simp] theorem State.activate_agenda (s : State) (k : SmId) : (s.activate k).agenda = s.agenda := rfl
@[simp] theorem State.activate_sm (s : State) (k : SmId) (j : SmId) : (s.activate k).sm j = s.sm j := rfl

@[simp] theorem State.consume_params (s : State) : (s.consume).params = s.params := rfl
@[simp] theorem State.consume_sms (s : State) : (s.consume).sms = s.sms := rfl
@[simp] theorem State.consume_imem (s : State) : (s.consume).imem = s.imem := rfl
@[simp] theorem State.consume_irq (s : State) : (s.consume).irq = s.irq := rfl
@[simp] theorem State.consume_padOut (s : State) : (s.consume).padOut = s.padOut := rfl
@[simp] theorem State.consume_padOe (s : State) : (s.consume).padOe = s.padOe := rfl
@[simp] theorem State.consume_rxStall (s : State) : (s.consume).rxStall = s.rxStall := rfl
@[simp] theorem State.consume_rxUnder (s : State) : (s.consume).rxUnder = s.rxUnder := rfl
@[simp] theorem State.consume_txOver (s : State) : (s.consume).txOver = s.txOver := rfl
@[simp] theorem State.consume_txStall (s : State) : (s.consume).txStall = s.txStall := rfl
@[simp] theorem State.consume_inte0 (s : State) : (s.consume).inte0 = s.inte0 := rfl
@[simp] theorem State.consume_intf0 (s : State) : (s.consume).intf0 = s.intf0 := rfl
@[simp] theorem State.consume_inte1 (s : State) : (s.consume).inte1 = s.inte1 := rfl
@[simp] theorem State.consume_intf1 (s : State) : (s.consume).intf1 = s.intf1 := rfl
@[simp] theorem State.consume_smEnable (s : State) : (s.consume).smEnable = s.smEnable := rfl
@[simp] theorem State.consume_inputSyncBypass (s : State) : (s.consume).inputSyncBypass = s.inputSyncBypass := rfl
@[simp] theorem State.consume_channels (s : State) : (s.consume).channels = s.channels := rfl
@[simp] theorem State.consume_mem (s : State) : (s.consume).mem = s.mem := rfl
@[simp] theorem State.consume_env (s : State) : (s.consume).env = s.env := rfl
@[simp] theorem State.consume_hostData (s : State) : (s.consume).hostData = s.hostData := rfl
@[simp] theorem State.consume_active (s : State) : (s.consume).active = s.active := rfl
@[simp] theorem State.consume_now (s : State) :
    (s.consume).now = s.now + 1 := rfl
@[simp] theorem State.consume_agenda (s : State) :
    (s.consume).agenda = s.agenda.tail := rfl
@[simp] theorem State.consume_sm (s : State) (j : SmId) : (s.consume).sm j = s.sm j := rfl
@[simp] theorem State.consume_me (s : State) : (s.consume).me = s.me := rfl

@[simp] theorem Cell.of_written {w : Nat} (v : BitVec w) : (Cell.of v).written = true := rfl
@[simp] theorem Cell.of_val {w : Nat} (v : BitVec w) : (Cell.of v).val = v := rfl
@[simp] theorem readCell_of {w : Nat} (v : BitVec w) : readCell (Cell.of v) = some v := rfl

theorem readCell_eq_some {w : Nat} {c : Cell w} {v : BitVec w} : readCell c = some v ↔ c.written = true ∧ c.val = v := by
  unfold readCell; split <;> simp_all

theorem readCell_eq_none {w : Nat} {c : Cell w} : readCell c = none ↔ c.written = false := by
  unfold readCell; split <;> simp_all

end Sys2Proof.Machine
end

