-- ==== Sys2Proof/Laws/Ops.lean ====
section
/-! SUPPORT. What the shared operations of a tick can do, said once each: the frame of every update, the end of a tick,
and one inversion lemma per instruction rule. -/

namespace Sys2Proof.Machine

open Sys2Proof

/-! The frame of each update. -/

theorem raised_setBit {n : Nat} (v : BitVec n) {k : Nat} (hk : k < n) : Raised v (setBit v k) k := by
  intro j
  rw [getLsbD_setBit]
  by_cases h : j = k
  · subst h; simp [hk]
  · have h' : k ≠ j := fun e => h e.symm
    simp [h, h']

theorem lowered_clearBit {n : Nat} (v : BitVec n) (k : Nat) : Lowered v (clearBit v k) k := by
  intro j
  rw [getLsbD_clearBit]
  congr 2
  exact decide_eq_decide.2 eq_comm

theorem TickFrame.refl (s : State) : TickFrame s s := by constructor <;> intros <;> rfl

theorem TickFrame.setMe {s s' : State} (h : TickFrame s s') (m : Sm) : TickFrame s (s'.setMe m) :=
  { h with others := fun k hk => by rw [State.sm_setMe_ne _ _ (by rw [h.active]; exact hk), h.others k hk] }

theorem TickFrame.sideSet {s s' : State} (h : TickFrame s s') (m : Sm) (ds : Five) : TickFrame s (s'.sideSet m ds) :=
  { h with }

theorem TickFrame.setIrq {s s' : State} (h : TickFrame s s') (f : BitVec 3) : TickFrame s (s'.setIrq f) := { h with }

theorem TickFrame.clearIrq {s s' : State} (h : TickFrame s s') (f : BitVec 3) : TickFrame s (s'.clearIrq f) := { h with }

theorem TickFrame.setRxStall {s s' : State} (h : TickFrame s s') : TickFrame s s'.setRxStall := { h with }

theorem TickFrame.setTxStall {s s' : State} (h : TickFrame s s') : TickFrame s s'.setTxStall := { h with }

theorem TickFrame.padOut {s s' : State} (h : TickFrame s s') (v : Word) : TickFrame s { s' with padOut := v } := { h with }

theorem TickFrame.padOe {s s' : State} (h : TickFrame s s') (v : Word) : TickFrame s { s' with padOe := v } := { h with }

theorem TickFrame.takeFault (s : State) (w : Option InstrWord) : TickFrame s (s.takeFault w) :=
  (TickFrame.refl s).setMe _

/-! The end of a tick (40_sequencer_cycle.md R105). -/

theorem finishTick_done (w : InstrWord) (ds : Five) (s s' : State) :
    finishTick w ds s (done s') =
      .next ((s'.setMe (s.me.retire s'.me s.pinSample ds none none)).sideSet s.me ds) := rfl

theorem finishTick_complete (w : InstrWord) (ds : Five) (s s' : State) (j : Option Five) (e : Option InstrWord) :
    finishTick w ds s (.complete s' j e) =
      .next ((s'.setMe (s.me.retire s'.me s.pinSample ds j e)).sideSet s.me ds) := rfl

theorem finishTick_stall (w : InstrWord) (ds : Five) (s s' : State) :
    finishTick w ds s (.stall s') =
      .next ((s'.setMe { s'.me with edgePrev := some s.pinSample }).sideSet s.me ds) := rfl

theorem finishTick_unwritten (w : InstrWord) (ds : Five) (s : State) :
    finishTick w ds s .unwritten = .next (s.takeFault (some w)) := rfl

theorem finishTick_refuse (w : InstrWord) (ds : Five) (s : State) (r : Refusal) :
    finishTick w ds s (.refuse r) = .refused r := rfl

/-- Everything a tick's end can answer as a next state. -/
theorem finishTick_next_cases {w : InstrWord} {ds : Five} {s t : State} {r : RuleResult}
    (h : finishTick w ds s r = .next t) :
    (∃ s' j e, r = .complete s' j e ∧ t = (s'.setMe (s.me.retire s'.me s.pinSample ds j e)).sideSet s.me ds) ∨
    (∃ s', r = .stall s' ∧ t = (s'.setMe { s'.me with edgePrev := some s.pinSample }).sideSet s.me ds) ∨
    (r = .unwritten ∧ t = s.takeFault (some w)) := by
  cases r with
  | complete s' j e => exact .inl ⟨s', j, e, rfl, (Host.Outcome.next.inj h).symm⟩
  | stall s' => exact .inr (.inl ⟨s', rfl, (Host.Outcome.next.inj h).symm⟩)
  | unwritten => exact .inr (.inr ⟨rfl, (Host.Outcome.next.inj h).symm⟩)
  | refuse r => simp [finishTick] at h

/-- What a rule answers keeps the frame: `P` holds of every state it answers with. -/
def RuleResult.All (P : State → Prop) : RuleResult → Prop
  | .complete s' _ _ => P s'
  | .stall s' => P s'
  | .unwritten => True
  | .refuse _ => True

/-- A completion with private effects `m` on the state `s'`, as the statements say it. -/
theorem completesIn_of_complete {i : Instr} {s s' : State} {m : Sm} {j : Option Five} {pc : Five} {out oe : Word}
    (hexec : exec i s = finishTick (encode i) i.ds s (.complete s' j none)) (hframe : TickFrame s s') (hm : s'.me = m)
    (hpc : s.me.nextPc j = pc) (hout : s'.padOut = out) (hoe : s'.padOe = oe) :
    CompletesIn i s ((s'.setMe (s.me.retire s'.me s.pinSample i.ds j none)).sideSet s.me i.ds) m pc out oe := by
  refine ⟨hexec, ?_, ⟨?_, ?_⟩, (hframe.setMe _).sideSet _ _⟩
  · subst hm hpc; simp [Sm.retire, Sm.completed]
  · subst hout; rfl
  · subst hoe; rfl

/-- A completion with no change of the flags. -/
theorem completes_of_complete {i : Instr} {s s' : State} {m : Sm} {j : Option Five} {pc : Five} {out oe : Word}
    (hexec : exec i s = finishTick (encode i) i.ds s (.complete s' j none)) (hframe : TickFrame s s') (hm : s'.me = m)
    (hpc : s.me.nextPc j = pc) (hout : s'.padOut = out) (hoe : s'.padOe = oe) (hflags : SameFlags s s') :
    Completes i s m pc out oe :=
  ⟨_, completesIn_of_complete hexec hframe hm hpc hout hoe, hflags⟩

/-- A completion that injects a word. -/
theorem completesInjecting_of_complete {i : Instr} {s s' : State} {m : Sm} {pc : Five} {w : InstrWord}
    (hexec : exec i s = finishTick (encode i) i.ds s (.complete s' none (some w))) (hframe : TickFrame s s')
    (hm : s'.me = m) (hpc : s.me.nextPc none = pc) (hout : s'.padOut = s.padOut) (hoe : s'.padOe = s.padOe)
    (hflags : SameFlags s s') : CompletesInjecting i s m pc w := by
  refine ⟨_, hexec, ?_, ⟨?_, ?_⟩, (hframe.setMe _).sideSet _ _, hflags⟩
  · subst hm hpc; simp [Sm.retire]
  · show sideSetOut _ _ s'.padOut = _; rw [hout]
  · show sideSetOe _ _ s'.padOe = _; rw [hoe]

/-- A stall with the private effects `m`. -/
theorem stallsIn_of_stall {i : Instr} {s s' : State} {m : Sm}
    (hexec : exec i s = finishTick (encode i) i.ds s (.stall s')) (hframe : TickFrame s s') (hm : s'.me = m)
    (hout : s'.padOut = s.padOut) (hoe : s'.padOe = s.padOe) :
    StallsIn i s ((s'.setMe { s'.me with edgePrev := some s.pinSample }).sideSet s.me i.ds) m := by
  refine ⟨hexec, ?_, ⟨?_, ?_⟩, (hframe.setMe _).sideSet _ _⟩
  · subst hm; simp
  · show sideSetOut _ _ s'.padOut = _; rw [hout]
  · show sideSetOe _ _ s'.padOe = _; rw [hoe]

/-! The rules, inverted: what each can answer. -/

theorem jmpRule_cases (addr : Five) (s : State) (cond : Option Bool) :
    (cond = none ∧ jmpRule addr s cond = .unwritten) ∨
    (∃ b, cond = some b ∧ jmpRule addr s cond = .complete s (if b then some addr else none) none) := by
  cases cond with
  | none => exact .inl ⟨rfl, rfl⟩
  | some b => exact .inr ⟨b, rfl, rfl⟩

theorem waitRule_cases (s : State) (cond : Bool) :
    (cond = true ∧ waitRule s cond = done s) ∨ (cond = false ∧ waitRule s cond = .stall s) := by
  cases cond <;> simp [waitRule]

/-- The ISR after `count` more bits of `v`. -/
def Sm.isrAfter (m : Sm) (count : Five) (v : Word) : Word := shiftInValue m.inShiftRight m.isr (bitCount count) v

theorem inRule_cases (count : Five) (s : State) (src : Option Word) :
    (src = none ∧ inRule count s src = .unwritten) ∨
    (∃ v, src = some v ∧ s.me.autopush = true ∧ s.me.pushThresh ≤ addCount s.me.isrCount (bitCount count) ∧
      s.me.rxFull = true ∧ inRule count s src = .stall s.setRxStall) ∨
    (∃ v, src = some v ∧ s.me.autopush = true ∧ s.me.pushThresh ≤ addCount s.me.isrCount (bitCount count) ∧
      s.me.rxFull = false ∧
      inRule count s src =
        done (s.setMe { s.me with rx := s.me.rx ++ [s.me.isrAfter count v], isr := 0, isrCount := 0 })) ∨
    (∃ v, src = some v ∧
      ¬(s.me.autopush = true ∧ s.me.pushThresh ≤ addCount s.me.isrCount (bitCount count)) ∧
      inRule count s src =
        done (s.setMe
          { s.me with isr := s.me.isrAfter count v, isrCount := addCount s.me.isrCount (bitCount count) })) := by
  cases src with
  | none => exact .inl ⟨rfl, rfl⟩
  | some v =>
    refine .inr ?_
    by_cases hp : s.me.autopush = true ∧ s.me.pushThresh ≤ addCount s.me.isrCount (bitCount count)
    · cases hf : s.me.rxFull with
      | true => exact .inl ⟨v, rfl, hp.1, hp.2, rfl, by simp [inRule, hp, hf]⟩
      | false => exact .inr (.inl ⟨v, rfl, hp.1, hp.2, rfl, by simp [inRule, hp, hf, Sm.isrAfter]⟩)
    · refine .inr (.inr ⟨v, rfl, hp, ?_⟩)
      simp only [inRule]
      rw [if_neg (by simpa using hp)]
      rfl

/-- The state after an OUT has taken its bits, before the delivery. -/
def State.afterShiftOut (s : State) (count : Five) (osr : Word) (cnt : Nat) (tx : List Word) : State :=
  s.setMe
    { s.me with
      tx := tx, osr := .of (shiftOutRest s.me.outShiftRight osr (bitCount count)),
      osrCount := addCount cnt (bitCount count) }

theorem outRule_cases (count : Five) (s : State) (dest : State → Word → Nat → RuleResult) :
    (s.me.outSupply = .starved ∧ outRule count s dest = .stall s.setTxStall) ∨
    (s.me.outSupply = .unwritten ∧ outRule count s dest = .unwritten) ∨
    (∃ osr cnt tx, s.me.outSupply = .ready osr cnt tx ∧
      outRule count s dest =
        dest (s.afterShiftOut count osr cnt tx) (shiftOutData s.me.outShiftRight osr (bitCount count))
          (bitCount count)) := by
  unfold outRule
  cases h : s.me.outSupply with
  | starved => exact .inl ⟨rfl, rfl⟩
  | unwritten => exact .inr (.inl ⟨rfl, rfl⟩)
  | ready osr cnt tx => exact .inr (.inr ⟨osr, cnt, tx, rfl, rfl⟩)

/-- The three ways autopull and the OSR supply an OUT (42_shift.md R133). -/
theorem outSupply_cases (m : Sm) :
    (m.autopull = true ∧ m.pullThresh ≤ m.osrCount ∧ m.tx = [] ∧ m.outSupply = .starved) ∨
    (m.autopull = true ∧ m.pullThresh ≤ m.osrCount ∧ ∃ w rest, m.tx = w :: rest ∧ m.outSupply = .ready w 0 rest) ∨
    (¬(m.autopull = true ∧ m.pullThresh ≤ m.osrCount) ∧ m.osr.written = false ∧ m.outSupply = .unwritten) ∨
    (¬(m.autopull = true ∧ m.pullThresh ≤ m.osrCount) ∧ m.osr.written = true ∧
      m.outSupply = .ready m.osr.val m.osrCount m.tx) := by
  by_cases hp : m.autopull = true ∧ m.pullThresh ≤ m.osrCount
  · cases htx : m.tx with
    | nil => exact .inl ⟨hp.1, hp.2, rfl, by simp [Sm.outSupply, hp, htx]⟩
    | cons w rest => exact .inr (.inl ⟨hp.1, hp.2, w, rest, rfl, by simp [Sm.outSupply, hp, htx]⟩)
  · have hn : (m.autopull && decide (m.pullThresh ≤ m.osrCount)) = false := by
      simpa using hp
    cases hw : m.osr.written with
    | false => exact .inr (.inr (.inl ⟨hp, rfl, by simp [Sm.outSupply, hn, readCell, hw]⟩))
    | true => exact .inr (.inr (.inr ⟨hp, rfl, by simp [Sm.outSupply, hn, readCell, hw]⟩))

theorem pushRule_cases (iffull block : Bool) (s : State) :
    (iffull = true ∧ s.me.isrCount < s.me.pushThresh ∧ pushRule iffull block s = done s) ∨
    (¬(iffull = true ∧ s.me.isrCount < s.me.pushThresh) ∧
      ((s.me.rxFull = true ∧ block = true ∧ pushRule iffull block s = .stall s.setRxStall) ∨
      (s.me.rxFull = true ∧ block = false ∧ s.params.noblockPushClears = true ∧
        pushRule iffull block s = done (s.setMe { s.me with isr := 0, isrCount := 0 })) ∨
      (s.me.rxFull = true ∧ block = false ∧ s.params.noblockPushClears = false ∧ pushRule iffull block s = done s) ∨
      (s.me.rxFull = false ∧
        pushRule iffull block s =
          done (s.setMe { s.me with rx := s.me.rx ++ [s.me.isr], isr := 0, isrCount := 0 })))) := by
  by_cases h : iffull = true ∧ s.me.isrCount < s.me.pushThresh
  · exact .inl ⟨h.1, h.2, by simp [pushRule, h]⟩
  · refine .inr ⟨h, ?_⟩
    have hn : (iffull && decide (s.me.isrCount < s.me.pushThresh)) = false := by simpa using h
    simp only [pushRule, hn]
    cases hf : s.me.rxFull with
    | false => exact .inr (.inr (.inr ⟨rfl, rfl⟩))
    | true =>
      cases block with
      | true => exact .inl ⟨rfl, rfl, rfl⟩
      | false =>
        cases hc : s.params.noblockPushClears with
        | true => exact .inr (.inl ⟨rfl, rfl, rfl, rfl⟩)
        | false => exact .inr (.inr (.inl ⟨rfl, rfl, rfl, rfl⟩))

/-- A PULL that has no effect: below the threshold with `ifempty`, or on a full OSR with autopull. -/
def PullSkips (ifempty : Bool) (m : Sm) : Prop :=
  (ifempty = true ∧ m.osrCount < m.pullThresh) ∨ (m.autopull = true ∧ m.osrCount = 0)

theorem pullRule_cases (ifempty block : Bool) (s : State) :
    (PullSkips ifempty s.me ∧ pullRule ifempty block s = done s) ∨
    (¬PullSkips ifempty s.me ∧
      ((s.me.tx = [] ∧ block = true ∧ pullRule ifempty block s = .stall s.setTxStall) ∨
      (s.me.tx = [] ∧ block = false ∧ s.me.x.written = false ∧ pullRule ifempty block s = .unwritten) ∨
      (s.me.tx = [] ∧ block = false ∧ s.me.x.written = true ∧
        pullRule ifempty block s = done (s.setMe { s.me with osr := .of s.me.x.val, osrCount := 0 })) ∨
      (∃ w rest, s.me.tx = w :: rest ∧
        pullRule ifempty block s = done (s.setMe { s.me with tx := rest, osr := .of w, osrCount := 0 })))) := by
  by_cases h1 : (ifempty && decide (s.me.osrCount < s.me.pullThresh)) = true
  · exact .inl ⟨.inl (by simpa using h1), by simp only [pullRule]; rw [if_pos h1]⟩
  by_cases h2 : (s.me.autopull && decide (s.me.osrCount = 0)) = true
  · exact .inl ⟨.inr (by simpa using h2), by simp only [pullRule]; rw [if_neg h1, if_pos h2]⟩
  refine .inr ⟨fun h => h.elim (fun h => h1 (by simpa using h)) (fun h => h2 (by simpa using h)), ?_⟩
  simp only [pullRule]
  rw [if_neg h1, if_neg h2]
  cases htx : s.me.tx with
  | cons w rest => exact .inr (.inr (.inr ⟨w, rest, rfl, rfl⟩))
  | nil =>
    cases block with
    | true => exact .inl ⟨rfl, rfl, rfl⟩
    | false =>
      cases hw : s.me.x.written with
      | false => exact .inr (.inl ⟨rfl, rfl, rfl, by simp [readCell, hw]⟩)
      | true => exact .inr (.inr (.inl ⟨rfl, rfl, rfl, by simp [readCell, hw]⟩))

theorem movRule_cases (op : MovOp) (src : MovSrc) (s : State) (dest : Word → RuleResult) :
    (s.me.movSource s.pinSample src = none ∧ movRule op src s dest = .unwritten) ∨
    (∃ v, s.me.movSource s.pinSample src = some v ∧ movRule op src s dest = dest (movOperation op v)) := by
  unfold movRule
  cases s.me.movSource s.pinSample src with
  | none => exact .inl ⟨rfl, rfl⟩
  | some v => exact .inr ⟨v, rfl, rfl⟩

theorem irqRule_cases (wait : Bool) (index : Five) (s : State) :
    (irqIndex index s.active = none ∧
      irqRule wait index s = .refuse (.reservedEncoding (.sm s.active))) ∨
    (∃ f, irqIndex index s.active = some f ∧
      ((s.me.irqWaiting = true ∧ s.irqFlag f = true ∧ irqRule wait index s = .stall s) ∨
      (s.me.irqWaiting = true ∧ s.irqFlag f = false ∧
        irqRule wait index s = done (s.setMe { s.me with irqWaiting := false })) ∨
      (s.me.irqWaiting = false ∧ wait = true ∧
        irqRule wait index s = .stall ((s.setIrq f).setMe { s.me with irqWaiting := true })) ∨
      (s.me.irqWaiting = false ∧ wait = false ∧ irqRule wait index s = done (s.setIrq f)))) := by
  unfold irqRule
  cases irqIndex index s.active with
  | none => exact .inl ⟨rfl, rfl⟩
  | some f =>
    refine .inr ⟨f, rfl, ?_⟩
    cases s.me.irqWaiting with
    | true =>
      cases h : s.irqFlag f with
      | true => exact .inl ⟨rfl, rfl, by simp [h]⟩
      | false => exact .inr (.inl ⟨rfl, rfl, by simp [h]⟩)
    | false =>
      cases wait with
      | true => exact .inr (.inr (.inl ⟨rfl, rfl, by simp⟩))
      | false => exact .inr (.inr (.inr ⟨rfl, rfl, by simp⟩))

theorem irqClearRule_cases (index : Five) (s : State) :
    (irqIndex index s.active = none ∧
      irqClearRule index s = .refuse (.reservedEncoding (.sm s.active))) ∨
    (∃ f, irqIndex index s.active = some f ∧ irqClearRule index s = done (s.clearIrq f)) := by
  unfold irqClearRule
  cases irqIndex index s.active with
  | none => exact .inl ⟨rfl, rfl⟩
  | some f => exact .inr ⟨f, rfl, rfl⟩

end Sys2Proof.Machine
end

