-- ==== Sys2Proof/Laws/Exec.lean ====
section
/-! SUPPORT. Everything an instruction can do to the machine, said once for all 43: the effect of its rule on the
executing state machine and on the rest, before the end of the tick. -/

namespace Sys2Proof.Machine

open Sys2Proof

/-- What a rule may do to the executing state machine: `m'` keeps the configuration, the tick's own fields, and the
order and bounds of the FIFOs and counts of `m`. -/
structure SmEffect (m m' : Sm) : Prop where
  config : SameConfig m m'
  pc : m'.pc = m.pc
  delayCount : m'.delayCount = m.delayCount
  pending : m'.pending = m.pending
  edgePrev : m'.edgePrev = m.edgePrev
  faultRec : m'.faultRec = m.faultRec
  tx : m'.tx = m.tx ∨ ∃ w, m.tx = w :: m'.tx
  rx : m'.rx = m.rx ∨ (m.rxFull = false ∧ ∃ w, m'.rx = m.rx ++ [w])
  isrCount : m.isrCount ≤ 32 → m'.isrCount ≤ 32
  osrCount : m.osrCount ≤ 32 → m'.osrCount ≤ 32

theorem SmEffect.refl (m : Sm) : SmEffect m m :=
  ⟨⟨rfl, rfl, rfl, rfl⟩, rfl, rfl, rfl, rfl, rfl, .inl rfl, .inl rfl, id, id⟩

/-- What a rule may do to the machine: nothing outside the frame, and an effect on the executing state machine. -/
structure Effect (s s' : State) : Prop where
  frame : TickFrame s s'
  me : SmEffect s.me s'.me
  mem : s'.mem = s.mem

theorem Effect.refl (s : State) : Effect s s := ⟨.refl s, .refl _, rfl⟩

/-- An update of the executing state machine that is an effect of its own. -/
theorem Effect.setMe {s : State} {m : Sm} (h : SmEffect s.me m) : Effect s (s.setMe m) :=
  ⟨(TickFrame.refl s).setMe m, by simpa using h, rfl⟩

/-- A change of pads and flags alone, on top of an effect. -/
theorem Effect.of_me {s s' s'' : State} (h : Effect s s') (hf : TickFrame s s'') (hm : s''.me = s'.me)
    (hmem : s''.mem = s'.mem := by rfl) : Effect s s'' :=
  ⟨hf, hm ▸ h.me, hmem.trans h.mem⟩

theorem bitCount_le (b : Five) : bitCount b ≤ 32 := by
  have := b.isLt
  unfold bitCount
  split <;> omega

theorem addCount_le (n m : Nat) : addCount n m ≤ 32 := Nat.min_le_left _ _

theorem effect_jmpRule (addr : Five) (s s' : State) (cond : Option Bool) (h : Effect s s') :
    (jmpRule addr s' cond).All (Effect s) := by
  rcases jmpRule_cases addr s' cond with ⟨_, hr⟩ | ⟨b, _, hr⟩ <;> rw [hr]
  · trivial
  · exact h

theorem effect_waitRule (s : State) (cond : Bool) : (waitRule s cond).All (Effect s) := by
  rcases waitRule_cases s cond with ⟨_, hr⟩ | ⟨_, hr⟩ <;> rw [hr] <;> exact .refl s

theorem effect_inRule (count : Five) (s : State) (src : Option Word) : (inRule count s src).All (Effect s) := by
  rcases inRule_cases count s src with ⟨_, hr⟩ | ⟨v, _, _, _, _, hr⟩ | ⟨v, _, _, _, hf, hr⟩ | ⟨v, _, _, hr⟩ <;> rw [hr]
  · trivial
  · exact (Effect.refl s).of_me (TickFrame.refl s).setRxStall rfl
  · exact .setMe ⟨⟨rfl, rfl, rfl, rfl⟩, rfl, rfl, rfl, rfl, rfl, .inl rfl, .inr ⟨hf, _, rfl⟩, fun _ => Nat.zero_le _, id⟩
  · exact .setMe ⟨⟨rfl, rfl, rfl, rfl⟩, rfl, rfl, rfl, rfl, rfl, .inl rfl, .inl rfl, fun _ => addCount_le _ _, id⟩

/-- Taking the bits of an OUT is an effect. -/
theorem effect_afterShiftOut {count : Five} {s : State} {osr : Word} {cnt : Nat} {tx : List Word}
    (h : s.me.outSupply = .ready osr cnt tx) : Effect s (s.afterShiftOut count osr cnt tx) := by
  have htx : tx = s.me.tx ∨ ∃ w, s.me.tx = w :: tx := by
    rcases outSupply_cases s.me with ⟨_, _, _, e⟩ | ⟨_, _, w, rest, hw, e⟩ | ⟨_, _, e⟩ | ⟨_, _, e⟩ <;> rw [e] at h
    · cases h
    · cases h; exact .inr ⟨_, hw⟩
    · cases h
    · cases h; exact .inl rfl
  exact .setMe ⟨⟨rfl, rfl, rfl, rfl⟩, rfl, rfl, rfl, rfl, rfl, htx, .inl rfl, id, fun _ => addCount_le _ _⟩

/-- An OUT is an effect where what its destination does with the bits is one. -/
theorem effect_outRule (count : Five) (s : State) (dest : State → Word → Nat → RuleResult)
    (hd : ∀ s' data, Effect s s' → (dest s' data (bitCount count)).All (Effect s)) :
    (outRule count s dest).All (Effect s) := by
  rcases outRule_cases count s dest with ⟨_, hr⟩ | ⟨_, hr⟩ | ⟨osr, cnt, tx, h, hr⟩ <;> rw [hr]
  · exact (Effect.refl s).of_me (TickFrame.refl s).setTxStall rfl
  · trivial
  · exact hd _ _ (effect_afterShiftOut h)

theorem effect_pushRule (iffull block : Bool) (s : State) : (pushRule iffull block s).All (Effect s) := by
  rcases pushRule_cases iffull block s with
    ⟨_, _, hr⟩ | ⟨_, ⟨_, _, hr⟩ | ⟨_, _, _, hr⟩ | ⟨_, _, _, hr⟩ | ⟨hf, hr⟩⟩ <;> rw [hr]
  · exact .refl s
  · exact (Effect.refl s).of_me (TickFrame.refl s).setRxStall rfl
  · exact .setMe ⟨⟨rfl, rfl, rfl, rfl⟩, rfl, rfl, rfl, rfl, rfl, .inl rfl, .inl rfl, fun _ => Nat.zero_le _, id⟩
  · exact .refl s
  · exact .setMe ⟨⟨rfl, rfl, rfl, rfl⟩, rfl, rfl, rfl, rfl, rfl, .inl rfl, .inr ⟨hf, _, rfl⟩, fun _ => Nat.zero_le _, id⟩

theorem effect_pullRule (ifempty block : Bool) (s : State) : (pullRule ifempty block s).All (Effect s) := by
  rcases pullRule_cases ifempty block s with
    ⟨_, hr⟩ | ⟨_, ⟨_, _, hr⟩ | ⟨_, _, _, hr⟩ | ⟨_, _, _, hr⟩ | ⟨w, rest, hw, hr⟩⟩ <;> rw [hr]
  · exact .refl s
  · exact (Effect.refl s).of_me (TickFrame.refl s).setTxStall rfl
  · trivial
  · exact .setMe ⟨⟨rfl, rfl, rfl, rfl⟩, rfl, rfl, rfl, rfl, rfl, .inl rfl, .inl rfl, id, fun _ => Nat.zero_le _⟩
  · exact .setMe ⟨⟨rfl, rfl, rfl, rfl⟩, rfl, rfl, rfl, rfl, rfl, .inr ⟨w, hw⟩, .inl rfl, id, fun _ => Nat.zero_le _⟩

theorem effect_movRule (op : MovOp) (src : MovSrc) (s : State) (dest : Word → RuleResult)
    (hd : ∀ r, (dest r).All (Effect s)) : (movRule op src s dest).All (Effect s) := by
  rcases movRule_cases op src s dest with ⟨_, hr⟩ | ⟨v, _, hr⟩ <;> rw [hr]
  · trivial
  · exact hd _

theorem effect_irqRule (wait : Bool) (index : Five) (s : State) : (irqRule wait index s).All (Effect s) := by
  rcases irqRule_cases wait index s with
    ⟨_, hr⟩ | ⟨f, _, ⟨_, _, hr⟩ | ⟨_, _, hr⟩ | ⟨_, _, hr⟩ | ⟨_, _, hr⟩⟩ <;> rw [hr]
  · trivial
  · exact .refl s
  · exact .setMe ⟨⟨rfl, rfl, rfl, rfl⟩, rfl, rfl, rfl, rfl, rfl, .inl rfl, .inl rfl, id, id⟩
  · refine ⟨((TickFrame.refl s).setIrq f).setMe _, ?_, rfl⟩
    simp only [State.me_setMe]
    exact ⟨⟨rfl, rfl, rfl, rfl⟩, rfl, rfl, rfl, rfl, rfl, .inl rfl, .inl rfl, id, id⟩
  · exact (Effect.refl s).of_me ((TickFrame.refl s).setIrq f) rfl

theorem effect_irqClearRule (index : Five) (s : State) : (irqClearRule index s).All (Effect s) := by
  rcases irqClearRule_cases index s with ⟨_, hr⟩ | ⟨f, _, hr⟩ <;> rw [hr]
  · trivial
  · exact (Effect.refl s).of_me ((TickFrame.refl s).clearIrq f) rfl

/-- Setting a register of a state machine that an effect has reached is an effect. -/
theorem SmEffect.ofFields {m m' m'' : Sm} (h : SmEffect m m') (hc : SameConfig m' m'') (hpc : m''.pc = m'.pc)
    (hd : m''.delayCount = m'.delayCount) (hp : m''.pending = m'.pending) (he : m''.edgePrev = m'.edgePrev)
    (hf : m''.faultRec = m'.faultRec) (ht : m''.tx = m'.tx) (hr : m''.rx = m'.rx)
    (hi : m'.isrCount ≤ 32 → m''.isrCount ≤ 32) (ho : m'.osrCount ≤ 32 → m''.osrCount ≤ 32) : SmEffect m m'' where
  config := ⟨hc.1.trans h.config.1, hc.2.1.trans h.config.2.1, hc.2.2.1.trans h.config.2.2.1, hc.2.2.2.trans h.config.2.2.2⟩
  pc := hpc.trans h.pc
  delayCount := hd.trans h.delayCount
  pending := hp.trans h.pending
  edgePrev := he.trans h.edgePrev
  faultRec := hf.trans h.faultRec
  tx := by rw [ht]; exact h.tx
  rx := by rw [hr]; exact h.rx
  isrCount := fun hm => hi (h.isrCount hm)
  osrCount := fun hm => ho (h.osrCount hm)

theorem Effect.setMe_on {s s' : State} (h : Effect s s') {m : Sm} (hm : SmEffect s.me m) : Effect s (s'.setMe m) :=
  ⟨h.frame.setMe m, by simpa using hm, h.mem⟩

/-- The jump a rule answers with, if any. -/
def RuleResult.jump : RuleResult → Option Five
  | .complete _ j _ => j
  | .stall _ => none
  | .unwritten => none
  | .refuse _ => none

/-- The jumps an instruction may answer with: a JMP's own address, any for OUT PC and MOV PC, none for the others. -/
def MayJump : Instr → Option Five → Prop
  | .jmpAlways _ addr, j | .jmpNotX _ addr, j | .jmpXDec _ addr, j | .jmpNotY _ addr, j | .jmpYDec _ addr, j
  | .jmpXNeY _ addr, j | .jmpPin _ addr, j | .jmpNotOsre _ addr, j => j = none ∨ j = some addr
  | .outPc _ _, _ | .movPc _ _ _, _ => True
  | _, j => j = none

theorem jump_jmpRule (addr : Five) (s : State) (cond : Option Bool) :
    (jmpRule addr s cond).jump = none ∨ (jmpRule addr s cond).jump = some addr := by
  rcases jmpRule_cases addr s cond with ⟨_, hr⟩ | ⟨b, _, hr⟩ <;> rw [hr]
  · exact .inl rfl
  · cases b
    · exact .inl rfl
    · exact .inr rfl

theorem jump_waitRule (s : State) (cond : Bool) : (waitRule s cond).jump = none := by
  cases cond <;> rfl

theorem jump_inRule (count : Five) (s : State) (src : Option Word) : (inRule count s src).jump = none := by
  rcases inRule_cases count s src with ⟨_, hr⟩ | ⟨v, _, _, _, _, hr⟩ | ⟨v, _, _, _, _, hr⟩ | ⟨v, _, _, hr⟩ <;> rw [hr] <;> rfl

theorem jump_outRule (count : Five) (s : State) (dest : State → Word → Nat → RuleResult)
    (hd : ∀ s' data, (dest s' data (bitCount count)).jump = none) : (outRule count s dest).jump = none := by
  rcases outRule_cases count s dest with ⟨_, hr⟩ | ⟨_, hr⟩ | ⟨osr, cnt, tx, _, hr⟩ <;> rw [hr]
  · rfl
  · rfl
  · exact hd _ _

theorem jump_pushRule (iffull block : Bool) (s : State) : (pushRule iffull block s).jump = none := by
  rcases pushRule_cases iffull block s with
    ⟨_, _, hr⟩ | ⟨_, ⟨_, _, hr⟩ | ⟨_, _, _, hr⟩ | ⟨_, _, _, hr⟩ | ⟨_, hr⟩⟩ <;> rw [hr] <;> rfl

theorem jump_pullRule (ifempty block : Bool) (s : State) : (pullRule ifempty block s).jump = none := by
  rcases pullRule_cases ifempty block s with
    ⟨_, hr⟩ | ⟨_, ⟨_, _, hr⟩ | ⟨_, _, _, hr⟩ | ⟨_, _, _, hr⟩ | ⟨w, rest, _, hr⟩⟩ <;> rw [hr] <;> rfl

theorem jump_movRule (op : MovOp) (src : MovSrc) (s : State) (dest : Word → RuleResult)
    (hd : ∀ r, (dest r).jump = none) : (movRule op src s dest).jump = none := by
  rcases movRule_cases op src s dest with ⟨_, hr⟩ | ⟨v, _, hr⟩ <;> rw [hr]
  · rfl
  · exact hd _

theorem jump_irqRule (wait : Bool) (index : Five) (s : State) : (irqRule wait index s).jump = none := by
  rcases irqRule_cases wait index s with
    ⟨_, hr⟩ | ⟨f, _, ⟨_, _, hr⟩ | ⟨_, _, hr⟩ | ⟨_, _, hr⟩ | ⟨_, _, hr⟩⟩ <;> rw [hr] <;> rfl

theorem jump_irqClearRule (index : Five) (s : State) : (irqClearRule index s).jump = none := by
  rcases irqClearRule_cases index s with ⟨_, hr⟩ | ⟨f, _, hr⟩ <;> rw [hr] <;> rfl

/-- Every instruction is the end of a tick around its rule. -/
theorem exec_eq_finishTick (i : Instr) (s : State) : exec i s = finishTick (encode i) i.ds s (ruleOf i s) := by
  cases i <;> rfl

/-- The rule of an instruction is an effect wherever it answers a state, and jumps only where the instruction may. -/
theorem ruleOf_effect (i : Instr) (s : State) : (ruleOf i s).All (Effect s) ∧ MayJump i (ruleOf i s).jump := by
  have keep : ∀ {m : Sm}, SameConfig m m := ⟨rfl, rfl, rfl, rfl⟩
  have outPins : ∀ {s' : State} (v : Word), Effect s s' → Effect s (s'.outPinsWrite v) := fun v h =>
    h.of_me (h.frame.padOut _) rfl
  have outPindirs : ∀ {s' : State} (v : Word), Effect s s' → Effect s (s'.outPindirsWrite v) := fun v h =>
    h.of_me (h.frame.padOe _) rfl
  have setReg : ∀ {m : Sm}, SameConfig s.me m → m.pc = s.me.pc → m.delayCount = s.me.delayCount →
      m.pending = s.me.pending → m.edgePrev = s.me.edgePrev → m.faultRec = s.me.faultRec → m.tx = s.me.tx →
      m.rx = s.me.rx → (s.me.isrCount ≤ 32 → m.isrCount ≤ 32) → (s.me.osrCount ≤ 32 → m.osrCount ≤ 32) →
      Effect s (s.setMe m) := fun hc hp hd hpe he hf ht hr hi ho =>
    .setMe ((SmEffect.refl s.me).ofFields hc hp hd hpe he hf ht hr hi ho)
  cases i with
  | jmpAlways ds addr =>
    simp only [ruleOf, ruleJmpAlways]
    exact ⟨effect_jmpRule _ _ _ _ (.refl s), jump_jmpRule _ _ _⟩
  | jmpPin ds addr =>
    simp only [ruleOf, ruleJmpPin]
    exact ⟨effect_jmpRule _ _ _ _ (.refl s), jump_jmpRule _ _ _⟩
  | jmpNotOsre ds addr =>
    simp only [ruleOf, ruleJmpNotOsre]
    exact ⟨effect_jmpRule _ _ _ _ (.refl s), jump_jmpRule _ _ _⟩
  | jmpNotX | jmpNotY | jmpXNeY =>
    simp only [ruleOf, ruleJmpNotX, ruleJmpNotY, ruleJmpXNeY]
    exact ⟨effect_jmpRule _ _ _ _ (.refl s), jump_jmpRule _ _ _⟩
  | jmpXDec | jmpYDec =>
    simp only [ruleOf, ruleJmpXDec, ruleJmpYDec]
    exact ⟨effect_jmpRule _ _ _ _ (setReg keep rfl rfl rfl rfl rfl rfl rfl id id), jump_jmpRule _ _ _⟩
  | waitGpio | waitPin | waitEdge =>
    simp only [ruleOf, ruleWaitGpio, ruleWaitPin, ruleWaitEdge]
    exact ⟨effect_waitRule _ _, jump_waitRule _ _⟩
  | waitIrq ds pol index =>
    simp only [ruleOf, ruleWaitIrq]
    cases irqIndex index s.active with
    | none => exact ⟨trivial, rfl⟩
    | some f =>
      by_cases h : s.irqFlag f = pol
      · simp only [h]
        cases pol with
        | true => exact ⟨(Effect.refl s).of_me ((TickFrame.refl s).clearIrq f) rfl, rfl⟩
        | false => exact ⟨.refl s, rfl⟩
      · simp only [h]
        exact ⟨.refl s, rfl⟩
  | inPins | inX | inY | inNull | inIsr | inOsr =>
    simp only [ruleOf, ruleInPins, ruleInX, ruleInY, ruleInNull, ruleInIsr, ruleInOsr]
    exact ⟨effect_inRule _ _ _, jump_inRule _ _ _⟩
  | outPins =>
    simp only [ruleOf, ruleOutPins]
    exact ⟨effect_outRule _ _ _ fun s' _ h => outPins _ h, jump_outRule _ _ _ fun _ _ => rfl⟩
  | outPindirs =>
    simp only [ruleOf, ruleOutPindirs]
    exact ⟨effect_outRule _ _ _ fun s' _ h => outPindirs _ h, jump_outRule _ _ _ fun _ _ => rfl⟩
  | outNull | outExec =>
    simp only [ruleOf, ruleOutNull, ruleOutExec]
    exact ⟨effect_outRule _ _ _ fun s' _ h => h, jump_outRule _ _ _ fun _ _ => rfl⟩
  | outPc =>
    simp only [ruleOf, ruleOutPc]
    exact ⟨effect_outRule _ _ _ fun s' _ h => h, trivial⟩
  | outX | outY =>
    simp only [ruleOf, ruleOutX, ruleOutY]
    exact ⟨effect_outRule _ _ _ fun s' _ h => h.setMe_on (h.me.ofFields keep rfl rfl rfl rfl rfl rfl rfl id id),
      jump_outRule _ _ _ fun _ _ => rfl⟩
  | outIsr ds count =>
    simp only [ruleOf, ruleOutIsr]
    exact ⟨effect_outRule _ _ _ fun s' _ h =>
      h.setMe_on (h.me.ofFields keep rfl rfl rfl rfl rfl rfl rfl (fun _ => bitCount_le count) id),
      jump_outRule _ _ _ fun _ _ => rfl⟩
  | push =>
    simp only [ruleOf, rulePush]
    exact ⟨effect_pushRule _ _ _, jump_pushRule _ _ _⟩
  | pull =>
    simp only [ruleOf, rulePull]
    exact ⟨effect_pullRule _ _ _, jump_pullRule _ _ _⟩
  | nop =>
    simp only [ruleOf, ruleNop]
    exact ⟨Effect.refl s, rfl⟩
  | movPins =>
    simp only [ruleOf, ruleMovPins]
    exact ⟨effect_movRule _ _ _ _ fun _ => outPins _ (.refl s), jump_movRule _ _ _ _ fun _ => rfl⟩
  | movX | movY =>
    simp only [ruleOf, ruleMovX, ruleMovY]
    split
    · exact ⟨Effect.refl s, rfl⟩
    · exact ⟨effect_movRule _ _ _ _ fun _ => setReg keep rfl rfl rfl rfl rfl rfl rfl id id,
        jump_movRule _ _ _ _ fun _ => rfl⟩
  | movExec =>
    simp only [ruleOf, ruleMovExec]
    exact ⟨effect_movRule _ _ _ _ fun _ => Effect.refl s, jump_movRule _ _ _ _ fun _ => rfl⟩
  | movPc =>
    simp only [ruleOf, ruleMovPc]
    exact ⟨effect_movRule _ _ _ _ fun _ => Effect.refl s, trivial⟩
  | movIsr =>
    simp only [ruleOf, ruleMovIsr]
    exact ⟨effect_movRule _ _ _ _ fun _ => setReg keep rfl rfl rfl rfl rfl rfl rfl (fun _ => Nat.zero_le _) id,
      jump_movRule _ _ _ _ fun _ => rfl⟩
  | movOsr =>
    simp only [ruleOf, ruleMovOsr]
    exact ⟨effect_movRule _ _ _ _ fun _ => setReg keep rfl rfl rfl rfl rfl rfl rfl id (fun _ => Nat.zero_le _),
      jump_movRule _ _ _ _ fun _ => rfl⟩
  | irqSet | irqWait =>
    simp only [ruleOf, ruleIrqSet, ruleIrqWait]
    exact ⟨effect_irqRule _ _ _, jump_irqRule _ _ _⟩
  | irqClear =>
    simp only [ruleOf, ruleIrqClear]
    exact ⟨effect_irqClearRule _ _, jump_irqClearRule _ _⟩
  | setPins ds data =>
    simp only [ruleOf, ruleSetPins]
    exact ⟨(Effect.refl s).of_me ((TickFrame.refl s).padOut _) rfl, rfl⟩
  | setPindirs ds data =>
    simp only [ruleOf, ruleSetPindirs]
    exact ⟨(Effect.refl s).of_me ((TickFrame.refl s).padOe _) rfl, rfl⟩
  | setX ds data =>
    simp only [ruleOf, ruleSetX]
    exact ⟨setReg keep rfl rfl rfl rfl rfl rfl rfl id id, rfl⟩
  | setY ds data =>
    simp only [ruleOf, ruleSetY]
    exact ⟨setReg keep rfl rfl rfl rfl rfl rfl rfl id id, rfl⟩

/-- A rule that stalls leaves the executing state machine as it is, but for the latch of an `irq wait`. -/
def RuleResult.StallKeeps (s : State) (r : RuleResult) : Prop :=
  ∀ u, r = .stall u → u.me = { s.me with irqWaiting := u.me.irqWaiting }

theorem stallKeeps_stall {s u : State} (h : u.me = { s.me with irqWaiting := u.me.irqWaiting }) :
    (RuleResult.stall u).StallKeeps s := fun _ e => by cases e; exact h

theorem stallKeeps_complete {s u : State} {j : Option Five} {e : Option InstrWord} :
    (RuleResult.complete u j e).StallKeeps s := fun _ h => by cases h

theorem stallKeeps_unwritten {s : State} : RuleResult.unwritten.StallKeeps s := fun _ h => by cases h

theorem stallKeeps_refuse {s : State} {r : Refusal} : (RuleResult.refuse r).StallKeeps s := fun _ h => by cases h

theorem stallKeeps_jmpRule (addr : Five) (s s' : State) (cond : Option Bool) : (jmpRule addr s' cond).StallKeeps s := by
  rcases jmpRule_cases addr s' cond with ⟨_, hr⟩ | ⟨b, _, hr⟩ <;> rw [hr]
  · exact stallKeeps_unwritten
  · exact stallKeeps_complete

theorem stallKeeps_waitRule (s : State) (cond : Bool) : (waitRule s cond).StallKeeps s := by
  cases cond
  · exact stallKeeps_stall rfl
  · exact stallKeeps_complete

theorem stallKeeps_inRule (count : Five) (s : State) (src : Option Word) : (inRule count s src).StallKeeps s := by
  rcases inRule_cases count s src with ⟨_, hr⟩ | ⟨v, _, _, _, _, hr⟩ | ⟨v, _, _, _, _, hr⟩ | ⟨v, _, _, hr⟩ <;> rw [hr]
  · exact stallKeeps_unwritten
  · exact stallKeeps_stall rfl
  · exact stallKeeps_complete
  · exact stallKeeps_complete

theorem stallKeeps_outRule (count : Five) (s : State) (dest : State → Word → Nat → RuleResult)
    (hd : ∀ s' data n, (dest s' data n).StallKeeps s) : (outRule count s dest).StallKeeps s := by
  rcases outRule_cases count s dest with ⟨_, hr⟩ | ⟨_, hr⟩ | ⟨osr, cnt, tx, _, hr⟩ <;> rw [hr]
  · exact stallKeeps_stall rfl
  · exact stallKeeps_unwritten
  · exact hd _ _ _

theorem stallKeeps_pushRule (iffull block : Bool) (s : State) : (pushRule iffull block s).StallKeeps s := by
  rcases pushRule_cases iffull block s with
    ⟨_, _, hr⟩ | ⟨_, ⟨_, _, hr⟩ | ⟨_, _, _, hr⟩ | ⟨_, _, _, hr⟩ | ⟨_, hr⟩⟩ <;> rw [hr]
  · exact stallKeeps_complete
  · exact stallKeeps_stall rfl
  · exact stallKeeps_complete
  · exact stallKeeps_complete
  · exact stallKeeps_complete

theorem stallKeeps_pullRule (ifempty block : Bool) (s : State) : (pullRule ifempty block s).StallKeeps s := by
  rcases pullRule_cases ifempty block s with
    ⟨_, hr⟩ | ⟨_, ⟨_, _, hr⟩ | ⟨_, _, _, hr⟩ | ⟨_, _, _, hr⟩ | ⟨w, rest, _, hr⟩⟩ <;> rw [hr]
  · exact stallKeeps_complete
  · exact stallKeeps_stall rfl
  · exact stallKeeps_unwritten
  · exact stallKeeps_complete
  · exact stallKeeps_complete

theorem stallKeeps_movRule (op : MovOp) (src : MovSrc) (s : State) (dest : Word → RuleResult)
    (hd : ∀ r, (dest r).StallKeeps s) : (movRule op src s dest).StallKeeps s := by
  rcases movRule_cases op src s dest with ⟨_, hr⟩ | ⟨v, _, hr⟩ <;> rw [hr]
  · exact stallKeeps_unwritten
  · exact hd _

theorem stallKeeps_irqRule (wait : Bool) (index : Five) (s : State) : (irqRule wait index s).StallKeeps s := by
  rcases irqRule_cases wait index s with
    ⟨_, hr⟩ | ⟨f, _, ⟨_, _, hr⟩ | ⟨_, _, hr⟩ | ⟨_, _, hr⟩ | ⟨_, _, hr⟩⟩ <;> rw [hr]
  · exact stallKeeps_refuse
  · exact stallKeeps_stall rfl
  · exact stallKeeps_complete
  · exact stallKeeps_stall (by simp)
  · exact stallKeeps_complete

theorem stallKeeps_ruleOf (i : Instr) (s : State) : (ruleOf i s).StallKeeps s := by
  cases i with
  | jmpAlways | jmpNotX | jmpXDec | jmpNotY | jmpYDec | jmpXNeY | jmpPin | jmpNotOsre =>
    simp only [ruleOf, ruleJmpAlways, ruleJmpNotX, ruleJmpXDec, ruleJmpNotY, ruleJmpYDec, ruleJmpXNeY, ruleJmpPin, ruleJmpNotOsre]
    exact stallKeeps_jmpRule _ _ _ _
  | waitGpio | waitPin | waitEdge =>
    simp only [ruleOf, ruleWaitGpio, ruleWaitPin, ruleWaitEdge]
    exact stallKeeps_waitRule _ _
  | waitIrq ds pol index =>
    simp only [ruleOf, ruleWaitIrq]
    split
    · exact stallKeeps_refuse
    · split
      · exact stallKeeps_complete
      · exact stallKeeps_stall rfl
  | inPins | inX | inY | inNull | inIsr | inOsr =>
    simp only [ruleOf, ruleInPins, ruleInX, ruleInY, ruleInNull, ruleInIsr, ruleInOsr]
    exact stallKeeps_inRule _ _ _
  | outPins | outX | outY | outNull | outPindirs | outPc | outIsr | outExec =>
    simp only [ruleOf, ruleOutPins, ruleOutX, ruleOutY, ruleOutNull, ruleOutPindirs, ruleOutPc, ruleOutIsr, ruleOutExec]
    exact stallKeeps_outRule _ _ _ fun _ _ _ => stallKeeps_complete
  | push =>
    simp only [ruleOf, rulePush]
    exact stallKeeps_pushRule _ _ _
  | pull =>
    simp only [ruleOf, rulePull]
    exact stallKeeps_pullRule _ _ _
  | nop | setPins | setX | setY | setPindirs =>
    simp only [ruleOf, ruleNop, ruleSetPins, ruleSetX, ruleSetY, ruleSetPindirs]
    exact stallKeeps_complete
  | movPins | movExec | movPc | movIsr | movOsr =>
    simp only [ruleOf, ruleMovPins, ruleMovExec, ruleMovPc, ruleMovIsr, ruleMovOsr]
    exact stallKeeps_movRule _ _ _ _ fun _ => stallKeeps_complete
  | movX | movY =>
    simp only [ruleOf, ruleMovX, ruleMovY]
    split
    · exact stallKeeps_complete
    · exact stallKeeps_movRule _ _ _ _ fun _ => stallKeeps_complete
  | irqSet | irqWait =>
    simp only [ruleOf, ruleIrqSet, ruleIrqWait]
    exact stallKeeps_irqRule _ _ _
  | irqClear ds wait index =>
    show (irqClearRule index s).StallKeeps s
    rcases irqClearRule_cases index s with ⟨_, hr⟩ | ⟨f, _, hr⟩ <;> rw [hr]
    · exact stallKeeps_refuse
    · exact stallKeeps_complete

/-- Every instruction is the end of a tick around a rule that is an effect and jumps only where it may. -/
theorem exec_effect (i : Instr) (s : State) :
    ∃ r, exec i s = finishTick (encode i) i.ds s r ∧ r.All (Effect s) ∧ MayJump i r.jump :=
  ⟨_, exec_eq_finishTick i s, ruleOf_effect i s⟩

end Sys2Proof.Machine
end

