-- ==== Sys2Proof/Laws/Memory.lean ====
section
/-! SUPPORT. Platform memory: what a byte reads as after a store, and that every operation keeps the canonical form. -/

namespace Sys2Proof.Machine

open Sys2Proof

/-- A stored byte reads back, every other address reads as before. -/
theorem Memory.byteAt_setByte (m : Memory) (a b : Nat) (v : Byte) :
    (Memory.setByte m a v).byteAt b = if b = a then some v else Memory.byteAt m b := by
  induction m with
  | nil => simp [Memory.setByte, Memory.byteAt]
  | cons cell rest ih =>
    obtain ⟨c, u⟩ := cell
    simp only [Memory.setByte]
    split
    · simp [Memory.byteAt]
    · split
      · rename_i h; subst h
        by_cases hb : b = a <;> simp [Memory.byteAt, hb]
      · rename_i h1 h2
        simp only [Memory.byteAt, ih]
        by_cases hbc : b = c
        · subst hbc
          have : b ≠ a := fun e => h2 e.symm
          simp [this]
        · simp [hbc]

theorem Memory.mem_keys_setByte (m : Memory) (a : Nat) (v : Byte) (x : Nat) :
    x ∈ (Memory.setByte m a v).map Prod.fst ↔ x = a ∨ x ∈ m.map Prod.fst := by
  induction m with
  | nil => simp [Memory.setByte]
  | cons cell rest ih =>
    obtain ⟨c, u⟩ := cell
    simp only [Memory.setByte]
    split
    · simp
    · split
      · rename_i h; subst h; simp
      · simp only [List.map_cons, List.mem_cons, ih]
        tauto

theorem Memory.wf_iff (m : Memory) :
    m.wf = true ↔ (m.map Prod.fst).Pairwise (· < ·) ∧ ∀ x ∈ m.map Prod.fst, x < 2 ^ 32 := by
  simp [Memory.wf, List.all_eq_true]

theorem Memory.setByte_sorted (m : Memory) (a : Nat) (v : Byte) (h : (m.map Prod.fst).Pairwise (· < ·)) :
    ((Memory.setByte m a v).map Prod.fst).Pairwise (· < ·) := by
  induction m with
  | nil => simp [Memory.setByte]
  | cons cell rest ih =>
    obtain ⟨c, u⟩ := cell
    simp only [List.map_cons, List.pairwise_cons] at h
    simp only [Memory.setByte]
    split
    · rename_i hac
      simp only [List.map_cons, List.pairwise_cons]
      refine ⟨?_, h⟩
      intro x hx
      rcases List.mem_cons.1 hx with rfl | hx
      · exact hac
      · exact Nat.lt_trans hac (h.1 x hx)
    · split
      · rename_i h2; subst h2
        simp only [List.map_cons, List.pairwise_cons]
        exact h
      · rename_i h1 h2
        simp only [List.map_cons, List.pairwise_cons]
        refine ⟨?_, ih h.2⟩
        intro x hx
        rcases (Memory.mem_keys_setByte rest a v x).1 hx with rfl | hx
        · omega
        · exact h.1 x hx

/-- Storing a byte keeps the canonical form. -/
theorem Memory.wf_setByte (m : Memory) (a : Nat) (v : Byte) (h : m.wf = true) (ha : a < 2 ^ 32) :
    (Memory.setByte m a v).wf = true := by
  rw [Memory.wf_iff] at h ⊢
  refine ⟨Memory.setByte_sorted m a v h.1, ?_⟩
  intro x hx
  rcases (Memory.mem_keys_setByte m a v x).1 hx with rfl | hx
  · exact ha
  · exact h.2 x hx

/-- Storing bytes keeps the canonical form. -/
theorem Memory.wf_setBytes (l : List Byte) (m : Memory) (a : Nat) (h : m.wf = true) (ha : a + l.length ≤ 2 ^ 32) :
    (Memory.setBytes m a l).wf = true := by
  induction l generalizing m a with
  | nil => exact h
  | cons v rest ih =>
    simp only [List.length_cons] at ha
    exact ih _ _ (Memory.wf_setByte m a v h (by omega)) (by omega)

/-- A byte outside the stored range reads as before, one inside reads as stored. -/
theorem Memory.byteAt_setBytes (l : List Byte) (m : Memory) (a b : Nat) :
    (Memory.setBytes m a l).byteAt b =
      if a ≤ b ∧ b < a + l.length then l[b - a]? else Memory.byteAt m b := by
  induction l generalizing m a with
  | nil => simp [Memory.setBytes]
  | cons v rest ih =>
    rw [Memory.setBytes, ih, Memory.byteAt_setByte]
    by_cases h : b = a
    · subst h; simp
    · by_cases h1 : a + 1 ≤ b ∧ b < a + 1 + rest.length
      · have h2 : a ≤ b ∧ b < a + (v :: rest).length := by simp only [List.length_cons]; omega
        have h3 : b - a = (b - (a + 1)) + 1 := by omega
        rw [if_pos h1, if_pos h2, h3, List.getElem?_cons_succ]
      · have h2 : ¬(a ≤ b ∧ b < a + (v :: rest).length) := by simp only [List.length_cons]; omega
        rw [if_neg h1, if_neg h2, if_neg h]

@[simp] theorem length_bytesOf (size : AccessSize) (v : Word) : (bytesOf size v).length = size.bytes := by
  cases size <;> rfl

end Sys2Proof.Machine
end

