-- ==== Sys2Proof/Laws/Invariant.lean ====
section
/-! SUPPORT. The invariant under each shared operation: the tick of one instruction, the registers' writes and reads,
the memory's writes, the channels' triggers, aborts and phases. -/

namespace Sys2Proof.Machine

open Sys2Proof

theorem Sm.txCap_congr {m m' : Sm} (h : m'.shiftctrl = m.shiftctrl) : m'.txCap = m.txCap := by
  simp only [Sm.txCap, Sm.fjoinTx, Sm.fjoinRx, h]

theorem Sm.rxCap_congr {m m' : Sm} (h : m'.shiftctrl = m.shiftctrl) : m'.rxCap = m.rxCap := by
  simp only [Sm.rxCap, Sm.fjoinTx, Sm.fjoinRx, h]

/-- A FIFO level below the capacity, after a push where the FIFO is not full. -/
theorem length_push_le {l : List Word} {cap : Nat} (h : l.length ≤ cap) (hn : decide (l.length = cap) = false) (w : Word) :
    (l ++ [w]).length ≤ cap := by
  have := of_decide_eq_false hn
  rw [List.length_append, List.length_singleton]
  omega

/-- The state machine's invariant rests on its counts, its FIFOs and its configuration alone. -/
theorem SmInv.congr {m m' : Sm} (h : SmInv m) (hi : m'.isrCount = m.isrCount) (ho : m'.osrCount = m.osrCount)
    (hd : m'.delayCount = m.delayCount) (ht : m'.tx = m.tx) (hr : m'.rx = m.rx) (hc : SameConfig m m') : SmInv m' where
  isrCount := hi ▸ h.isrCount
  osrCount := ho ▸ h.osrCount
  delayCount := hd ▸ h.delayCount
  txLevel := by rw [ht, Sm.txCap_congr hc.2.2.1]; exact h.txLevel
  rxLevel := by rw [hr, Sm.rxCap_congr hc.2.2.1]; exact h.rxLevel
  clkdiv := by rw [hc.1]; exact h.clkdiv
  execctrl := by rw [hc.2.1]; exact h.execctrl
  shiftctrl := by rw [hc.2.2.1]; exact h.shiftctrl

/-- A rule's effect on the executing state machine keeps its invariant, whatever delay the end of the tick loads. -/
theorem SmInv.of_effect {m m' m'' : Sm} (h : SmInv m) (he : SmEffect m m') (hi : m''.isrCount = m'.isrCount)
    (ho : m''.osrCount = m'.osrCount) (ht : m''.tx = m'.tx) (hr : m''.rx = m'.rx) (hc : SameConfig m' m'')
    (hd : m''.delayCount ≤ 31) : SmInv m'' where
  isrCount := hi ▸ he.isrCount h.isrCount
  osrCount := ho ▸ he.osrCount h.osrCount
  delayCount := hd
  txLevel := by
    have hl := h.txLevel
    rw [ht, Sm.txCap_congr hc.2.2.1, Sm.txCap_congr he.config.2.2.1]
    rcases he.tx with e | ⟨w, e⟩
    · rw [e]; exact hl
    · rw [e, List.length_cons] at hl; omega
  rxLevel := by
    have hl := h.rxLevel
    rw [hr, Sm.rxCap_congr hc.2.2.1, Sm.rxCap_congr he.config.2.2.1]
    rcases he.rx with e | ⟨hf, w, e⟩
    · rw [e]; exact hl
    · rw [e]; exact length_push_le hl hf w
  clkdiv := by rw [hc.1, he.config.1]; exact h.clkdiv
  execctrl := by rw [hc.2.1, he.config.2.1]; exact h.execctrl
  shiftctrl := by rw [hc.2.2.1, he.config.2.2.1]; exact h.shiftctrl

/-- The delay of an instruction is at most 31. -/
theorem dsSplit_delay_le (m : Sm) (ds : Five) : (dsSplit m ds).delay ≤ 31 := by
  have := ds.isLt
  have h : (dsSplit m ds).delay = ds.toNat % 2 ^ (5 - m.sidesetCount) := by
    simp only [dsSplit]
    split <;> rfl
  rw [h]
  exact Nat.le_trans (Nat.mod_le _ _) (by omega)

/-- One state machine replaced by one that keeps its invariant. -/
theorem State.Inv.setSm {s : State} (h : s.Inv) (k : SmId) {m : Sm} (hm : SmInv m) : (s.setSm k m).Inv where
  sms := fun j => by rw [State.sm_setSm]; split; exacts [hm, h.sms j]
  channels := h.channels
  mem := h.mem

/-- Every state machine replaced by one that keeps its invariant. -/
theorem State.Inv.mapSms {s : State} (h : s.Inv) {f : SmId → Sm → Sm} (hf : ∀ k, SmInv (f k (s.sm k))) :
    (s.mapSms f).Inv :=
  (((h.setSm 0 (hf 0)).setSm 1 (hf 1)).setSm 2 (hf 2)).setSm 3 (hf 3)

/-- A change outside the state machines, the channels and the memory. -/
theorem State.Inv.of_same {s t : State} (h : s.Inv) (hs : t.sms = s.sms) (hc : t.channels = s.channels)
    (hm : t.mem = s.mem) : t.Inv where
  sms := fun k => by have := h.sms k; simpa only [State.sm, hs] using this
  channels := by rw [hc]; exact h.channels
  mem := by rw [hm]; exact h.mem

/-- Everything an effect, an end of a tick, or the fault can do to the machine keeps the invariant. -/
theorem State.Inv.of_frame {s t : State} (h : s.Inv) (hf : TickFrame s t) (hmem : t.mem = s.mem) (hm : SmInv t.me) :
    t.Inv where
  sms := fun k => by
    by_cases hk : k = s.active
    · have : t.sm k = t.me := by rw [State.me, hf.active, hk]
      rw [this]; exact hm
    · rw [hf.others k hk]; exact h.sms k
  channels := by rw [hf.channels]; exact h.channels
  mem := by rw [hmem]; exact h.mem

/-- A register write keeps the invariant. -/
theorem State.Inv.seqWrite {s t : State} (h : s.Inv) {a : Agent} {v : Word} {r : SeqReg}
    (hw : s.seqWrite a v r = .ok t) : t.Inv := by
  have keep : ∀ {m : Sm}, SameConfig m m := ⟨rfl, rfl, rfl, rfl⟩
  cases r with
  | ctrl =>
    have hr : ∀ k (b : Bool), SmInv (if b then (s.sm k).restart else s.sm k) := by
      intro k b
      have hk := h.sms k
      cases b
      · exact hk
      · exact ⟨Nat.zero_le _, Nat.le_refl 32, Nat.zero_le _, hk.txLevel, hk.rxLevel, hk.clkdiv, hk.execctrl, hk.shiftctrl⟩
    exact (Except.ok.inj hw) ▸ State.Inv.of_same (h.mapSms fun k => hr k (v.getLsbD (4 + k.val))) rfl rfl rfl
  | txf n =>
    rw [← Except.ok.inj hw, State.pushTx]
    cases hf : (s.sm n).txFull with
    | true => exact h.of_same rfl rfl rfl
    | false =>
      have hn := h.sms n
      exact h.setSm n
        ⟨hn.isrCount, hn.osrCount, hn.delayCount, length_push_le hn.txLevel hf v, hn.rxLevel, hn.clkdiv, hn.execctrl,
          hn.shiftctrl⟩
  | instrMem i =>
    simp only [State.seqWrite] at hw
    split at hw
    · cases hw
    · exact (Except.ok.inj hw) ▸ h.of_same rfl rfl rfl
  | smClkdiv n =>
    have hn := h.sms n
    exact (Except.ok.inj hw) ▸ h.setSm n
      ⟨hn.isrCount, hn.osrCount, hn.delayCount, hn.txLevel, hn.rxLevel, by simp [clkdivStored, BitVec.and_assoc], hn.execctrl,
        hn.shiftctrl⟩
  | smExecctrl n =>
    have hn := h.sms n
    exact (Except.ok.inj hw) ▸ h.setSm n
      ⟨hn.isrCount, hn.osrCount, hn.delayCount, hn.txLevel, hn.rxLevel, hn.clkdiv, by simp [execctrlStored, BitVec.and_assoc],
        hn.shiftctrl⟩
  | smShiftctrl n =>
    have hn := h.sms n
    have hst : shiftctrlStored (shiftctrlStored v) = shiftctrlStored v := by simp [shiftctrlStored, BitVec.and_assoc]
    rw [← Except.ok.inj hw, Sm.writeShiftctrl]
    split
    · rename_i hj
      have h1 : (shiftctrlStored v).getLsbD 31 = (s.sm n).shiftctrl.getLsbD 31 := by
        rw [shiftctrlStored, BitVec.getLsbD_and, show (0xFFFF0000#32).getLsbD 31 = true from rfl, Bool.and_true]
        exact hj.1
      have h2 : (shiftctrlStored v).getLsbD 30 = (s.sm n).shiftctrl.getLsbD 30 := by
        rw [shiftctrlStored, BitVec.getLsbD_and, show (0xFFFF0000#32).getLsbD 30 = true from rfl, Bool.and_true]
        exact hj.2
      refine h.setSm n ⟨hn.isrCount, hn.osrCount, hn.delayCount, ?_, ?_, hn.clkdiv, hn.execctrl, hst⟩
      · have := hn.txLevel
        simp only [Sm.txCap, Sm.fjoinTx, Sm.fjoinRx, h1, h2] at this ⊢
        exact this
      · have := hn.rxLevel
        simp only [Sm.rxCap, Sm.fjoinTx, Sm.fjoinRx, h1, h2] at this ⊢
        exact this
    · exact h.setSm n
        ⟨hn.isrCount, hn.osrCount, hn.delayCount, Nat.zero_le _, Nat.zero_le _, hn.clkdiv, hn.execctrl, hst⟩
  | smInstr n =>
    simp only [State.seqWrite] at hw
    split at hw
    · cases hw
    · exact (Except.ok.inj hw) ▸ h.setSm n ((h.sms n).congr rfl rfl rfl rfl rfl keep)
  | smPinctrl n =>
    have hn := h.sms n
    exact (Except.ok.inj hw) ▸ h.setSm n
      ⟨hn.isrCount, hn.osrCount, hn.delayCount, hn.txLevel, hn.rxLevel, hn.clkdiv, hn.execctrl, hn.shiftctrl⟩
  | _ => exact (Except.ok.inj hw) ▸ h.of_same rfl rfl rfl

/-- A register read keeps the invariant. -/
theorem State.Inv.afterSeqRead {s : State} (h : s.Inv) (r : SeqReg) : (s.afterSeqRead r).Inv := by
  cases r with
  | rxf n =>
    simp only [State.afterSeqRead, State.popRx]
    have hn := h.sms n
    have hl := hn.rxLevel
    split
    · exact h.of_same rfl rfl rfl
    · rename_i w rest e
      refine h.setSm n
        ⟨hn.isrCount, hn.osrCount, hn.delayCount, hn.txLevel, ?_, hn.clkdiv, hn.execctrl, hn.shiftctrl⟩
      rw [e, List.length_cons] at hl
      exact Nat.le_of_succ_le hl
  | _ => exact h

/-- One channel replaced by one that keeps its invariant. -/
theorem State.Inv.setChan {s : State} (h : s.Inv) {c : Nat} {ch : Channel} (hc : ChannelInv c ch) : (s.setChan c ch).Inv where
  sms := h.sms
  channels := fun d ch' hd => by
    simp only [State.setChan, List.getElem?_set] at hd
    split at hd
    · rename_i e
      subst e
      split at hd
      · exact (Option.some.inj hd) ▸ hc
      · cases hd
    · exact h.channels d ch' hd
  mem := h.mem

/-- One channel updated, where the update keeps the invariant of the channel it meets. -/
theorem State.Inv.updChan {s : State} (h : s.Inv) {c : Nat} {f : Channel → Channel}
    (hf : ∀ ch, ChannelInv c ch → s.channels[c]? = some ch → ChannelInv c (f ch)) : (s.updChan c f).Inv where
  sms := h.sms
  channels := fun d ch' hd => by
    simp only [State.updChan, List.getElem?_modify] at hd
    cases e : s.channels[d]? with
    | none => rw [e] at hd; cases hd
    | some ch =>
      rw [e] at hd
      have hd := Option.some.inj hd
      subst hd
      by_cases hcd : c = d
      · subst hcd
        simp only [if_pos]
        exact hf ch (h.channels c ch e) e
      · simp only [if_neg hcd]
        exact h.channels d ch e
  mem := h.mem

/-- A channel that is idle keeps its invariant, whatever else it holds. -/
theorem ChannelInv.of_idle {c : Nat} {ch : Channel} (hb : ch.busy = false) (hp : ch.phase = .idle) : ChannelInv c ch :=
  { admitted := fun h => by rw [hb] at h; cases h
    remaining := fun h => by rw [hb] at h; cases h
    holding := fun v h => by rw [hp] at h; cases h }

/-- An idle channel holds no word. -/
theorem ChannelInv.phase_of_idle {c : Nat} {ch : Channel} (h : ChannelInv c ch) (hb : ch.busy = false) : ch.phase = .idle := by
  cases hp : ch.phase with
  | idle => rfl
  | hold v => have := h.holding v hp; rw [hb] at this; cases this

/-- A write of CTRL_TRIG of an idle channel keeps its invariant. -/
theorem ChannelInv.writeCtrlTrig {c : Nat} {ch ch' : Channel} (h : ChannelInv c ch) (hb : ch.busy = false) {a : Agent}
    {v : Word} (hw : ch.writeCtrlTrig a c v = .ok ch') : ChannelInv c ch' := by
  simp only [Channel.writeCtrlTrig] at hw
  split at hw
  · exact (Except.ok.inj hw) ▸ ChannelInv.of_idle hb (h.phase_of_idle hb)
  · split at hw
    · rename_i ha
      rw [Bool.and_eq_true] at ha
      rw [← Except.ok.inj hw]
      refine ⟨fun _ => ha, fun hbusy hm hz => ?_, fun v hp => by cases hp⟩
      have hm' : (ch.storeCtrl v).reloadMode = 0x0#4 := hm
      have hz' : (ch.storeCtrl v).reloadCount = 0 := hz
      simp [Channel.trigger, hm', hz'] at hbusy
    · cases hw

/-- An abort keeps a channel's invariant. -/
theorem ChannelInv.abort {c : Nat} {ch : Channel} (h : ChannelInv c ch) : ChannelInv c ch.abort := by
  simp only [Channel.abort]
  split
  · split
    · rename_i hp
      exact ChannelInv.of_idle rfl hp
    · exact ⟨h.admitted, h.remaining, h.holding⟩
  · exact h

/-- A write of an engine register keeps the invariant. -/
theorem State.Inv.xferWrite {s t : State} (h : s.Inv) {a : Agent} {v : Word} {r : XferReg}
    (hw : s.xferWrite a v r = .ok t) : t.Inv := by
  have hchan : ∀ {c : Nat} {f : Channel → Except Refusal Channel},
      (∀ ch ch', ChannelInv c ch → ch.busy = false → f ch = .ok ch' → ChannelInv c ch') → s.writeChan a c f = .ok t → t.Inv := by
    intro c f hf hw
    simp only [State.writeChan] at hw
    split at hw
    · cases hw
    · rename_i ch e
      split at hw
      · cases hw
      · rename_i hb
        split at hw
        · rename_i ch' e'
          exact (Except.ok.inj hw) ▸ h.setChan (hf ch ch' (h.channels c ch e) (by simpa using hb) e')
        · cases hw
  cases r with
  | readAddr c =>
    exact hchan (f := fun ch => .ok { ch with readAddr := v })
      (fun ch ch' hc _ e => (Except.ok.inj e) ▸ ⟨hc.admitted, hc.remaining, hc.holding⟩) hw
  | writeAddr c =>
    exact hchan (f := fun ch => .ok { ch with writeAddr := v })
      (fun ch ch' hc _ e => (Except.ok.inj e) ▸ ⟨hc.admitted, hc.remaining, hc.holding⟩) hw
  | transCount c =>
    exact hchan (f := fun ch => .ok { ch with countReload := v })
      (fun ch ch' hc _ e => (Except.ok.inj e) ▸ ⟨hc.admitted, hc.remaining, hc.holding⟩) hw
  | ctrlTrig c => exact hchan (fun ch ch' hc hb e => hc.writeCtrlTrig hb e) hw
  | chanAbort =>
    rw [← Except.ok.inj hw]
    refine ⟨h.sms, fun c ch hc => ?_, h.mem⟩
    simp only [List.getElem?_mapIdx] at hc
    cases e : s.channels[c]? with
    | none => rw [e] at hc; cases hc
    | some ch' =>
      rw [e] at hc
      rw [← Option.some.inj hc]
      have := h.channels c ch' e
      split
      · exact this.abort
      · exact this

/-- A write of platform memory keeps the invariant. -/
theorem State.Inv.platformStore {s : State} (h : s.Inv) {addr : Word} {size : AccessSize} (ha : addr.toNat % size.bytes = 0)
    (v : Word) : (s.platformStore addr size v).Inv where
  sms := h.sms
  channels := h.channels
  mem := Memory.wf_setBytes _ _ _ h.mem (by
    have := addr.isLt
    rw [length_bytesOf]
    cases size <;> simp only [AccessSize.bytes] at ha ⊢ <;> omega)

/-- A bus write keeps the invariant. -/
theorem State.Inv.busWrite {s t : State} (h : s.Inv) {a : Agent} {addr : Word} {size : AccessSize} {v : Word}
    (hw : s.busWrite a addr size v = .ok t) : t.Inv := by
  have hreg : ∀ {e : Except Refusal State}, BusWrite.ofRegister e = .ok t → e = .ok t := by
    intro e he
    cases e with
    | ok u => rw [BusWrite.ok.inj he]
    | error r => cases he
  simp only [State.busWrite, State.seqBusWrite, State.xferBusWrite] at hw
  split at hw
  · repeat' split at hw
    all_goals first | cases hw | exact h.seqWrite (hreg hw)
  · repeat' split at hw
    all_goals first | cases hw | exact h.xferWrite (hreg hw)
  · repeat' split at hw
    all_goals cases hw
    rename_i ha _
    exact h.platformStore (by simpa using ha) v

/-- A bus read keeps the invariant. -/
theorem State.Inv.busRead {s t : State} (h : s.Inv) {a : Agent} {addr : Word} {size : AccessSize} {v : Word}
    (hr : s.busRead a addr size = .ok v t) : t.Inv := by
  simp only [State.busRead, State.seqBusRead, State.xferBusRead] at hr
  split at hr
  · repeat' split at hr
    all_goals cases hr
    exact h.afterSeqRead _
  · repeat' split at hr
    all_goals cases hr
    exact h
  · repeat' split at hr
    all_goals cases hr
    exact h

/-- A halted channel keeps its invariant. -/
theorem ChannelInv.halt (c : Nat) (ch : Channel) : ChannelInv c ch.halt := ChannelInv.of_idle rfl rfl

/-- The end of a write phase keeps a channel's invariant. -/
theorem ChannelInv.afterWrite {c : Nat} {ch : Channel} (h : ChannelInv c ch) (aborting : Bool) (size : AccessSize) :
    ChannelInv c (ch.afterWrite aborting size) := by
  simp only [Channel.afterWrite]
  split
  · exact ChannelInv.halt c _
  · split
    · refine ⟨fun hb => h.admitted ?_, fun hb hm hz => ?_, fun v hp => by cases hp⟩
      · simp only at hb
        split at hb
        · cases hb
        · exact hb
      · simp only at hb hz
        rw [if_pos hz] at hb
        cases hb
    · exact ⟨h.admitted, fun hb hm => h.remaining hb hm, fun v hp => by cases hp⟩

end Sys2Proof.Machine
end

