-- ==== Sys2Proof/Laws/PerInstr.lean ====
section
/-! SUPPORT. The family of statements made per instruction: the word of an instruction lies in its row of
spec/opcode_table.json and carries its delay/side-set field. -/

namespace Sys2Proof

/-- The row of spec/opcode_table.json of an instruction: the mask and the match. -/
def tableRow : Instr → InstrWord × InstrWord
  | .jmpAlways _ _ => (0xE0E0#16, 0x0000#16)
  | .jmpNotX _ _ => (0xE0E0#16, 0x0020#16)
  | .jmpXDec _ _ => (0xE0E0#16, 0x0040#16)
  | .jmpNotY _ _ => (0xE0E0#16, 0x0060#16)
  | .jmpYDec _ _ => (0xE0E0#16, 0x0080#16)
  | .jmpXNeY _ _ => (0xE0E0#16, 0x00A0#16)
  | .jmpPin _ _ => (0xE0E0#16, 0x00C0#16)
  | .jmpNotOsre _ _ => (0xE0E0#16, 0x00E0#16)
  | .waitGpio _ _ _ => (0xE060#16, 0x2000#16)
  | .waitPin _ _ _ => (0xE060#16, 0x2020#16)
  | .waitIrq _ _ _ => (0xE060#16, 0x2040#16)
  | .waitEdge _ _ _ => (0xE060#16, 0x2060#16)
  | .inPins _ _ => (0xE0E0#16, 0x4000#16)
  | .inX _ _ => (0xE0E0#16, 0x4020#16)
  | .inY _ _ => (0xE0E0#16, 0x4040#16)
  | .inNull _ _ => (0xE0E0#16, 0x4060#16)
  | .inIsr _ _ => (0xE0E0#16, 0x40C0#16)
  | .inOsr _ _ => (0xE0E0#16, 0x40E0#16)
  | .outPins _ _ => (0xE0E0#16, 0x6000#16)
  | .outX _ _ => (0xE0E0#16, 0x6020#16)
  | .outY _ _ => (0xE0E0#16, 0x6040#16)
  | .outNull _ _ => (0xE0E0#16, 0x6060#16)
  | .outPindirs _ _ => (0xE0E0#16, 0x6080#16)
  | .outPc _ _ => (0xE0E0#16, 0x60A0#16)
  | .outIsr _ _ => (0xE0E0#16, 0x60C0#16)
  | .outExec _ _ => (0xE0E0#16, 0x60E0#16)
  | .push _ _ _ => (0xE09F#16, 0x8000#16)
  | .pull _ _ _ => (0xE09F#16, 0x8080#16)
  | .nop _ => (0xE0FF#16, 0xA042#16)
  | .movPins _ _ _ => (0xE0E0#16, 0xA000#16)
  | .movX _ _ _ => (0xE0E0#16, 0xA020#16)
  | .movY _ _ _ => (0xE0E0#16, 0xA040#16)
  | .movExec _ _ _ => (0xE0E0#16, 0xA080#16)
  | .movPc _ _ _ => (0xE0E0#16, 0xA0A0#16)
  | .movIsr _ _ _ => (0xE0E0#16, 0xA0C0#16)
  | .movOsr _ _ _ => (0xE0E0#16, 0xA0E0#16)
  | .irqSet _ _ => (0xE0E8#16, 0xC000#16)
  | .irqWait _ _ => (0xE0E8#16, 0xC020#16)
  | .irqClear _ _ _ => (0xE0C8#16, 0xC040#16)
  | .setPins _ _ => (0xE0E0#16, 0xE000#16)
  | .setX _ _ => (0xE0E0#16, 0xE020#16)
  | .setY _ _ => (0xE0E0#16, 0xE040#16)
  | .setPindirs _ _ => (0xE0E0#16, 0xE080#16)

/-- Masking a packed word masks its fields. -/
theorem packWord_and (op op' : BitVec 3) (ds ds' : Five) (hi hi' : BitVec 3) (lo lo' : Five) :
    packWord op ds hi lo &&& packWord op' ds' hi' lo' = packWord (op &&& op') (ds &&& ds') (hi &&& hi') (lo &&& lo') := by
  apply BitVec.eq_of_getLsbD_eq
  intro i hi'
  interval_cases i <;> simp only [packWord, BitVec.getLsbD_and, BitVec.getLsbD_append] <;> simp

theorem irqIndexOk_and {index : Five} (h : irqIndexOk index = true) : index &&& 0b01000#5 = 0b00000#5 := by
  revert h; revert index; decide

end Sys2Proof

namespace Sys2Proof.Laws.TableRow

open Sys2Proof

/-- The word of a well-formed instruction matches its row of the opcode table, and bits 12:8 are its delay/side-set
field (30_encoding.md R86 to R97). -/
def Statement (i : Instr) : Prop :=
  i.wf = true → encode i &&& (tableRow i).1 = (tableRow i).2 ∧ (encode i).extractLsb' 8 5 = i.ds

/-- The row of a packed word, from the rows of its fields. -/
theorem of_fields {i : Instr} {op : BitVec 3} {ds : Five} {hi : BitVec 3} {lo : Five} {mhi hi' : BitVec 3} {mlo lo' : Five}
    (henc : encode i = packWord op ds hi lo) (hds : i.ds = ds) (hmask : (tableRow i).1 = packWord 0b111#3 0#5 mhi mlo)
    (hmatch : (tableRow i).2 = packWord op 0#5 hi' lo') (hhi : hi &&& mhi = hi') (hlo : lo &&& mlo = lo') :
    encode i &&& (tableRow i).1 = (tableRow i).2 ∧ (encode i).extractLsb' 8 5 = i.ds := by
  have hop : op &&& 0b111#3 = op := BitVec.and_allOnes
  rw [henc, hmask, hmatch, packWord_and, packWord_ds, hds, hhi, hlo, hop, BitVec.and_zero]
  exact ⟨rfl, rfl⟩

theorem jmpAlways (ds : Five) (addr : Five) :
    Statement (.jmpAlways ds addr) := fun _ =>
  of_fields (mhi := 0b111#3) (hi' := 0b000#3) (mlo := 0b00000#5) (lo' := 0b00000#5)
    rfl rfl rfl rfl rfl BitVec.and_zero

theorem jmpNotX (ds : Five) (addr : Five) :
    Statement (.jmpNotX ds addr) := fun _ =>
  of_fields (mhi := 0b111#3) (hi' := 0b001#3) (mlo := 0b00000#5) (lo' := 0b00000#5)
    rfl rfl rfl rfl rfl BitVec.and_zero

theorem jmpXDec (ds : Five) (addr : Five) :
    Statement (.jmpXDec ds addr) := fun _ =>
  of_fields (mhi := 0b111#3) (hi' := 0b010#3) (mlo := 0b00000#5) (lo' := 0b00000#5)
    rfl rfl rfl rfl rfl BitVec.and_zero

theorem jmpNotY (ds : Five) (addr : Five) :
    Statement (.jmpNotY ds addr) := fun _ =>
  of_fields (mhi := 0b111#3) (hi' := 0b011#3) (mlo := 0b00000#5) (lo' := 0b00000#5)
    rfl rfl rfl rfl rfl BitVec.and_zero

theorem jmpYDec (ds : Five) (addr : Five) :
    Statement (.jmpYDec ds addr) := fun _ =>
  of_fields (mhi := 0b111#3) (hi' := 0b100#3) (mlo := 0b00000#5) (lo' := 0b00000#5)
    rfl rfl rfl rfl rfl BitVec.and_zero

theorem jmpXNeY (ds : Five) (addr : Five) :
    Statement (.jmpXNeY ds addr) := fun _ =>
  of_fields (mhi := 0b111#3) (hi' := 0b101#3) (mlo := 0b00000#5) (lo' := 0b00000#5)
    rfl rfl rfl rfl rfl BitVec.and_zero

theorem jmpPin (ds : Five) (addr : Five) :
    Statement (.jmpPin ds addr) := fun _ =>
  of_fields (mhi := 0b111#3) (hi' := 0b110#3) (mlo := 0b00000#5) (lo' := 0b00000#5)
    rfl rfl rfl rfl rfl BitVec.and_zero

theorem jmpNotOsre (ds : Five) (addr : Five) :
    Statement (.jmpNotOsre ds addr) := fun _ =>
  of_fields (mhi := 0b111#3) (hi' := 0b111#3) (mlo := 0b00000#5) (lo' := 0b00000#5)
    rfl rfl rfl rfl rfl BitVec.and_zero

theorem waitGpio (ds : Five) (pol : Bool) (index : Five) :
    Statement (.waitGpio ds pol index) := fun _ =>
  of_fields (mhi := 0b011#3) (hi' := 0b000#3) (mlo := 0b00000#5) (lo' := 0b00000#5)
    rfl rfl rfl rfl (by cases pol <;> rfl) BitVec.and_zero

theorem waitPin (ds : Five) (pol : Bool) (index : Five) :
    Statement (.waitPin ds pol index) := fun _ =>
  of_fields (mhi := 0b011#3) (hi' := 0b001#3) (mlo := 0b00000#5) (lo' := 0b00000#5)
    rfl rfl rfl rfl (by cases pol <;> rfl) BitVec.and_zero

theorem waitIrq (ds : Five) (pol : Bool) (index : Five) :
    Statement (.waitIrq ds pol index) := fun _ =>
  of_fields (mhi := 0b011#3) (hi' := 0b010#3) (mlo := 0b00000#5) (lo' := 0b00000#5)
    rfl rfl rfl rfl (by cases pol <;> rfl) BitVec.and_zero

theorem waitEdge (ds : Five) (pol : Bool) (index : Five) :
    Statement (.waitEdge ds pol index) := fun _ =>
  of_fields (mhi := 0b011#3) (hi' := 0b011#3) (mlo := 0b00000#5) (lo' := 0b00000#5)
    rfl rfl rfl rfl (by cases pol <;> rfl) BitVec.and_zero

theorem inPins (ds : Five) (count : Five) :
    Statement (.inPins ds count) := fun _ =>
  of_fields (mhi := 0b111#3) (hi' := 0b000#3) (mlo := 0b00000#5) (lo' := 0b00000#5)
    rfl rfl rfl rfl rfl BitVec.and_zero

theorem inX (ds : Five) (count : Five) :
    Statement (.inX ds count) := fun _ =>
  of_fields (mhi := 0b111#3) (hi' := 0b001#3) (mlo := 0b00000#5) (lo' := 0b00000#5)
    rfl rfl rfl rfl rfl BitVec.and_zero

theorem inY (ds : Five) (count : Five) :
    Statement (.inY ds count) := fun _ =>
  of_fields (mhi := 0b111#3) (hi' := 0b010#3) (mlo := 0b00000#5) (lo' := 0b00000#5)
    rfl rfl rfl rfl rfl BitVec.and_zero

theorem inNull (ds : Five) (count : Five) :
    Statement (.inNull ds count) := fun _ =>
  of_fields (mhi := 0b111#3) (hi' := 0b011#3) (mlo := 0b00000#5) (lo' := 0b00000#5)
    rfl rfl rfl rfl rfl BitVec.and_zero

theorem inIsr (ds : Five) (count : Five) :
    Statement (.inIsr ds count) := fun _ =>
  of_fields (mhi := 0b111#3) (hi' := 0b110#3) (mlo := 0b00000#5) (lo' := 0b00000#5)
    rfl rfl rfl rfl rfl BitVec.and_zero

theorem inOsr (ds : Five) (count : Five) :
    Statement (.inOsr ds count) := fun _ =>
  of_fields (mhi := 0b111#3) (hi' := 0b111#3) (mlo := 0b00000#5) (lo' := 0b00000#5)
    rfl rfl rfl rfl rfl BitVec.and_zero

theorem outPins (ds : Five) (count : Five) :
    Statement (.outPins ds count) := fun _ =>
  of_fields (mhi := 0b111#3) (hi' := 0b000#3) (mlo := 0b00000#5) (lo' := 0b00000#5)
    rfl rfl rfl rfl rfl BitVec.and_zero

theorem outX (ds : Five) (count : Five) :
    Statement (.outX ds count) := fun _ =>
  of_fields (mhi := 0b111#3) (hi' := 0b001#3) (mlo := 0b00000#5) (lo' := 0b00000#5)
    rfl rfl rfl rfl rfl BitVec.and_zero

theorem outY (ds : Five) (count : Five) :
    Statement (.outY ds count) := fun _ =>
  of_fields (mhi := 0b111#3) (hi' := 0b010#3) (mlo := 0b00000#5) (lo' := 0b00000#5)
    rfl rfl rfl rfl rfl BitVec.and_zero

theorem outNull (ds : Five) (count : Five) :
    Statement (.outNull ds count) := fun _ =>
  of_fields (mhi := 0b111#3) (hi' := 0b011#3) (mlo := 0b00000#5) (lo' := 0b00000#5)
    rfl rfl rfl rfl rfl BitVec.and_zero

theorem outPindirs (ds : Five) (count : Five) :
    Statement (.outPindirs ds count) := fun _ =>
  of_fields (mhi := 0b111#3) (hi' := 0b100#3) (mlo := 0b00000#5) (lo' := 0b00000#5)
    rfl rfl rfl rfl rfl BitVec.and_zero

theorem outPc (ds : Five) (count : Five) :
    Statement (.outPc ds count) := fun _ =>
  of_fields (mhi := 0b111#3) (hi' := 0b101#3) (mlo := 0b00000#5) (lo' := 0b00000#5)
    rfl rfl rfl rfl rfl BitVec.and_zero

theorem outIsr (ds : Five) (count : Five) :
    Statement (.outIsr ds count) := fun _ =>
  of_fields (mhi := 0b111#3) (hi' := 0b110#3) (mlo := 0b00000#5) (lo' := 0b00000#5)
    rfl rfl rfl rfl rfl BitVec.and_zero

theorem outExec (ds : Five) (count : Five) :
    Statement (.outExec ds count) := fun _ =>
  of_fields (mhi := 0b111#3) (hi' := 0b111#3) (mlo := 0b00000#5) (lo' := 0b00000#5)
    rfl rfl rfl rfl rfl BitVec.and_zero

theorem push (ds : Five) (iffull : Bool) (block : Bool) :
    Statement (.push ds iffull block) := fun _ =>
  of_fields (mhi := 0b100#3) (hi' := 0b000#3) (mlo := 0b11111#5) (lo' := 0b00000#5)
    rfl rfl rfl rfl (by cases iffull <;> cases block <;> rfl) rfl

theorem pull (ds : Five) (ifempty : Bool) (block : Bool) :
    Statement (.pull ds ifempty block) := fun _ =>
  of_fields (mhi := 0b100#3) (hi' := 0b100#3) (mlo := 0b11111#5) (lo' := 0b00000#5)
    rfl rfl rfl rfl (by cases ifempty <;> cases block <;> rfl) rfl

theorem nop (ds : Five) :
    Statement (.nop ds) := fun _ =>
  of_fields (mhi := 0b111#3) (hi' := 0b010#3) (mlo := 0b11111#5) (lo' := 0b00010#5)
    rfl rfl rfl rfl rfl rfl

theorem movPins (ds : Five) (op : MovOp) (src : MovSrc) :
    Statement (.movPins ds op src) := fun _ =>
  of_fields (mhi := 0b111#3) (hi' := 0b000#3) (mlo := 0b00000#5) (lo' := 0b00000#5)
    rfl rfl rfl rfl rfl BitVec.and_zero

theorem movX (ds : Five) (op : MovOp) (src : MovSrc) :
    Statement (.movX ds op src) := fun _ =>
  of_fields (mhi := 0b111#3) (hi' := 0b001#3) (mlo := 0b00000#5) (lo' := 0b00000#5)
    rfl rfl rfl rfl rfl BitVec.and_zero

theorem movY (ds : Five) (op : MovOp) (src : MovSrc) :
    Statement (.movY ds op src) := fun _ =>
  of_fields (mhi := 0b111#3) (hi' := 0b010#3) (mlo := 0b00000#5) (lo' := 0b00000#5)
    rfl rfl rfl rfl rfl BitVec.and_zero

theorem movExec (ds : Five) (op : MovOp) (src : MovSrc) :
    Statement (.movExec ds op src) := fun _ =>
  of_fields (mhi := 0b111#3) (hi' := 0b100#3) (mlo := 0b00000#5) (lo' := 0b00000#5)
    rfl rfl rfl rfl rfl BitVec.and_zero

theorem movPc (ds : Five) (op : MovOp) (src : MovSrc) :
    Statement (.movPc ds op src) := fun _ =>
  of_fields (mhi := 0b111#3) (hi' := 0b101#3) (mlo := 0b00000#5) (lo' := 0b00000#5)
    rfl rfl rfl rfl rfl BitVec.and_zero

theorem movIsr (ds : Five) (op : MovOp) (src : MovSrc) :
    Statement (.movIsr ds op src) := fun _ =>
  of_fields (mhi := 0b111#3) (hi' := 0b110#3) (mlo := 0b00000#5) (lo' := 0b00000#5)
    rfl rfl rfl rfl rfl BitVec.and_zero

theorem movOsr (ds : Five) (op : MovOp) (src : MovSrc) :
    Statement (.movOsr ds op src) := fun _ =>
  of_fields (mhi := 0b111#3) (hi' := 0b111#3) (mlo := 0b00000#5) (lo' := 0b00000#5)
    rfl rfl rfl rfl rfl BitVec.and_zero

theorem irqSet (ds : Five) (index : Five) :
    Statement (.irqSet ds index) := fun hwf =>
  of_fields (mhi := 0b111#3) (hi' := 0b000#3) (mlo := 0b01000#5) (lo' := 0b00000#5)
    rfl rfl rfl rfl rfl (irqIndexOk_and hwf)

theorem irqWait (ds : Five) (index : Five) :
    Statement (.irqWait ds index) := fun hwf =>
  of_fields (mhi := 0b111#3) (hi' := 0b001#3) (mlo := 0b01000#5) (lo' := 0b00000#5)
    rfl rfl rfl rfl rfl (irqIndexOk_and hwf)

theorem irqClear (ds : Five) (wait : Bool) (index : Five) :
    Statement (.irqClear ds wait index) := fun hwf =>
  of_fields (mhi := 0b110#3) (hi' := 0b010#3) (mlo := 0b01000#5) (lo' := 0b00000#5)
    rfl rfl rfl rfl (by cases wait <;> rfl) (irqIndexOk_and hwf)

theorem setPins (ds : Five) (data : Five) :
    Statement (.setPins ds data) := fun _ =>
  of_fields (mhi := 0b111#3) (hi' := 0b000#3) (mlo := 0b00000#5) (lo' := 0b00000#5)
    rfl rfl rfl rfl rfl BitVec.and_zero

theorem setX (ds : Five) (data : Five) :
    Statement (.setX ds data) := fun _ =>
  of_fields (mhi := 0b111#3) (hi' := 0b001#3) (mlo := 0b00000#5) (lo' := 0b00000#5)
    rfl rfl rfl rfl rfl BitVec.and_zero

theorem setY (ds : Five) (data : Five) :
    Statement (.setY ds data) := fun _ =>
  of_fields (mhi := 0b111#3) (hi' := 0b010#3) (mlo := 0b00000#5) (lo' := 0b00000#5)
    rfl rfl rfl rfl rfl BitVec.and_zero

theorem setPindirs (ds : Five) (data : Five) :
    Statement (.setPindirs ds data) := fun _ =>
  of_fields (mhi := 0b111#3) (hi' := 0b100#3) (mlo := 0b00000#5) (lo' := 0b00000#5)
    rfl rfl rfl rfl rfl BitVec.and_zero

end Sys2Proof.Laws.TableRow
end

