-- ==== Sys2Proof/Laws/Registers.lean ====
section
/-! SUPPORT. The register maps: the register at its own offset, and what a whole-word access at its address does. -/

namespace Sys2Proof.Machine

open Sys2Proof

/-- The register at the offset of a register is that register. -/
theorem seqRegAt_offset (r : SeqReg) : seqRegAt r.offset = some r := by
  cases r with
  | txf n => revert n; decide
  | rxf n => revert n; decide
  | instrMem i => revert i; decide
  | smClkdiv n => revert n; decide
  | smExecctrl n => revert n; decide
  | smShiftctrl n => revert n; decide
  | smAddr n => revert n; decide
  | smInstr n => revert n; decide
  | smPinctrl n => revert n; decide
  | _ => rfl

theorem SeqReg.offset_le (r : SeqReg) : r.offset ≤ 0x140 := by
  cases r <;> simp only [SeqReg.offset] <;> omega

theorem SeqReg.offset_mod (r : SeqReg) : r.offset % 4 = 0 := by
  cases r <;> simp only [SeqReg.offset] <;> omega

/-- The distance of an address from the base it is an offset of. -/
theorem sub_base_toNat (base : Word) {o : Nat} (h : o < 2 ^ 32) : (base + BitVec.ofNat 32 o - base).toNat = o := by
  rw [BitVec.add_comm, BitVec.add_sub_cancel, BitVec.toNat_ofNat, Nat.mod_eq_of_lt h]

/-- An aligned base and an aligned offset make an aligned address. -/
theorem add_toNat_mod {base : Word} {o : Nat} (hb : base.toNat % 4 = 0) (ho : o % 4 = 0) :
    (base + BitVec.ofNat 32 o).toNat % 4 = 0 := by
  rw [BitVec.toNat_add, BitVec.toNat_ofNat]
  omega

theorem State.regionOf_seqAddr (s : State) (r : SeqReg) : s.regionOf (s.seqAddr r) = .seq r.offset := by
  have h := r.offset_le
  have h' := sub_base_toNat s.params.seqBase (o := r.offset) (by omega)
  rw [State.regionOf, State.seqAddr, h', if_pos (by omega)]

theorem State.registerAccessOk_seqAddr {s : State} (hw : WindowsApart s.params) (r : SeqReg) :
    registerAccessOk (s.seqAddr r) .word = true := by
  have h := add_toNat_mod hw.1 r.offset_mod
  simp only [registerAccessOk, State.seqAddr, h]
  rfl

/-- A whole-word read at the address of a register. -/
theorem State.busRead_seqAddr {s : State} (hw : WindowsApart s.params) (a : Agent) (r : SeqReg) :
    s.busRead a (s.seqAddr r) .word = .ok (s.seqValue r) (s.afterSeqRead r) := by
  have h := r.offset_le
  simp only [State.busRead, State.regionOf_seqAddr, State.seqBusRead, State.registerAccessOk_seqAddr hw,
    seqRegAt_offset]
  rw [if_neg (by decide), if_neg (by omega)]

/-- A whole-word write at the address of a register. -/
theorem State.busWrite_seqAddr {s : State} (hw : WindowsApart s.params) (a : Agent) (r : SeqReg) (v : Word) :
    s.busWrite a (s.seqAddr r) .word v = .ofRegister (s.seqWrite a v r) := by
  have h := r.offset_le
  simp only [State.busWrite, State.regionOf_seqAddr, State.seqBusWrite, State.registerAccessOk_seqAddr hw,
    seqRegAt_offset]
  rw [if_neg (by decide), if_neg (by omega)]

theorem State.regionOf_xferAddr {s : State} (hw : WindowsApart s.params) {o : Nat} (ho : o < 0x4000) :
    s.regionOf (s.xferAddr o) = .xfer o := by
  have h' := sub_base_toNat s.params.xferBase (o := o) (by omega)
  have h1 := hw.2.2.1
  have h2 := hw.2.2.2
  have hge : ¬(s.params.xferBase + BitVec.ofNat 32 o - s.params.seqBase).toNat < 0x4000 := by
    rw [BitVec.toNat_sub] at h1 h2 ⊢
    rw [BitVec.toNat_add, BitVec.toNat_ofNat]
    have := s.params.xferBase.isLt
    have := s.params.seqBase.isLt
    omega
  rw [State.regionOf, State.xferAddr, if_neg hge, h', if_pos ho]

theorem State.registerAccessOk_xferAddr {s : State} (hw : WindowsApart s.params) {o : Nat} (ho : o % 4 = 0) :
    registerAccessOk (s.xferAddr o) .word = true := by
  have h := add_toNat_mod hw.2.1 ho
  simp only [registerAccessOk, State.xferAddr, h]
  rfl

/-- A whole-word read of the XFER window. -/
theorem State.busRead_xferAddr {s : State} (hw : WindowsApart s.params) (a : Agent) {o : Nat} {r : XferReg}
    (ho : o < 0x4000) (h4 : o % 4 = 0) (hr : xferRegAt s.channels.length o = some r) :
    s.busRead a (s.xferAddr o) .word = .ok (s.xferValue r) s := by
  simp only [State.busRead, State.regionOf_xferAddr hw ho, State.xferBusRead, State.registerAccessOk_xferAddr hw h4, hr]
  rw [if_neg (by decide)]

/-- A whole-word write of the XFER window. -/
theorem State.busWrite_xferAddr {s : State} (hw : WindowsApart s.params) (a : Agent) {o : Nat} {r : XferReg} (v : Word)
    (ho : o < 0x4000) (h4 : o % 4 = 0) (hr : xferRegAt s.channels.length o = some r) :
    s.busWrite a (s.xferAddr o) .word v = .ofRegister (s.xferWrite a v r) := by
  simp only [State.busWrite, State.regionOf_xferAddr hw ho, State.xferBusWrite, State.registerAccessOk_xferAddr hw h4, hr]
  rw [if_neg (by decide)]

/-- A write of CTRL maps each state machine by itself. -/
theorem State.sm_mapSms (s : State) (f : SmId → Sm → Sm) (k : SmId) : (s.mapSms f).sm k = f k (s.sm k) := by
  have h : ∀ j : SmId, j = 0 ∨ j = 1 ∨ j = 2 ∨ j = 3 := by decide
  unfold State.mapSms
  simp only [State.sm_setSm]
  rcases h k with rfl | rfl | rfl | rfl <;> simp

/-- An update of a channel that exists is its replacement. -/
theorem State.updChan_eq_setChan {s : State} {c : Nat} {ch : Channel} (f : Channel → Channel)
    (h : s.channels[c]? = some ch) : s.updChan c f = s.setChan c (f ch) := by
  have hl : c < s.channels.length := (List.getElem?_eq_some_iff.1 h).1
  have hv : s.channels[c] = ch := (List.getElem?_eq_some_iff.1 h).2
  have : s.channels.modify c f = s.channels.set c (f ch) := by
    apply List.ext_getElem?
    intro i
    simp only [List.getElem?_modify, List.getElem?_set]
    by_cases hi : c = i
    · subst hi
      simp [hl, hv]
    · simp [hi]
  unfold State.updChan State.setChan
  rw [this]

/-- The offsets of the registers of channel `c` lead to them, in an engine of at most 17 channels (log 16). -/
theorem xferRegAt_channel {numCh c : Nat} (hc : c < numCh) (hn : numCh ≤ 17) :
    xferRegAt numCh (0x40 * c + 0x00) = some (.readAddr c) ∧ xferRegAt numCh (0x40 * c + 0x04) = some (.writeAddr c) ∧
    xferRegAt numCh (0x40 * c + 0x08) = some (.transCount c) ∧
    xferRegAt numCh (0x40 * c + 0x0C) = some (.ctrlTrig c) := by
  have h : ∀ o, o < 0x40 → 0x40 * c + o ≠ 0x444 ∧ (0x40 * c + o) / 0x40 = c ∧ (0x40 * c + o) % 0x40 = o := by
    intro o ho; omega
  have h0 := h 0x00 (by decide)
  have h4 := h 0x04 (by decide)
  have h8 := h 0x08 (by decide)
  have hC := h 0x0C (by decide)
  simp only [xferRegAt, h0, h4, h8, hC, hc]
  exact ⟨rfl, rfl, rfl, rfl⟩

end Sys2Proof.Machine
end

