-- ==== Sys2Proof/Laws/Tick.lean ====
section
/-! SUPPORT. What a step does, by its event: a tick, a channel phase, a host access. -/

namespace Sys2Proof.Machine

open Sys2Proof

@[simp] theorem State.consume_smEnabled (s : State) (k : SmId) : s.consume.smEnabled k = s.smEnabled k := rfl

@[simp] theorem State.consume_dreq (s : State) (t : Nat) : s.consume.dreq t = s.dreq t := rfl

@[simp] theorem State.consume_channelEnabled (s : State) (ch : Channel) :
    s.consume.channelEnabled ch = s.channelEnabled ch := rfl

/-- A step whose event is a tick of an enabled state machine. -/
theorem step_tick {s : State} {k : SmId} (he : s.nextEvent = .tick k) (hen : s.smEnabled k = true) :
    step s = tickActive (s.consume.activate k) := by
  simp [step, perform, tickStep, he, hen]

/-- A step whose event is a tick of a state machine with no enabled step. -/
theorem step_tick_disabled {s : State} {k : SmId} (he : s.nextEvent = .tick k) (hen : s.smEnabled k = false) :
    step s = .next s.consume := by
  simp [step, perform, tickStep, he, hen]

/-- A step whose event is a channel's. -/
theorem step_channel {s : State} {c : Nat} (he : s.nextEvent = .channel c) : step s = channelStep c s.consume := by
  simp [step, perform, he]

/-- What the executing state machine selects, as the statements say it. -/
theorem State.selectWord_activate {s : State} {k : SmId} {w : InstrWord} (h : Selects s k w) :
    (s.activate k).selectWord = some w := by
  rcases h with ⟨kind, hp⟩ | ⟨hp, hw⟩
  · simp [State.selectWord, hp]
  · have h2 : readCell (s.imem.get (s.sm k).pc.toFin) = some w := readCell_eq_some.2 hw
    simp [State.selectWord, hp, h2]

/-- A non-delay tick of an admitted configuration that selects a word executes it. -/
theorem tickActive_word {s : State} {w : InstrWord} (ha : s.me.admitted = true) (hd : s.me.delayCount = 0)
    (hw : s.selectWord = some w) : tickActive s = execWord w s := by
  simp [tickActive, ha, hd, hw]

/-- A non-delay tick of an admitted configuration whose slot is unwritten takes the fault. -/
theorem tickActive_unwritten {s : State} (ha : s.me.admitted = true) (hd : s.me.delayCount = 0)
    (hw : s.selectWord = none) : tickActive s = .next (s.takeFault none) := by
  simp [tickActive, ha, hd, hw]

/-- Everything a tick can answer as a next state (40_sequencer_cycle.md R105, R108, R109). -/
theorem tickActive_next_cases {s t : State} (h : tickActive s = .next t) :
    s.me.admitted = true ∧
      ((0 < s.me.delayCount ∧ t = delayTick s) ∨
      (s.me.delayCount = 0 ∧ s.selectWord = none ∧ t = s.takeFault none) ∨
      (s.me.delayCount = 0 ∧ ∃ w i, s.selectWord = some w ∧ decode w = .ok i ∧ exec i s = .next t)) := by
  cases ha : s.me.admitted with
  | false => simp [tickActive, ha] at h
  | true =>
    refine ⟨rfl, ?_⟩
    by_cases hd : 0 < s.me.delayCount
    · simp only [tickActive, ha, hd, Bool.not_true, if_true] at h
      exact .inl ⟨hd, (Host.Outcome.next.inj h).symm⟩
    · have hd0 : s.me.delayCount = 0 := by omega
      cases hw : s.selectWord with
      | none =>
        rw [tickActive_unwritten ha hd0 hw] at h
        exact .inr (.inl ⟨hd0, rfl, (Host.Outcome.next.inj h).symm⟩)
      | some w =>
        rw [tickActive_word ha hd0 hw, execWord] at h
        cases hi : decode w with
        | error r => rw [hi] at h; simp at h
        | ok i => rw [hi] at h; exact .inr (.inr ⟨hd0, w, i, rfl, hi, h⟩)

/-- A tick that executes the word it selects. -/
theorem step_selects {s : State} {k : SmId} {w : InstrWord} (ht : TicksNext s k) (hw : Selects s k w) :
    step s = execWord w (s.consume.activate k) := by
  obtain ⟨he, hen, ha, hd⟩ := ht
  have hw' : (s.consume.activate k).selectWord = some w := State.selectWord_activate (s := s.consume) hw
  rw [step_tick he hen, tickActive_word (by simpa using ha) (by simpa using hd) hw']

end Sys2Proof.Machine
end

