-- ==== Sys2Proof/Laws/Run.lean ====
section
/-! SUPPORT. What a step of an interleaving leaves alone, by its event: the delay of a state machine whose tick it is not,
its fault record under a bus access, and the word a channel holds. -/

namespace Sys2Proof.Machine

open Sys2Proof

theorem State.stepOn_eq (s : State) (e : Event) :
    s.stepOn e = perform e { s with agenda := [], now := s.now + 1 } := rfl

/-- A step of the machine with an empty agenda is the one on the event of the free schedule. -/
theorem step_eq_stepOn {s : State} (h : s.agenda = []) : step s = s.stepOn (Config.schedule s.now) := by
  simp only [step, State.nextEvent, State.consume, State.stepOn_eq, h, List.tail_nil]

/-- Writing the executing state machine back changes nothing. -/
theorem State.setMe_me_self (s : State) : s.setMe s.me = s := by
  have h : s.sms.set s.active.val (s.sms.get s.active) s.active.isLt = s.sms := by
    apply Vector.ext
    intro i hi
    rw [Vector.getElem_set]
    split
    · subst_vars; rfl
    · rfl
  cases s
  simp only [State.setMe, State.setSm, State.me, State.sm] at h ⊢
  congr 1

/-- What no bus access can do: change a fault record, lengthen a delay, or take the word a busy channel holds. -/
structure BusEffect (s t : State) : Prop where
  faultRec : ∀ k, (t.sm k).faultRec = (s.sm k).faultRec
  delayCount : ∀ k, (t.sm k).delayCount ≤ (s.sm k).delayCount
  holds : ∀ {c v a}, s.HoldsWord c v a → t.HoldsWord c v a

theorem BusEffect.of_same {s t : State} (hs : t.sms = s.sms) (hc : t.channels = s.channels) : BusEffect s t where
  faultRec := fun k => by simp only [State.sm, hs]
  delayCount := fun k => by simp only [State.sm, hs, Nat.le_refl]
  holds := fun h => by simpa only [State.HoldsWord, hc] using h

theorem BusEffect.setSm {s : State} {n : SmId} {m : Sm} (hf : m.faultRec = (s.sm n).faultRec)
    (hd : m.delayCount ≤ (s.sm n).delayCount) : BusEffect s (s.setSm n m) where
  faultRec := fun k => by rw [State.sm_setSm]; split; exacts [by subst_vars; exact hf, rfl]
  delayCount := fun k => by rw [State.sm_setSm]; split; exacts [by subst_vars; exact hd, Nat.le_refl _]
  holds := id

theorem Sm.restartIf_fields (b : Bool) (m : Sm) :
    (if b then m.restart else m).faultRec = m.faultRec ∧ (if b then m.restart else m).delayCount ≤ m.delayCount := by
  cases b
  · exact ⟨rfl, Nat.le_refl _⟩
  · exact ⟨rfl, Nat.zero_le _⟩

theorem BusEffect.seqWrite {s t : State} {a : Agent} {v : Word} {r : SeqReg} (h : s.seqWrite a v r = .ok t) :
    BusEffect s t := by
  cases r with
  | ctrl =>
    cases h
    have hk : ∀ k, (s.writeCtrl v).sm k = if v.getLsbD (4 + k.val) then (s.sm k).restart else s.sm k := fun k =>
      State.sm_mapSms s (fun k m => if v.getLsbD (4 + k.val) then m.restart else m) k
    exact ⟨fun k => by rw [hk]; exact (Sm.restartIf_fields _ _).1, fun k => by rw [hk]; exact (Sm.restartIf_fields _ _).2, id⟩
  | txf n =>
    cases h
    simp only [State.pushTx]
    split
    · exact .of_same rfl rfl
    · exact .setSm rfl (Nat.le_refl _)
  | instrMem i => simp only [State.seqWrite] at h; split at h <;> cases h; exact .of_same rfl rfl
  | smInstr n => simp only [State.seqWrite] at h; split at h <;> cases h; exact .setSm rfl (Nat.le_refl _)
  | smClkdiv n | smExecctrl n | smPinctrl n => cases h; exact .setSm rfl (Nat.le_refl _)
  | smShiftctrl n =>
    cases h
    simp only [Sm.writeShiftctrl]
    split <;> exact .setSm rfl (Nat.le_refl _)
  | _ => cases h; exact .of_same rfl rfl

/-- Another channel's registers leave the held word of a busy channel alone. -/
theorem State.HoldsWord.setChan {s : State} {c d : Nat} {v a : Word} {ch : Channel} (h : s.HoldsWord c v a) (hne : d ≠ c) :
    (s.setChan d ch).HoldsWord c v a := by
  obtain ⟨ch', h1, h2⟩ := h
  exact ⟨ch', by simp only [State.setChan, List.getElem?_set_ne hne, h1], h2⟩

theorem State.HoldsWord.updChan {s : State} {c d : Nat} {v a : Word} {f : Channel → Channel} (h : s.HoldsWord c v a)
    (hne : d ≠ c) : (s.updChan d f).HoldsWord c v a := by
  obtain ⟨ch', h1, h2⟩ := h
  refine ⟨ch', ?_, h2⟩
  simp only [State.updChan, List.getElem?_modify, h1, if_neg hne]
  rfl

theorem State.HoldsWord.abort {s : State} {c : Nat} {v a : Word} {p : Nat → Bool} (h : s.HoldsWord c v a) :
    { s with channels := s.channels.mapIdx fun c (ch : Channel) => if p c then ch.abort else ch }.HoldsWord c v a := by
  obtain ⟨ch, h1, hb, hp, ha⟩ := h
  refine ⟨if p c then ch.abort else ch, by simp only [List.getElem?_mapIdx, h1]; rfl, ?_⟩
  cases p c
  · exact ⟨hb, hp, ha⟩
  · simp [Channel.abort, hb, hp, ha]

theorem BusEffect.xferWrite {s t : State} {a : Agent} {v : Word} {r : XferReg} (h : s.xferWrite a v r = .ok t) :
    BusEffect s t := by
  have hchan : ∀ {d : Nat} {f : Channel → Except Refusal Channel}, s.writeChan a d f = .ok t → BusEffect s t := by
    intro d f h
    simp only [State.writeChan] at h
    split at h
    · cases h
    · rename_i ch e
      split at h
      · cases h
      · rename_i hb
        split at h <;> cases h
        refine ⟨fun _ => rfl, fun _ => Nat.le_refl _, fun hw => hw.setChan fun hdc => ?_⟩
        subst hdc
        obtain ⟨ch', h1, h2, _⟩ := hw
        rw [e] at h1
        exact hb (Option.some.inj h1 ▸ h2)
  cases r with
  | chanAbort => cases h; exact ⟨fun _ => rfl, fun _ => Nat.le_refl _, fun hw => hw.abort (p := fun c => v.getLsbD c)⟩
  | readAddr c => exact hchan (f := fun ch => .ok { ch with readAddr := v }) h
  | writeAddr c => exact hchan (f := fun ch => .ok { ch with writeAddr := v }) h
  | transCount c => exact hchan (f := fun ch => .ok { ch with countReload := v }) h
  | ctrlTrig c => exact hchan (f := fun ch => ch.writeCtrlTrig a c v) h

/-- Everything a bus write leaves alone. -/
theorem BusEffect.busWrite {s t : State} {a : Agent} {addr : Word} {size : AccessSize} {v : Word}
    (h : s.busWrite a addr size v = .ok t) : BusEffect s t := by
  have hreg : ∀ {e : Except Refusal State}, BusWrite.ofRegister e = .ok t → e = .ok t := by
    intro e he
    cases e with
    | ok u => rw [BusWrite.ok.inj he]
    | error r => cases he
  simp only [State.busWrite, State.seqBusWrite, State.xferBusWrite] at h
  split at h
  · repeat' split at h
    all_goals first | cases h | exact .seqWrite (hreg h)
  · repeat' split at h
    all_goals first | cases h | exact .xferWrite (hreg h)
  · repeat' split at h
    all_goals cases h
    exact .of_same rfl rfl

/-- Everything a bus read leaves alone. -/
theorem BusEffect.busRead {s t : State} {a : Agent} {addr : Word} {size : AccessSize} {v : Word}
    (h : s.busRead a addr size = .ok v t) : BusEffect s t := by
  simp only [State.busRead, State.seqBusRead, State.xferBusRead] at h
  repeat' split at h
  all_goals cases h
  all_goals try exact .of_same rfl rfl
  rename_i r _
  cases r with
  | rxf n =>
    simp only [State.afterSeqRead, State.popRx]
    split
    · exact .of_same rfl rfl
    · exact .setSm rfl (Nat.le_refl _)
  | _ => exact .of_same rfl rfl

/-- A tick leaves alone what no instruction changes. -/
theorem tickActive_frame {s t : State} (h : tickActive s = .next t) : TickFrame s t := by
  obtain ⟨_, ⟨_, rfl⟩ | ⟨_, _, rfl⟩ | ⟨_, w, i, _, _, he⟩⟩ := tickActive_next_cases h
  · exact TickFrame.setMe (.refl s) _
  · exact TickFrame.setMe (.refl s) _
  · obtain ⟨r, hr, hall, _⟩ := exec_effect i s
    rw [hr] at he
    rcases finishTick_next_cases he with ⟨s', j, e, rfl, rfl⟩ | ⟨s', rfl, rfl⟩ | ⟨rfl, rfl⟩
    · exact (TickFrame.setMe (Effect.frame hall) (s.me.retire s'.me s.pinSample i.ds j e)).sideSet s.me i.ds
    · exact (TickFrame.setMe (Effect.frame hall) { s'.me with edgePrev := some s.pinSample }).sideSet s.me i.ds
    · exact TickFrame.setMe (.refl s) _

/-- What a step of a channel leaves alone: its bus access, and one channel's registers. -/
theorem channelStep_cases {c : Nat} {s t : State} (h : channelStep c s = .next t) :
    ∃ u, BusEffect s u ∧ (t = u ∨ ∃ f, t = u.updChan c f) := by
  have hrefl : BusEffect s s := .of_same rfl rfl
  simp only [channelStep] at h
  split at h
  · cases h; exact ⟨_, hrefl, .inl rfl⟩
  · split at h
    · cases h; exact ⟨_, hrefl, .inl rfl⟩
    · split at h
      · cases h
      · simp only [writePhase] at h
        split at h <;> cases h
        · rename_i hw; exact ⟨_, .busWrite hw, .inr ⟨_, rfl⟩⟩
        · exact ⟨_, hrefl, .inr ⟨_, rfl⟩⟩
      · split at h
        · cases h; exact ⟨_, hrefl, .inr ⟨_, rfl⟩⟩
        · simp only [readPhase] at h
          split at h <;> cases h
          · rename_i hr; exact ⟨_, .busRead hr, .inr ⟨_, rfl⟩⟩
          · exact ⟨_, hrefl, .inr ⟨_, rfl⟩⟩

/-- What a host step leaves alone. -/
theorem hostReadStep_effect {addr : Word} {size : AccessSize} {s t : State} (h : hostReadStep addr size s = .next t) :
    BusEffect s t := by
  simp only [hostReadStep] at h
  split at h <;> cases h
  rename_i hr
  have hb := BusEffect.busRead hr
  exact ⟨hb.faultRec, hb.delayCount, hb.holds⟩

theorem hostWriteStep_effect {addr v : Word} {size : AccessSize} {s t : State}
    (h : hostWriteStep addr size v s = .next t) : BusEffect s t := by
  simp only [hostWriteStep] at h
  split at h <;> cases h
  rename_i hw
  exact .busWrite hw

/-- Only its own tick lengthens the delay of a state machine. -/
theorem stepOn_delayCount_le {s t : State} {e : Event} {k : SmId} (h : s.stepOn e = .next t) (hne : e ≠ .tick k) :
    (t.sm k).delayCount ≤ (s.sm k).delayCount := by
  rw [State.stepOn_eq] at h
  cases e with
  | tick j =>
    simp only [perform, tickStep] at h
    split at h
    · have hk : k ≠ j := fun e => hne (by rw [e])
      rw [(tickActive_frame h).others k hk]
      exact Nat.le_refl _
    · cases h; exact Nat.le_refl _
  | channel c =>
    obtain ⟨u, hu, rfl | ⟨f, rfl⟩⟩ := channelStep_cases h
    · exact hu.delayCount k
    · exact hu.delayCount k
  | hostRead addr size => exact (hostReadStep_effect h).delayCount k
  | hostWrite addr size v => exact (hostWriteStep_effect h).delayCount k
  | environment env => cases h; exact Nat.le_refl _
  | blockReset =>
    cases h
    have hz : ((State.blockReset { s with agenda := [], now := s.now + 1 }).sm k).delayCount = 0 := by
      have : ∀ (b : Bool) (j : SmId), ((Vector.replicate 4 (Sm.resetWith b)).get j).delayCount = 0 := by decide
      exact this _ k
    rw [hz]
    exact Nat.zero_le _

/-- A tick of an enabled state machine with a delay left shortens it. -/
theorem stepOn_tick_delay {s t : State} {k : SmId} (h : s.stepOn (.tick k) = .next t) (hen : s.smEnabled k = true)
    (hd : 0 < (s.sm k).delayCount) : (t.sm k).delayCount < (s.sm k).delayCount := by
  rw [State.stepOn_eq] at h
  have hen' : ({ s with agenda := [], now := s.now + 1 } : State).smEnabled k = true := hen
  simp only [perform, tickStep, hen', if_true] at h
  have hd' : 0 < (({ s with agenda := [], now := s.now + 1 } : State).activate k).me.delayCount := hd
  obtain ⟨_, ⟨_, rfl⟩ | ⟨h0, _⟩ | ⟨h0, _⟩⟩ := tickActive_next_cases h
  · have : ((delayTick (({ s with agenda := [], now := s.now + 1 } : State).activate k)).sm k).delayCount =
        (s.sm k).delayCount - 1 := by
      show (State.me (delayTick _)).delayCount = _
      rw [delayTick, State.me_setMe]
      rfl
    omega
  · omega
  · omega

/-- Only its own step, or a block reset, takes the word a busy channel holds. -/
theorem stepOn_holdsWord {s t : State} {e : Event} {c : Nat} {v a : Word} (h : s.stepOn e = .next t)
    (hc : e ≠ .channel c) (hb : e ≠ .blockReset) (hw : s.HoldsWord c v a) : t.HoldsWord c v a := by
  rw [State.stepOn_eq] at h
  cases e with
  | tick j =>
    simp only [perform, tickStep] at h
    split at h
    · have hch := (tickActive_frame h).channels
      obtain ⟨ch, h1, h2⟩ := hw
      exact ⟨ch, by rw [hch]; exact h1, h2⟩
    · cases h; exact hw
  | channel d =>
    have hne : d ≠ c := fun e => hc (by rw [e])
    obtain ⟨u, hu, rfl | ⟨f, rfl⟩⟩ := channelStep_cases h
    · exact hu.holds hw
    · exact (hu.holds hw).updChan hne
  | hostRead addr size => exact (hostReadStep_effect h).holds hw
  | hostWrite addr size v => exact (hostWriteStep_effect h).holds hw
  | environment env => cases h; exact hw
  | blockReset => exact absurd rfl hb

/-- A channel that holds a word has an enabled step. -/
theorem State.HoldsWord.hasStep {s : State} {c : Nat} {v a : Word} (h : s.HoldsWord c v a) : s.HasStep (.channel c) := by
  obtain ⟨ch, h1, hb, hp, _⟩ := h
  exact ⟨ch, h1, by simp only [State.channelEnabled, hb, hp, Bool.and_self]⟩

/-- A tick chosen for a state machine with no enabled step is a stutter. -/
theorem State.stepOn_tick_off {s : State} {k : SmId} (h : s.smEnabled k = false) :
    s.stepOn (.tick k) = .next { s with agenda := [], now := s.now + 1 } := by
  rw [State.stepOn_eq]
  simp only [perform, tickStep]
  exact if_neg (Bool.eq_false_iff.1 h)

/-- A step chosen for a channel with no enabled step is a stutter. -/
theorem State.stepOn_channel_off {s : State} {c : Nat} (h : ¬s.HasStep (.channel c)) :
    s.stepOn (.channel c) = .next { s with agenda := [], now := s.now + 1 } := by
  rw [State.stepOn_eq]
  simp only [perform, channelStep]
  split
  · rfl
  · rename_i ch hc
    have hoff : s.channelEnabled ch = false := Bool.eq_false_iff.2 fun he => h ⟨ch, hc, he⟩
    rw [show State.channelEnabled { s with agenda := [], now := s.now + 1 } ch = false from hoff]
    rfl

/-- A tick whose instruction stalls keeps its state machine, but for the edge history and the latch of an `irq wait`. -/
theorem State.Stalls.stepOn {s : State} {k : SmId} (h : s.Stalls k) :
    ∃ t, s.stepOn (.tick k) = .next t ∧ TickFrame (State.activate { s with agenda := [], now := s.now + 1 } k) t ∧
      t.sm k = { s.sm k with edgePrev := (t.sm k).edgePrev, irqWaiting := (t.sm k).irqWaiting } := by
  obtain ⟨hen, ha, hd, w, i, u, hw, hi, hr⟩ := h
  generalize hs' : State.activate { s with agenda := [], now := s.now + 1 } k = s' at hr
  have hme : s'.me = s.sm k := by subst hs'; rfl
  have hk : s'.active = k := by subst hs'; rfl
  have hsel : s'.selectWord = some w := by subst hs'; exact State.selectWord_activate hw
  have hstep : s.stepOn (.tick k) = tickActive s' := by
    subst hs'
    simp only [State.stepOn_eq, perform, tickStep]
    exact if_pos hen
  have hexec : tickActive s' = .next ((u.setMe { u.me with edgePrev := some s'.pinSample }).sideSet s'.me i.ds) := by
    rw [tickActive_word (by rw [hme]; exact ha) (by rw [hme]; exact hd) hsel, execWord, hi]
    show exec i s' = _
    rw [exec_eq_finishTick, hr]
    rfl
  have hf := tickActive_frame hexec
  refine ⟨_, hstep.trans hexec, hf, ?_⟩
  have hu : u.active = k := by
    have := (ruleOf_effect i s').1
    rw [hr] at this
    exact this.frame.active.trans hk
  have hkeep := stallKeeps_ruleOf i s' u hr
  have hsm : ((u.setMe { u.me with edgePrev := some s'.pinSample }).sideSet s'.me i.ds).sm k =
      { u.me with edgePrev := some s'.pinSample } := by
    subst hu
    exact State.me_setMe u _
  rw [hsm]
  rw [hme] at hkeep
  show ({ u.me with edgePrev := some s'.pinSample } : Sm) =
    { s.sm k with edgePrev := some s'.pinSample, irqWaiting := u.me.irqWaiting }
  conv_lhs => rw [hkeep]

end Sys2Proof.Machine
end

