-- ==== Sys2Proof/Tests/Slice0.lean ====
section
/-! SUPPORT. Tests on words and values of spec/95_test_vectors.md and of the worked examples of the rules, and the
witnesses that the hypotheses of the statements can be met. -/

namespace Sys2Proof.Tests

open Sys2Proof Sys2Proof.Machine

/-! Well-formedness: one ill-formed term for each check (30_encoding.md R99, 43_mov_irq_set.md R142). -/

theorem test_wf_waitIrq_index : Instr.wf (.waitIrq 0 true 8) = false := by decide
theorem test_wf_irqSet_index : Instr.wf (.irqSet 0 8) = false := by decide
theorem test_wf_irqWait_index : Instr.wf (.irqWait 0 31) = false := by decide
theorem test_wf_irqClear_index : Instr.wf (.irqClear 0 false 12) = false := by decide
theorem test_wf_movY_self : Instr.wf (.movY 0 .none .y) = false := by decide
theorem test_wf_accepts : Instr.wf (.irqSet 0 0x17) = true ∧ Instr.wf (.movY 0 .invert .y) = true := by decide

/-! Decoding: the words of 95_test_vectors.md, or written out from the field layout of 30_encoding.md as
opcode, delay/side-set, operands. -/

theorem test_decode_jmp :
    decode 0x0007#16 = .ok (.jmpAlways 0 7) ∧ decode 0x0024#16 = .ok (.jmpNotX 0 4) ∧
    decode 0x0043#16 = .ok (.jmpXDec 0 3) ∧ decode 0x0069#16 = .ok (.jmpNotY 0 9) ∧
    decode 0x0089#16 = .ok (.jmpYDec 0 9) ∧ decode 0x00A2#16 = .ok (.jmpXNeY 0 2) ∧
    decode 0x00C6#16 = .ok (.jmpPin 0 6) ∧ decode 0x00E1#16 = .ok (.jmpNotOsre 0 1) ∧
    decode 0x0300#16 = .ok (.jmpAlways 3 0) := by decide

theorem test_decode_wait :
    decode 0x2088#16 = .ok (.waitGpio 0 true 8) ∧ decode 0x2008#16 = .ok (.waitGpio 0 false 8) ∧
    decode 0x2022#16 = .ok (.waitPin 0 false 2) ∧ decode 0x20A3#16 = .ok (.waitPin 0 true 3) ∧
    decode 0x20D0#16 = .ok (.waitIrq 0 true 0x10) ∧ decode 0x2042#16 = .ok (.waitIrq 0 false 2) ∧
    decode 0x20E8#16 = .ok (.waitEdge 0 true 8) ∧ decode 0x3088#16 = .ok (.waitGpio 0x10 true 8) := by decide

theorem test_decode_in :
    decode 0x4008#16 = .ok (.inPins 0 8) ∧ decode 0x4020#16 = .ok (.inX 0 0) ∧ decode 0x4048#16 = .ok (.inY 0 8) ∧
    decode 0x4064#16 = .ok (.inNull 0 4) ∧ decode 0x40C4#16 = .ok (.inIsr 0 4) ∧ decode 0x40E8#16 = .ok (.inOsr 0 8) := by
  decide

theorem test_decode_out :
    decode 0x6008#16 = .ok (.outPins 0 8) ∧ decode 0x6020#16 = .ok (.outX 0 0) ∧ decode 0x6044#16 = .ok (.outY 0 4) ∧
    decode 0x6068#16 = .ok (.outNull 0 8) ∧ decode 0x6082#16 = .ok (.outPindirs 0 2) ∧
    decode 0x60A5#16 = .ok (.outPc 0 5) ∧ decode 0x60C6#16 = .ok (.outIsr 0 6) ∧
    decode 0x60F0#16 = .ok (.outExec 0 16) := by decide

theorem test_decode_push_pull :
    decode 0x8020#16 = .ok (.push 0 false true) ∧ decode 0x8060#16 = .ok (.push 0 true true) ∧
    decode 0x8000#16 = .ok (.push 0 false false) ∧ decode 0x80A0#16 = .ok (.pull 0 false true) ∧
    decode 0x8080#16 = .ok (.pull 0 false false) ∧ decode 0x80E0#16 = .ok (.pull 0 true true) := by decide

theorem test_decode_mov :
    decode 0xA001#16 = .ok (.movPins 0 .none .x) ∧ decode 0xA02F#16 = .ok (.movX 0 .invert .osr) ∧
    decode 0xA025#16 = .ok (.movX 0 .none .status) ∧ decode 0xA020#16 = .ok (.movX 0 .none .pins) ∧
    decode 0b1010000001001010#16 = .ok (.movY 0 .invert .y) ∧ decode 0xA042#16 = .ok (.nop 0) ∧
    decode 0xB242#16 = .ok (.nop 0x12) ∧ decode 0xA081#16 = .ok (.movExec 0 .none .x) ∧
    decode 0xA0A2#16 = .ok (.movPc 0 .none .y) ∧ decode 0xA0D1#16 = .ok (.movIsr 0 .reverse .x) ∧
    decode 0xA0C6#16 = .ok (.movIsr 0 .none .isr) ∧ decode 0xA0EB#16 = .ok (.movOsr 0 .invert .null) := by decide

theorem test_decode_irq_set :
    decode 0xC000#16 = .ok (.irqSet 0 0) ∧ decode 0xC043#16 = .ok (.irqClear 0 false 3) ∧
    decode 0b1100000001100011#16 = .ok (.irqClear 0 true 3) ∧ decode 0xC021#16 = .ok (.irqWait 0 1) ∧
    decode 0xC015#16 = .ok (.irqSet 0 0x15) ∧ decode 0xE015#16 = .ok (.setPins 0 21) ∧
    decode 0xE03F#16 = .ok (.setX 0 31) ∧ decode 0xE040#16 = .ok (.setY 0 0) ∧
    decode 0xE081#16 = .ok (.setPindirs 0 1) := by decide

/-- Vectors I12, U13, M13 to M15, Q6, Q7, S7, W11: the reserved encodings, each by its name. -/
theorem test_decode_reserved :
    decode 0x4088#16 = .error .inSource ∧ decode 0x8001#16 = .error .pushLowBits ∧
    decode 0x8081#16 = .error .pullLowBits ∧ decode 0xA039#16 = .error .movOperation ∧
    decode 0xA061#16 = .error .movDestination ∧ decode 0xA024#16 = .error .movSource ∧
    decode 0xC008#16 = .error .irqIndex ∧ decode 0xC080#16 = .error .irqBitSeven ∧
    decode 0xE060#16 = .error .setDestination ∧ decode 0x20C8#16 = .error .waitIrqIndex := by decide

theorem test_encode : encode (.jmpXDec 0 3) = 0x0043#16 ∧ encode (.waitEdge 0 false 8) = 0x2068#16 ∧
    encode (.movX 0 .invert .osr) = 0xA02F#16 ∧ encode (.irqWait 0 1) = 0xC021#16 := by decide

/-! One step on small states. `at_ m` is the machine after reset with 32 pins, all driven low from outside, and `m` as
the executing state machine. -/

/-- A machine whose executing state machine is `m`. -/
def at_ (m : Sm) : State := { State.reset.setMe m with params := { Params.default with numGpio := 32 } }

/-- A hypothesis about the executing state machine of `at_ m` is one about `m`. -/
theorem at_me (m : Sm) : (at_ m).me = m := State.me_setMe State.reset m

/-- The same with the pin levels `w` driven from outside. -/
def atPins (m : Sm) (w : Word) : State :=
  { at_ m with env := { envAtReset with ext := Vector.ofFn fun p => if w.getLsbD p.val then .high else .low } }

/-- A state machine whose X, Y and OSR are unwritten (10_state.md R23). -/
def unwrittenSm : Sm := Sm.resetWith true

/-- A state machine with the shift configuration, pins and side-set of a test. -/
def cfg (shiftctrl pinctrl : Word) : Sm := { Sm.reset with shiftctrl := shiftctrl, pinctrl := pinctrl }

/-- What `f` reads in the state after the word `w` executes at `s`. -/
def after {α : Type} (w : InstrWord) (s : State) (f : State → α) : Option α :=
  match execWord w s with
  | .next t => some (f t)
  | .fault _ => none
  | .refused _ => none

/-- The fault record that the word `w` leaves at `s`. -/
def faultOf (w : InstrWord) (s : State) : Option FaultRecord := (after w s fun t => t.me.faultRec).getD none

/-- The word `w` takes the fault of 60_exceptions.md R160 at `s` and leaves its record. -/
def faults (w : InstrWord) (s : State) : Bool :=
  decide (faultOf w s = some { reason := .unwrittenRead, pc := s.me.pc, word := some w })

/-- Two words in a FIFO. -/
def four : List Word := [1, 2, 3, 4]

-- JMP: vectors J1, J2, J4, J5, J7, J8, J10, J12, J13, J14, J15, J17, J18, J19.
theorem test_jmpAlways : after 0x0007 (at_ { Sm.reset with pc := 2 }) (·.me.pc) = some 7 := by decide
theorem test_jmpAlways_delay :
    after 0x0300 (at_ { Sm.reset with pc := 6 }) (fun t => (t.me.pc, t.me.delayCount)) = some (0, 3) := by decide
theorem test_jmpNotX : after 0x0024 (at_ { Sm.reset with x := .of 0 }) (·.me.pc) = some 4 := by decide
theorem test_jmpNotX_unwritten : faults 0x0024 (at_ unwrittenSm) = true := by decide
theorem test_jmpXDec : after 0x0043 (at_ { Sm.reset with pc := 5, x := .of 2 }) (fun t => (t.me.pc, t.me.x)) =
    some (3, .of 1) := by decide
theorem test_jmpXDec_zero : after 0x0043 (at_ { Sm.reset with pc := 5, x := .of 0 }) (fun t => (t.me.pc, t.me.x)) =
    some (6, .of 0xFFFFFFFF) := by decide
theorem test_jmpNotY : after 0x0069 (at_ { Sm.reset with y := .of 0 }) (·.me.pc) = some 9 := by decide
theorem test_jmpYDec : after 0x0089 (at_ { Sm.reset with y := .of 0 }) (fun t => (t.me.pc, t.me.y)) =
    some (1, .of 0xFFFFFFFF) := by decide
theorem test_jmpXNeY : after 0x00A2 (at_ { Sm.reset with x := .of 3, y := .of 4 }) (·.me.pc) = some 2 := by decide
theorem test_jmpXNeY_unwritten : faults 0x00A2 (at_ { unwrittenSm with x := .of 3 }) = true := by decide
theorem test_jmpPin : after 0x00C6 (atPins { Sm.reset with execctrl := 0x0801F000 } 0x100) (·.me.pc) = some 6 := by decide
theorem test_jmpPin_low : after 0x00C6 (atPins { Sm.reset with execctrl := 0x0801F000 } 0xFEFF) (·.me.pc) = some 1 := by decide
theorem test_jmpNotOsre : after 0x00E1 (at_ { cfg 0x100C0000 0x14000000 with pc := 4, osrCount := 0 }) (·.me.pc) =
    some 1 := by decide
theorem test_jmpNotOsre_reset : after 0x00E1 (at_ { unwrittenSm with pc := 4 }) (fun t => (t.me.pc, t.me.faultRec)) =
    some (5, none) := by decide

-- WAIT: vectors W1, W2, W5, W6, W7, W10, W12, W13.
theorem test_waitGpio : after 0x2088 (atPins Sm.reset 0x100) (·.me.pc) = some 1 := by decide
theorem test_waitGpio_stall : after 0x2088 (atPins Sm.reset 0) (fun t => (t.me.pc, t.me.edgePrev)) = some (0, some 0) := by
  decide
theorem test_waitPin : after 0x20A3 (atPins (cfg 0x000C0000 0x000F0000) 0x2) (·.me.pc) = some 1 := by decide
theorem test_waitPin_stall : after 0x2022 (atPins (cfg 0x000C0000 0x00080000) 0x40000) (·.me.pc) = some 0 := by decide
theorem test_waitIrq : after 0x20C2 { at_ Sm.reset with irq := 0x07 } (fun t => (t.me.pc, t.irq)) = some (1, 0x03) := by decide
theorem test_waitIrq_rel : after 0x20D0 { at_ Sm.reset with irq := 0x04, active := 2 } (fun t => (t.me.pc, t.irq)) =
    some (1, 0) := by decide
theorem test_waitEdge : after 0x2068 (atPins { Sm.reset with edgePrev := some 0x100 } 0) (·.me.pc) = some 1 := by decide
theorem test_waitEdge_first : after 0x2068 (atPins Sm.reset 0) (·.me.pc) = some 0 := by decide

-- IN: vectors I1, I2, I4, I5, I7, I8, I9, I10, I15.
theorem test_inPins_autopush :
    after 0x4008 (atPins (cfg 0x00890000 0x14000000) 0xB1) (fun t => (t.me.rx, t.me.isr, t.me.isrCount)) =
      some ([0xB1], 0, 0) := by decide
theorem test_inPins_stall :
    after 0x4008 (atPins { cfg 0x00890000 0x14000000 with rx := four } 0xB1) (fun t => (t.me.pc, t.me.rx, t.fdebug)) =
      some (0, four, 0x00000001) := by decide
theorem test_inX : after 0x4020 (at_ { Sm.reset with x := .of 0x12345678 }) (fun t => (t.me.isr, t.me.isrCount)) =
    some (0x12345678, 32) := by decide
theorem test_inY_unwritten : faults 0x4048 (at_ unwrittenSm) = true := by decide
theorem test_inY : after 0x4048 (at_ { Sm.reset with y := .of 0xAB }) (fun t => (t.me.isr, t.me.isrCount)) =
    some (0xAB000000, 8) := by decide
theorem test_inNull : after 0x4064 (at_ { cfg 0x00080000 0x14000000 with isr := 0xF, isrCount := 4 })
    (fun t => (t.me.isr, t.me.isrCount)) = some (0xF0, 8) := by decide
theorem test_inNull_autopush : after 0x4068 (at_ { cfg 0x00890000 0x14000000 with isr := 0xAB, isrCount := 8 })
    (fun t => (t.me.rx, t.me.isr, t.me.isrCount)) = some ([0xAB00], 0, 0) := by decide
theorem test_inIsr : after 0x40C4 (at_ { cfg 0x00080000 0x14000000 with isr := 0xA, isrCount := 4 })
    (fun t => (t.me.isr, t.me.isrCount)) = some (0xAA, 8) := by decide
theorem test_inOsr_unwritten : faults 0x40E8 (at_ unwrittenSm) = true := by decide

-- OUT: vectors O1 to O8, O9, O10.
theorem test_outPins : after 0x6008 (at_ { cfg 0x100E0000 0x00800010 with tx := [0xB1] })
    (fun t => (t.padOut, t.me.osr, t.me.osrCount, t.me.tx)) = some (0x00B10000, .of 0, 8, []) := by decide
theorem test_outPins_stall : after 0x6008 (at_ (cfg 0x100E0000 0x00800010))
    (fun t => (t.me.pc, t.fdebug, t.me.faultRec)) = some (0, 0x01000000, none) := by decide
theorem test_outX : after 0x6020 (at_ { Sm.reset with osr := .of 0xDEADBEEF, osrCount := 0 })
    (fun t => (t.me.x, t.me.osr, t.me.osrCount)) = some (.of 0xDEADBEEF, .of 0, 32) := by decide
theorem test_outX_unwritten : faults 0x6020 (at_ unwrittenSm) = true := by decide
theorem test_outY : after 0x6044 (at_ { cfg 0x00040000 0x14000000 with osr := .of 0xA0000005, osrCount := 0 })
    (fun t => (t.me.y, t.me.osr, t.me.osrCount)) = some (.of 0xA, .of 0x50, 4) := by decide
theorem test_outNull : after 0x6068 (at_ { Sm.reset with osr := .of 0x1234, osrCount := 0 })
    (fun t => (t.me.osr, t.me.osrCount)) = some (.of 0x12, 8) := by decide
theorem test_outPindirs : after 0x6082 (at_ { cfg 0x000C0000 0x00200005 with osr := .of 3, osrCount := 0 })
    (fun t => (t.padOe, t.padOut, t.me.osrCount)) = some (0x60, 0, 2) := by decide
theorem test_outPc : after 0x60A5 (at_ { Sm.reset with pc := 2, osr := .of 0x1D, osrCount := 0 })
    (fun t => (t.me.pc, t.me.osrCount)) = some (29, 5) := by decide
theorem test_outIsr : after 0x60C6 (at_ { Sm.reset with osr := .of 0x3F, osrCount := 0, isr := 0x12, isrCount := 8 })
    (fun t => (t.me.isr, t.me.isrCount, t.me.osrCount)) = some (0x3F, 6, 6) := by decide
theorem test_outExec : after 0x60F0 (at_ { Sm.reset with pc := 4, osr := .of 0xE03F, osrCount := 0 })
    (fun t => (t.me.pc, t.me.pending, t.me.delayCount)) = some (5, some (0xE03F, .exec), 0) := by decide
theorem test_outExec_second : after 0xE03F (at_ { Sm.reset with pc := 5, pending := some (0xE03F, .exec) })
    (fun t => (t.me.x, t.me.pc, t.me.pending)) = some (.of 0x1F, 5, none) := by decide

-- PUSH and PULL: vectors U2, U4, U6, U7 (with U8 as the unwritten case in the witnesses).
theorem test_push_iffull : after 0x8060 (at_ { cfg 0x008C0000 0x14000000 with isr := 5, isrCount := 4 })
    (fun t => (t.me.rx, t.me.isr, t.me.isrCount)) = some ([], 5, 4) := by decide
theorem test_push_noblock : after 0x8000 (at_ { Sm.reset with isr := 0x77, isrCount := 8, rx := four })
    (fun t => (t.me.rx, t.me.isr, t.me.isrCount, t.fdebug)) = some (four, 0, 0, 0) := by decide
theorem test_pull : after 0x80A0 (at_ { Sm.reset with tx := [0xF0, 0x0F] })
    (fun t => (t.me.osr, t.me.osrCount, t.me.tx)) = some (.of 0xF0, 0, [0x0F]) := by decide
theorem test_pull_noblock : after 0x8080 (at_ { Sm.reset with x := .of 0x55 })
    (fun t => (t.me.osr, t.me.osrCount)) = some (.of 0x55, 0) := by decide

-- MOV: vectors M1, M2, M4 to M9, M11.
theorem test_movX : after 0xA02F (at_ { Sm.reset with osr := .of 0xF0 }) (·.me.x) = some (.of 0xFFFFFF0F) := by decide
theorem test_movX_status : after 0xA025 (at_ { Sm.reset with execctrl := 0x0001F001 }) (·.me.x) =
    some (.of 0xFFFFFFFF) := by decide
theorem test_movY_unwritten : faults 0xA041 (at_ unwrittenSm) = true := by decide
theorem test_movY_invert : after 0xA04A (at_ { Sm.reset with y := .of 0x0F }) (·.me.y) = some (.of 0xFFFFFFF0) := by decide
theorem test_movPins : after 0xA001 (at_ { cfg 0x000C0000 0x00800010 with x := .of 0x1A5 }) (·.padOut) =
    some 0x00A50000 := by decide
theorem test_movIsr : after 0xA0D1 (at_ { Sm.reset with x := .of 1, isrCount := 5 })
    (fun t => (t.me.isr, t.me.isrCount)) = some (0x80000000, 0) := by decide
theorem test_movExec : after 0xA081 (at_ { Sm.reset with pc := 7, x := .of 0xE041 })
    (fun t => (t.me.pc, t.me.pending)) = some (8, some (0xE041, .exec)) := by decide
theorem test_movPc : after 0xA0A2 (at_ { Sm.reset with y := .of 0x23 }) (·.me.pc) = some 3 := by decide
theorem test_movOsr : after 0xA0EB (at_ Sm.reset) (fun t => (t.me.osr, t.me.osrCount)) = some (.of 0xFFFFFFFF, 0) := by decide
theorem test_nop_unwritten : after 0xA042 (at_ unwrittenSm) (fun t => (t.me.y, t.me.faultRec, t.me.pc)) =
    some (.unwritten, none, 1) := by decide

-- IRQ and SET: vectors Q1, Q2, Q3, Q5, S1, S2, S3, S4, S5.
theorem test_irqSet : after 0xC000 (at_ Sm.reset) (fun t => (t.irq, t.me.pc)) = some (1, 1) := by decide
theorem test_irqSet_rel : after 0xC015 { at_ Sm.reset with active := 3 } (·.irq) = some 0x10 := by decide
theorem test_irqWait : after 0xC021 (at_ Sm.reset) (fun t => (t.irq, t.me.irqWaiting, t.me.pc)) = some (2, true, 0) := by decide
theorem test_irqWait_done : after 0xC021 (at_ { Sm.reset with irqWaiting := true })
    (fun t => (t.irq, t.me.irqWaiting, t.me.pc)) = some (0, false, 1) := by decide
theorem test_irqClear : after 0xC043 { at_ Sm.reset with irq := 0xFF } (·.irq) = some 0xF7 := by decide
theorem test_setPindirs : after 0xE081 (at_ (cfg 0x000C0000 0x04000100)) (·.padOe) = some 0x100 := by decide
theorem test_setX : after 0xE03F (at_ { Sm.reset with x := .of 0xFFFFFFFF }) (·.me.x) = some (.of 0x1F) := by decide
theorem test_setY : after 0xE040 (at_ Sm.reset) (·.me.y) = some (.of 0) := by decide
theorem test_setPins : after 0xE015 (at_ Sm.reset) (·.padOut) = some 0x15 := by decide
theorem test_setPins_wraps : after 0xE007 (at_ (cfg 0x000C0000 0x0C0003C0)) (·.padOut) = some 0xC0000001 := by decide

-- The tick: vectors W17, T11 (side-set on a stall and over the instruction's write), T5 to T8.
theorem test_side_set_stall : after 0x3088 (atPins (cfg 0x000C0000 0x20004000) 0) (fun t => (t.me.pc, t.padOut)) =
    some (0, 0x10000) := by decide
theorem test_side_set_wins :
    after 0x7008 (at_ { cfg 0x000C0000 0x20804010 with osr := .of 0, osrCount := 0 }) (·.padOut) = some 0x10000 := by decide
theorem test_wrap : after 0xE020 (at_ { Sm.reset with pc := 3, execctrl := 0x00003080 }) (·.me.pc) = some 1 := by decide
theorem test_pc_wraps : after 0xE020 (at_ { Sm.reset with pc := 31, execctrl := 0x0001E000 }) (·.me.pc) = some 0 := by decide

/-! One step of the whole machine. -/

/-- The machine whose next event is `e`. -/
def onEvent (e : Event) (s : State) : State := { s with agenda := [e] }

/-- What `f` reads in the state after one step of `s`. -/
def afterStep {α : Type} (s : State) (f : State → α) : Option α :=
  match step s with
  | .next t => some (f t)
  | .fault _ => none
  | .refused _ => none

/-- The next step of `s` is refused for the reason `r`. -/
def refuses (s : State) (r : Refusal) : Bool :=
  match step s with
  | .next _ => false
  | .fault _ => false
  | .refused r' => decide (r' = r)

/-- A channel of the source's loopback (45_transfer_engine.md R155), in phase `p`. -/
def loopback (p : Phase) : Channel :=
  { Channel.reset with
    readAddr := 0x50200020, writeAddr := 0x50200010, countReload := 0xF0000000, countMode := 0xF, ctrl := 0x020009,
    busy := true, phase := p }

/-- A counted channel that copies words of platform memory (vector X4, one transfer left), in phase `p`. -/
def copier (p : Phase) : Channel :=
  { Channel.reset with
    readAddr := 0x20000000, writeAddr := 0x20000100, countReload := 1, countRemaining := 1, ctrl := 0x1F8039, busy := true,
    phase := p }

/-- The machine with one channel, and the next event its own. -/
def withChannel (ch : Channel) (s : State) : State := onEvent (.channel 0) { s with channels := [ch] }

/-- The machine about to fetch and execute `w` on state machine 0, which is `m` but for its injection, delay and
record. -/
def ticking (w : InstrWord) (m : Sm) : State := (at_ m).withFetchWord 16 w.toNat

/-- A host write, the next event. -/
def hostWrites (addr v : Word) (s : State) : State := onEvent (.hostWrite addr .word v) s

/-- A host read, the next event. -/
def hostReads (addr : Word) (s : State) : State := onEvent (.hostRead addr .word) s

theorem test_step_fetches : afterStep (ticking 0x0043 { Sm.reset with pc := 5, x := .of 2 }) (fun t => (t.me.pc, t.me.x)) =
    some (3, .of 1) := by decide
/-- Right after reset every read of X, Y and the OSR answers 0 and none faults (92_eei_decisions.md D7). -/
theorem test_reset_reads : ([0x0024, 0x4020, 0x4048, 0x40E8, 0x6020, 0x8080, 0xA041, 0xA027].map fun w =>
      after w State.reset fun t => (t.me.pc, t.me.faultRec, t.me.x)) =
    (some (4, none, .of 0)) :: List.replicate 7 (some (1, none, .of 0)) := by decide
/-- Vector T5. -/
theorem test_step_unwritten_slot : afterStep (onEvent (.tick 0) { at_ Sm.reset with smEnable := 1 }) (·.me.faultRec) =
    some (some { reason := .unwrittenRead, pc := 0, word := none }) := by decide
/-- Vector T2. -/
theorem test_injection_overrun :
    refuses (hostWrites 0x502000D8 0 (at_ { Sm.reset with pending := some (0xE09F, .host) })) (.injectionOverrun .host) =
      true := by decide
/-- Vector T1: an injection on a disabled state machine. -/
theorem test_injection_disabled :
    afterStep (onEvent (.tick 0) (at_ { cfg 0x000C0000 0x14000200 with pending := some (0xE09F, .host) }))
      (fun t => (t.padOe, t.me.pc, t.me.pending)) = some (0x1F0000, 0, none) := by decide
theorem test_ctrl_write : afterStep (hostWrites 0x50200000 0x11 (at_ { Sm.reset with isr := 5, delayCount := 3 }))
    (fun t => (t.smEnable, t.me.isr, t.me.delayCount)) = some (1, 0, 0) := by decide
theorem test_rxf_read : afterStep (hostReads 0x50200020 (at_ { Sm.reset with rx := [7, 8] }))
    (fun t => (t.hostData, t.me.rx)) = some (7, [8]) := by decide
/-- Vector X1, its two steps. -/
theorem test_loopback_read : afterStep (withChannel (loopback .idle) (at_ { Sm.reset with rx := [0xB1] }))
    (fun t => (t.me.rx, t.channels.map (·.phase))) = some ([], [.hold 0xB1]) := by decide
theorem test_loopback_write : afterStep (withChannel (loopback (.hold 0xB1)) (at_ Sm.reset))
    (fun t => (t.me.tx, t.channels.map (·.busy))) = some ([0xB1], [true]) := by decide
/-- The last transfer of vector X4. -/
theorem test_copy_write : afterStep (withChannel (copier (.hold 0x55667788)) (at_ Sm.reset))
    (fun t => (t.mem, t.channels.map (·.busy))) =
      some ([(0x20000100, 0x88), (0x20000101, 0x77), (0x20000102, 0x66), (0x20000103, 0x55)], [false]) := by decide

/-! Witnesses: for each statement with hypotheses, values that meet them together, for each of its clauses. -/

theorem witness_DecodeEncode : Instr.wf (.waitIrq 31 true 0x17) = true ∧ Instr.wf (.movY 0 .reverse .y) = true := by decide

theorem witness_EncodeDecode : decode 0x3FF7#16 = .ok (.waitEdge 31 true 0x17) := by decide

theorem witness_ReservedEncodings :
    TicksNext (ticking 0xC008 Sm.reset) 0 ∧ Selects (ticking 0xC008 Sm.reset) 0 0xC008 ∧ Reserved 0xC008 :=
  ⟨⟨rfl, by decide, by decide, by decide⟩, .inr ⟨by decide, by decide, by decide⟩, by unfold Reserved; decide⟩

/-- All five bits side-set, none of them, and the enable with and without data. -/
theorem witness_DelaySideSetSplit :
    ((cfg 0 0xA0000000).sidesetCount = 5 ∧ (cfg 0 0xA0000000).sideEn = false) ∧
    ((cfg 0 0).sidesetCount = 0 ∧ (cfg 0 0).sideEn = false) ∧
    ((cfg 0 0x20000000).sidesetCount = 1 ∧ (cfg 0 0xA0000000).sidesetCount ≤ 5 ∧
      Sm.sideEn { cfg 0 0x20000000 with execctrl := 0x40000000 } = true) := by decide

/-- A machine whose state machine 0 runs `jmp 0` for ever on pins held low, with nothing else enabled. -/
def looping (tx : List Word) (ch : Channel) (n : Nat) : State :=
  { at_ { Sm.reset with edgePrev := some 0, tx := tx } with
    imem := Vector.replicate 32 (.of 0x0000), smEnable := 1, channels := [ch], now := n }

/-- Its run: the channel writes the word it holds, then state machine 0 ticks for ever. -/
def loopingEvent : Nat → Event
  | 0 => .channel 0
  | _ + 1 => .tick 0

def loopingState : Nat → State
  | 0 => looping [] (loopback (.hold 7)) 0
  | n + 1 => looping [7] (loopback .idle) (n + 1)

theorem looping_pins (n : Nat) : (looping [7] (loopback .idle) n).pinSample = 0 := by
  apply BitVec.eq_of_getLsbD_eq
  intro p hp
  have he : ∀ p < 32, (looping [7] (loopback .idle) 0).extOf p = .low ∧
      (looping [7] (loopback .idle) 0).drives p = false := by decide
  have hx : (looping [7] (loopback .idle) n).extOf p = .low := (he p hp).1
  have hd : (looping [7] (loopback .idle) n).drives p = false := (he p hp).2
  rw [getLsbD_pinSample _ hp, State.pinAt, hx, hd]
  simp [pinLevel]

theorem looping_tick (n : Nat) :
    (looping [7] (loopback .idle) n).stepOn (.tick 0) = .next (looping [7] (loopback .idle) (n + 1)) := by
  have h : (looping [7] (loopback .idle) n).stepOn (.tick 0) = tickActive (looping [7] (loopback .idle) (n + 1)) :=
    if_pos (by decide : (looping [7] (loopback .idle) 0).smEnabled 0 = true)
  have ha : (looping [7] (loopback .idle) 0).me.admitted = true ∧ (looping [7] (loopback .idle) 0).me.delayCount = 0 ∧
      (looping [7] (loopback .idle) 0).selectWord = some 0 := by decide
  have hr : (looping [7] (loopback .idle) 0).me.retire (looping [7] (loopback .idle) 0).me 0 0 (some 0) none =
      (looping [7] (loopback .idle) 0).me := by decide
  have hm : (looping [7] (loopback .idle) (n + 1)).setMe ((looping [7] (loopback .idle) 0).me.retire
      (looping [7] (loopback .idle) 0).me 0 0 (some 0) none) = looping [7] (loopback .idle) (n + 1) := by
    rw [hr]; exact State.setMe_me_self _
  rw [h, tickActive_word (s := looping [7] (loopback .idle) (n + 1)) ha.1 ha.2.1 ha.2.2]
  show (Host.Outcome.next _ : Out) = _
  congr 1
  rw [looping_pins]
  show State.sideSet (State.setMe _ ((looping [7] (loopback .idle) 0).me.retire (looping [7] (loopback .idle) 0).me 0 0
    (some 0) none)) (looping [7] (loopback .idle) 0).me 0 = _
  rw [hm]
  rfl

/-- The end state of vector P1: an OUT that stalls for ever on an empty TX FIFO, and a channel with no request. -/
def stalledOut : State :=
  { at_ { cfg 0x500A0000 0x00802000 with edgePrev := some 0, osrCount := 32 } with
    imem := Vector.replicate 32 (.of 0x6008), smEnable := 1, channels := [loopback .idle] }

/-- As `stalledOut`, whatever the edge histories and the rest of the machine. -/
structure LikeStalledOut (t : State) : Prop where
  sm : ∀ k, ∃ e q, t.sm k = { stalledOut.sm k with edgePrev := e, irqWaiting := q }
  imem : t.imem = stalledOut.imem
  smEnable : t.smEnable = 1
  channels : t.channels = [loopback .idle]
  params : t.params = stalledOut.params
  env : t.env = stalledOut.env

theorem LikeStalledOut.smEnabled {t : State} (h : LikeStalledOut t) (k : SmId) : t.smEnabled k = stalledOut.smEnabled k := by
  obtain ⟨e, q, hk⟩ := h.sm k
  simp only [State.smEnabled, hk, h.smEnable]
  rfl

theorem LikeStalledOut.noChannel {t : State} (h : LikeStalledOut t) (c : Nat) : ¬t.HasStep (.channel c) := by
  rintro ⟨ch, hc, he⟩
  rw [h.channels] at hc
  obtain ⟨e, q, h0⟩ := h.sm 0
  cases c with
  | zero =>
    cases hc
    have hq : t.dreq 4 = false := by
      simp only [State.dreq, h.params]
      show (!(t.sm 0).rxEmpty) = false
      rw [h0]
      exact (by decide : (!(stalledOut.sm 0).rxEmpty) = false)
    have : t.channelEnabled (loopback .idle) = t.dreq 4 := rfl
    rw [this, hq] at he
    cases he
  | succ c => cases hc

theorem LikeStalledOut.stalls {t : State} (h : LikeStalledOut t) : t.Stalls 0 := by
  obtain ⟨e, q, hk⟩ := h.sm 0
  have hsup : (t.sm 0).outSupply = .starved := by
    rw [hk]
    have hp : ((stalledOut.sm 0).autopull && decide ((stalledOut.sm 0).pullThresh ≤ (stalledOut.sm 0).osrCount)) = true := by
      decide
    exact if_pos hp
  have hslot : Holds (t.imem.get (t.sm 0).pc.toFin) 0x6008 := by
    rw [hk, h.imem]
    exact (⟨by decide, by decide⟩ : Holds (stalledOut.imem.get (stalledOut.sm 0).pc.toFin) 0x6008)
  have hrule (u : State) (hu : u.me.outSupply = .starved) : ruleOf (.outPins 0 8) u = .stall u.setTxStall := by
    simp only [ruleOf, ruleOutPins, outRule, hu]
  have hadmitted : (t.sm 0).admitted = true := by rw [hk]; exact (by decide : (stalledOut.sm 0).admitted = true)
  have hpending : (t.sm 0).pending = none := by rw [hk]; rfl
  exact ⟨(h.smEnabled 0).trans (by decide), hadmitted, by rw [hk]; rfl, _, _, _, .inr ⟨hpending, hslot⟩, by decide,
    hrule _ hsup⟩

theorem LikeStalledOut.stepOn {t u : State} {e : Event} (h : LikeStalledOut t)
    (he : (∃ k, e = .tick k) ∨ (∃ c, e = .channel c)) (hs : t.stepOn e = .next u) : LikeStalledOut u := by
  have hstut : ∀ {v}, v = { t with agenda := [], now := t.now + 1 } → LikeStalledOut v := fun hv => by
    subst hv; exact ⟨h.sm, h.imem, h.smEnable, h.channels, h.params, h.env⟩
  rcases he with ⟨k, rfl⟩ | ⟨c, rfl⟩
  · by_cases hk : k = 0
    · subst hk
      obtain ⟨v, hv, hf, hsm⟩ := h.stalls.stepOn
      cases hv.symm.trans hs
      refine ⟨fun k => ?_, hf.imem.trans h.imem, hf.smEnable.trans h.smEnable, hf.channels.trans h.channels,
        hf.params.trans h.params, hf.env.trans h.env⟩
      by_cases hk : k = 0
      · subst hk
        obtain ⟨e, q, h0⟩ := h.sm 0
        exact ⟨_, _, hsm.trans (by rw [h0])⟩
      · rw [hf.others k hk]; exact h.sm k
    · have hoff := (by decide : ∀ k, k ≠ 0 → stalledOut.smEnabled k = false) k hk
      rw [State.stepOn_tick_off ((h.smEnabled k).trans hoff)] at hs
      exact hstut (Host.Outcome.next.inj hs).symm
  · rw [State.stepOn_channel_off (h.noChannel c)] at hs
    exact hstut (Host.Outcome.next.inj hs).symm

theorem stalledOut_deadlock : stalledOut.Deadlock := by
  have hreach : ∀ {s t : State}, s.Reaches t → LikeStalledOut s → LikeStalledOut t := fun h => by
    induction h with
    | refl => exact id
    | step he hs _ ih => exact fun hl => ih (hl.stepOn he hs)
  intro t ht
  have hl := hreach ht ⟨fun k => ⟨_, _, rfl⟩, rfl, rfl, rfl, rfl, rfl⟩
  refine ⟨fun k => ?_, hl.noChannel⟩
  by_cases hk : k = 0
  · subst hk; exact .inr hl.stalls
  · exact .inl ((hl.smEnabled k).trans ((by decide : ∀ k, k ≠ 0 → stalledOut.smEnabled k = false) k hk))

/-- A `jmp` to itself, as at the end of vector P4, completes: that is no deadlock. -/
theorem looping_no_deadlock : ¬(looping [7] (loopback .idle) 0).Deadlock := by
  intro h
  rcases (h _ (.refl _)).1 0 with h | ⟨_, _, _, w, i, u, hw, hi, hr⟩
  · exact absurd h (by decide)
  · have hw : w = 0 := by
      rcases hw with ⟨kind, hp⟩ | ⟨_, _, hv⟩
      · cases hp
      · exact hv.symm
    subst hw
    have hj : decode 0#16 = .ok (.jmpAlways 0 0) := by decide
    cases hj.symm.trans hi
    cases hr

/-- A state machine with no enabled step, a deadlock, a loop that is none, and a weakly fair run in which state machine 0
stays enabled and a channel holds a word. -/
theorem witness_EnabledStep :
    (onEvent (.tick 3) State.reset).nextEvent = .tick 3 ∧ (onEvent (.tick 3) State.reset).smEnabled 3 = false ∧
    stalledOut.Deadlock ∧ ¬(looping [7] (loopback .idle) 0).Deadlock ∧ IsRun loopingEvent loopingState ∧
    WeaklyFair loopingEvent loopingState ∧ (∀ n, (loopingState n).smEnabled 0 = true) ∧
    (loopingState 0).HoldsWord 0 7 0x50200010 := by
  have enabled (n : Nat) : (loopingState n).smEnabled 0 = true := by
    cases n with
    | zero => decide
    | succ n => exact (by decide : (looping [7] (loopback .idle) 0).smEnabled 0 = true)
  refine ⟨rfl, rfl, stalledOut_deadlock, looping_no_deadlock, ?_, ?_, enabled, ⟨_, rfl, rfl, rfl, rfl⟩⟩
  · intro n
    cases n with
    | zero => rfl
    | succ n => exact looping_tick (n + 1)
  · intro a n ha h
    have hn := h (n + 1) (Nat.le_succ n)
    cases a with
    | sm k =>
      have hk : ∀ k : SmId, k ≠ 0 → (looping [7] (loopback .idle) 0).smEnabled k ≠ true := by decide
      have : k = 0 := Decidable.byContradiction fun e => hk k e hn
      exact ⟨n + 1, Nat.le_succ n, this ▸ rfl⟩
    | channel c =>
      obtain ⟨ch, hc, he⟩ := hn
      cases c with
      | zero => cases hc; cases he
      | succ c => cases hc
    | host => exact absurd rfl ha

theorem witness_StepRunsDecoded :
    (TicksNext (ticking 0xA042 Sm.reset) 0 ∧ Selects (ticking 0xA042 Sm.reset) 0 0xA042 ∧ decode 0xA042 = .ok (.nop 0)) ∧
    let s := onEvent (.tick 0) { State.reset with smEnable := 1 }
    TicksNext s 0 ∧ (s.sm 0).pending = none ∧ (s.imem.get (s.sm 0).pc.toFin).written = false :=
  ⟨⟨⟨rfl, by decide, by decide, by decide⟩, .inr ⟨by decide, by decide, by decide⟩, by decide⟩,
    ⟨rfl, by decide, by decide, by decide⟩, by decide, by decide⟩

theorem witness_DelayTick :
    let s := onEvent (.tick 0) { at_ { Sm.reset with delayCount := 1 } with smEnable := 1 }
    s.nextEvent = .tick 0 ∧ s.smEnabled 0 = true ∧ (s.sm 0).admitted = true ∧ 0 < (s.sm 0).delayCount := by decide

theorem windowsApart_default : WindowsApart Params.default := by unfold WindowsApart; decide

theorem witness_ConfigAdmitted :
    (let s := onEvent (.tick 0) { at_ (cfg 0xC00C0000 0x14000000) with smEnable := 1 };
      s.nextEvent = .tick 0 ∧ s.smEnabled 0 = true ∧ (s.sm 0).admitted = false) ∧
    WindowsApart State.reset.params :=
  ⟨by decide, windowsApart_default⟩

theorem witness_NextPc :
    (Sm.reset.pending = none ∧ Sm.reset.pc ≠ Sm.reset.wrapTop) ∧
    (let m := { Sm.reset with pc := 31 }; m.pending = none ∧ m.pc = m.wrapTop) ∧
    (Sm.pending { Sm.reset with pending := some (0, .host) }) ≠ none := by decide

/-- No pin, all pins, and a range that wraps past pin 31 with a pin outside it. -/
theorem witness_PinRanges : (0 ≤ 32 ∧ 5 < 32 ∧ ∀ i < 0, 5 ≠ (0 + i) % 32) ∧ 32 ≤ 32 ∧ 31 < 32 ∧
    (3 ≤ 32 ∧ 1 < 32 ∧ ∀ i < 3, 1 ≠ (30 + i) % 32) := by decide

/-- The six cases of a pin, on the last pin. -/
theorem witness_PinLevels :
    let s := { State.reset with padOe := 0x80000000, params := { Params.default with numGpio := 32 } }
    let env (f : FuncSel) (d : PinDrive) : Env :=
      { envAtReset with ext := Vector.replicate 32 d, funcsel := Vector.replicate 32 f }
    (∀ d ∈ [PinDrive.z, .low, .high], { s with env := env .seq d }.drives 31 = true ∧
      { s with env := env .seq d }.extOf 31 = d) ∧
    (∀ d ∈ [PinDrive.z, .low, .high], { s with env := env .other d }.drives 31 = false ∧
      { s with env := env .other d }.extOf 31 = d) ∧ s.padOut.getLsbD 31 = false ∧
    (onEvent (.environment (env .seq .high)) s).nextEvent = .environment (env .seq .high) := by decide

/-- The three answers of a condition on X: unwritten, true, false. -/
theorem witness_JmpRule :
    let cond (m : Sm) := (readCell m.x).map fun x => decide (x = 0)
    cond unwrittenSm = none ∧ cond { Sm.reset with x := .of 0 } = some true ∧
      cond { Sm.reset with x := .of 1 } = some false := by decide

theorem witness_WaitLevelRule : (atPins Sm.reset 0x100).pinSample.getLsbD 8 = true ∧
    (atPins Sm.reset 0).pinSample.getLsbD 8 = false := by decide

/-- A reserved index; a flag at each level, by an absolute index and by a relative one. -/
theorem witness_WaitIrqRule :
    irqIndex 8 State.reset.active = none ∧
    (irqIndex 2 State.reset.active = some 2 ∧ State.reset.irq.getLsbD 2 = false) ∧
    let s := { State.reset with irq := 1, active := 3 }
    irqIndex 0x11 s.active = some 0 ∧ s.irq.getLsbD 0 = true := by decide

theorem witness_WaitEdgeRule :
    let s := atPins { Sm.reset with edgePrev := some 0x100 } 0
    (∃ prev, s.me.edgePrev = some prev ∧ prev.getLsbD 8 = true ∧ s.pinSample.getLsbD 8 = false) ∧
    ¬∃ prev, State.reset.me.edgePrev = some prev ∧ prev.getLsbD 8 = true ∧ State.reset.pinSample.getLsbD 8 = false :=
  ⟨⟨0x100, by decide, by decide, by decide⟩, fun h => by obtain ⟨_, h, _⟩ := h; cases h⟩

theorem witness_ShiftBits : (1 ≤ 1 ∧ 1 ≤ 32) ∧ (1 ≤ 32 ∧ 32 ≤ 32) ∧ (0 < 32 ∧ 31 < 32) := by decide

/-- No autopush, an autopush at exactly the threshold with room, and one without. -/
theorem witness_InRule :
    readCell unwrittenSm.x = none ∧ readCell { Sm.reset with x := .of 3 }.x = some 3 ∧ ¬AutopushDue Sm.reset 8 ∧
    (AutopushDue (cfg 0x008D0000 0) 8 ∧ (cfg 0x008D0000 0).rx.length ≠ (cfg 0x008D0000 0).rxCap) ∧
    AutopushDue { cfg 0x008D0000 0 with rx := four } 8 ∧
    { cfg 0x008D0000 0 with rx := four }.rx.length = { cfg 0x008D0000 0 with rx := four }.rxCap := by
  unfold AutopushDue; decide

/-- An OUT that autopull refills, with the count exactly at the threshold, one that shifts the OSR, one that stalls and
one that faults. -/
theorem witness_OutRule :
    OutTakes { cfg 0x100E0000 0 with osrCount := 8, tx := [9, 7] } 9 0 [7] ∧
    OutTakes { cfg 0x100E0000 0 with osr := .of 5, osrCount := 7, tx := [9] } 5 7 [9] ∧
    (AutopullDue (cfg 0x100E0000 0) ∧ (cfg 0x100E0000 0).tx = []) ∧ ¬AutopullDue unwrittenSm ∧ unwrittenSm.osr.written = false := by
  unfold OutTakes AutopullDue Holds; decide

/-- `iffull` below the threshold; a full FIFO, blocking or not, with either parameter; and room, at the threshold. -/
theorem witness_PushRule :
    (let m := { cfg 0x008C0000 0 with isrCount := 7 }; true = true ∧ m.isrCount < m.pushThresh) ∧
    (let m := { Sm.reset with rx := four }; ¬(false = true ∧ m.isrCount < m.pushThresh) ∧ m.rx.length = m.rxCap) ∧
    (let m := { cfg 0x008C0000 0 with isrCount := 8 }; ¬(true = true ∧ m.isrCount < m.pushThresh) ∧ m.rx.length ≠ m.rxCap) ∧
    (at_ Sm.reset).params.noblockPushClears = true ∧
    { Params.default with noblockPushClears := false }.noblockPushClears = false := by
  decide

/-- The two ways a PULL has no effect, and states where it stalls, faults, copies X and pulls. -/
theorem witness_PullRule :
    let skips (ifempty : Bool) (m : Sm) :=
      decide ((ifempty = true ∧ m.osrCount < m.pullThresh) ∨ (m.autopull = true ∧ m.osrCount = 0))
    skips true { cfg 0x100C0000 0 with osrCount := 7 } = true ∧ skips false { cfg 0x000E0000 0 with osrCount := 0 } = true ∧
    (skips true unwrittenSm = false ∧ unwrittenSm.tx = [] ∧ unwrittenSm.x.written = false) ∧
    (let m := { Sm.reset with x := .of 5 }; skips false m = false ∧ m.tx = [] ∧ Holds m.x 5) ∧
    let m := { Sm.reset with tx := [1, 2] }
    skips true m = false ∧ m.tx = 1 :: [2] := by
  unfold Holds; decide

theorem witness_MovRule :
    Sm.reset.movSource 0 .null = some 0 ∧ unwrittenSm.movSource 0 .x = none ∧ ¬(MovOp.invert = .none ∧ MovSrc.x = .x) := by
  decide

theorem witness_IrqIndexRule :
    (8#5 : Five).getLsbD 3 = true ∧ ((0x07#5 : Five).getLsbD 3 = false ∧ (0x07#5 : Five).getLsbD 4 = false) ∧
    ((0x15#5 : Five).getLsbD 3 = false ∧ (0x15#5 : Five).getLsbD 4 = true) := by decide

/-- A reserved index; not waiting; waiting with the flag cleared, and still set. -/
theorem witness_IrqRule :
    irqIndex 8 State.reset.active = none ∧ (irqIndex 7 State.reset.active = some 7 ∧ State.reset.me.irqWaiting = false) ∧
    let s := at_ { Sm.reset with irqWaiting := true }
    irqIndex 7 s.active = some 7 ∧ s.me.irqWaiting = true ∧ s.irq.getLsbD 7 = false ∧
      { s with irq := 0x80 }.irq.getLsbD 7 = true ∧ { s with irq := 0x80 }.me.irqWaiting = true := by decide

theorem witness_EveryInstructionRuns :
    Instr.wf (.irqSet 0 7) = true ∧ exec (.irqSet 0 8) State.reset = .refused (.reservedEncoding (.sm 0)) :=
  ⟨by decide, rfl⟩

/-- A next state, of an instruction that moves two words through the FIFOs' owner. -/
theorem witness_InstructionFrame :
    (after 0x4008 (atPins (cfg 0x00890000 0x14000000) 0xB1) fun _ => true) = some true := by decide

/-- An instruction that faults, one on written registers, a tick of the state machine after a fault, and a step of another
agent. -/
theorem witness_UnwrittenReadFault :
    (∃ t, exec (.jmpNotX 0 4) (at_ unwrittenSm) = .next t ∧ (at_ unwrittenSm).me.faultRec = none ∧ t.me.faultRec ≠ none) ∧
    (∃ t, exec (.jmpNotX 0 4) State.reset = .next t ∧ State.reset.me.faultRec = none ∧ State.reset.me.x.written = true ∧
      State.reset.me.y.written = true ∧ State.reset.me.osr.written = true) ∧
    (let s := onEvent (.tick 0) (State.reset.takeFault none); s.nextEvent = .tick 0 ∧ (s.sm 0).faultRec ≠ none) ∧
    let s := hostWrites 0x50200000 0x11 (State.reset.takeFault none)
    (s.sm 0).faultRec = some { reason := .unwrittenRead, pc := 0, word := none } ∧ s.nextEvent ≠ .blockReset ∧
      (afterStep s fun t => t.smEnable) = some 1 :=
  ⟨⟨_, rfl, rfl, by decide⟩, ⟨_, rfl, by decide⟩, by decide, by decide, by decide, by decide⟩

theorem witness_SideSetWins :
    (after 0x7008 (at_ { cfg 0x000C0000 0x20804010 with osr := .of 0, osrCount := 0 }) fun t => t.me.faultRec) =
      some none ∧
    (dsSplit (cfg 0x000C0000 0x20804010) 0x10).ssValid = true ∧ 0 < (dsSplit (cfg 0x000C0000 0x20804010) 0x10).ssBits ∧
    (cfg 0x000C0000 0x20804010).sidePindir = false ∧
    let m := { cfg 0x000C0000 0x20804010 with execctrl := 0x20000000 }
    (after 0xF03F (at_ m) fun t => (t.me.faultRec, t.padOe)) = some (none, 0x10000) ∧ (dsSplit m 0x10).ssValid = true ∧
    0 < (dsSplit m 0x10).ssBits ∧ m.sidePindir = true := by
  decide

theorem witness_FifoOrder :
    (after 0x80A0 (at_ { Sm.reset with tx := [1, 2] }) fun t => t.me.tx) = some [2] := by decide

/-- At the top of the range and below it, with a jump to its bottom. -/
theorem witness_WrapRange :
    let m := { Sm.reset with pc := 3, execctrl := 0x00003080 }
    (after 0xE020 (at_ m) fun t => t.me.pc) = some 1 ∧ m.pending = none ∧ m.wrapBottom.toNat ≤ m.wrapTop.toNat ∧
    InWrapRange m m.pc ∧ InWrapRange m 1 ∧ InWrapRange m 2 := by
  unfold InWrapRange; decide

theorem witness_RegisterMap : seqRegAt 0x140 = some .irq1Ints ∧ seqRegAt 0 = some .ctrl := by decide

/-- The windows apart and an address outside them; a narrow and a misaligned access, the first and the last alias, the
first offset past the map, and a register; the offsets of the engine around its last channel. -/
theorem witness_RegisterAccess :
    WindowsApart State.reset.params ∧
    (∀ o < 0x4000, 0x20000000#32 ≠ State.reset.params.seqBase + BitVec.ofNat 32 o ∧
      0x20000000#32 ≠ State.reset.xferAddr o) ∧
    (State.reset.regionOf 0x50000002 = .xfer 2 ∧ (0x50000002#32).toNat % 4 ≠ 0) ∧
    (State.reset.regionOf 0x500002D0 = .xfer 0x2D0 ∧ 0x10 ≤ 0x2D0 % 0x40) ∧
    (State.reset.regionOf 0x50000300 = .xfer 0x300 ∧ State.reset.channels.length ≤ 0x300 / 0x40) ∧
    (State.reset.regionOf 0x50200001 = .seq 1 ∧ (0x50200001#32).toNat % 4 ≠ 0) ∧
    State.reset.regionOf 0x50200000 = .seq 0 ∧
    (State.reset.regionOf 0x50201000 = .seq 0x1000 ∧ State.reset.regionOf 0x50203FFC = .seq 0x3FFC) ∧
    (State.reset.regionOf 0x50200144 = .seq 0x144 ∧ seqRegAt 0x144 = none) ∧
    State.reset.regionOf 0x50200140 = .seq 0x140 := by
  refine ⟨windowsApart_default, fun o ho => ?_, by decide, by decide, by decide, by decide, by decide, by decide, by decide,
    by decide⟩
  have h (base : Word) (hb : base.toNat + o < 2 ^ 32) (hn : base.toNat + o ≠ 0x20000000) :
      0x20000000#32 ≠ base + BitVec.ofNat 32 o := fun e => by
    have := congrArg BitVec.toNat e
    rw [BitVec.toNat_add, BitVec.toNat_ofNat, BitVec.toNat_ofNat] at this
    omega
  have h1 : State.reset.params.seqBase.toNat = 0x50200000 := rfl
  have h2 : State.reset.params.xferBase.toNat = 0x50000000 := rfl
  exact ⟨h _ (by omega) (by omega), h _ (by omega) (by omega)⟩

theorem witness_TxfWrite :
    WindowsApart State.reset.params ∧ Sm.reset.tx.length ≠ Sm.reset.txCap ∧
    { Sm.reset with tx := four }.tx.length = { Sm.reset with tx := four }.txCap :=
  ⟨windowsApart_default, by decide, by decide⟩

theorem witness_RxfRead :
    WindowsApart State.reset.params ∧ (State.reset.sm 3).rx = [] ∧ ((at_ { Sm.reset with rx := [1] }).sm 0).rx = 1 :: [] ∧
    (∀ n, SeqReg.irq1Ints ≠ .rxf n) ∧ ((at_ { Sm.reset with pending := some (5, .exec) }).sm 0).pending = some (5, .exec) ∧
    (ticking 0xA042 Sm.reset).me.pending = none ∧ Holds ((ticking 0xA042 Sm.reset).imem.get 0) 0xA042 :=
  ⟨windowsApart_default, rfl, rfl, fun _ => SeqReg.noConfusion, rfl, rfl, by decide, by decide⟩

theorem witness_FlagWrites : WindowsApart State.reset.params := windowsApart_default

theorem witness_CtrlWrite : WindowsApart State.reset.params := windowsApart_default

theorem witness_InstrMemWrite :
    WindowsApart State.reset.params ∧
    (∃ k : SmId, { State.reset with smEnable := 8 }.smEnable.getLsbD k.val = true ∧
      ({ State.reset with smEnable := 8 }.sm k).pc.toNat = (0 : Fin 32).val) ∧
    ¬∃ k : SmId, State.reset.smEnable.getLsbD k.val = true ∧ (State.reset.sm k).pc.toNat = (0 : Fin 32).val :=
  ⟨windowsApart_default, ⟨3, by decide, by decide⟩, by decide⟩

theorem witness_InjectionWrite :
    WindowsApart State.reset.params ∧ (State.reset.sm 0).pending = none ∧
    ((at_ { Sm.reset with pending := some (0, .exec) }).sm 0).pending ≠ none :=
  ⟨windowsApart_default, rfl, by decide⟩

theorem witness_ExecStalledRead : WindowsApart State.reset.params ∧
    ((at_ { Sm.reset with pending := some (0, .host) }).sm 0).pending = some (0, .host) := ⟨windowsApart_default, rfl⟩

theorem witness_ConfigWrites : WindowsApart State.reset.params := windowsApart_default

theorem witness_ShiftctrlWrite :
    WindowsApart State.reset.params ∧
    ((0x000C0000#32).getLsbD 31 = Sm.reset.fjoinRx ∧ (0x000C0000#32).getLsbD 30 = Sm.reset.fjoinTx) ∧
    ([0x000C0000#32, 0x400C0000#32, 0x800C0000#32].map fun v => (v.getLsbD 30, v.getLsbD 31)) =
      [(false, false), (true, false), (false, true)] ∧
    ¬((0x400C0000#32).getLsbD 31 = Sm.reset.fjoinRx ∧ (0x400C0000#32).getLsbD 30 = Sm.reset.fjoinTx) :=
  ⟨windowsApart_default, by decide, by decide, by decide⟩

/-- A misaligned access, the last word that responds, and the first that does not. -/
theorem witness_PlatformMemory :
    (State.reset.regionOf 0x20000002 = .platform ∧ (0x20000002#32).toNat % AccessSize.bytes .word ≠ 0) ∧
    (State.reset.regionOf 0x2003FFFC = .platform ∧ (0x2003FFFC#32).toNat % AccessSize.bytes .word = 0 ∧
      State.reset.busOk 0x2003FFFC .word = true) ∧
    State.reset.regionOf 0x20040000 = .platform ∧ (0x20040000#32).toNat % AccessSize.bytes .word = 0 ∧
    State.reset.busOk 0x20040000 .word = false := by decide

/-- A read and a write that answer, that end in a bus error, and that are refused. -/
theorem witness_HostAccess :
    (hostReads 0x50200000 State.reset).nextEvent = .hostRead 0x50200000 .word ∧
    (∃ x t, (hostReads 0x50200000 State.reset).consume.busRead .host 0x50200000 .word = .ok x t) ∧
    (hostReads 0x20040000 State.reset).consume.busRead .host 0x20040000 .word = .error ∧
    (∃ r, (hostReads 0x50200144 State.reset).consume.busRead .host 0x50200144 .word = .refuse r) ∧
    (hostWrites 0x50200000 1 State.reset).nextEvent = .hostWrite 0x50200000 .word 1 ∧
    (∃ t, (hostWrites 0x50200000 1 State.reset).consume.busWrite .host 0x50200000 .word 1 = .ok t) ∧
    (hostWrites 0x20040000 1 State.reset).consume.busWrite .host 0x20040000 .word 1 = .error ∧
    ∃ r, (hostWrites 0x50200144 1 State.reset).consume.busWrite .host 0x50200144 .word 1 = .refuse r :=
  ⟨rfl, ⟨_, _, rfl⟩, rfl, ⟨_, rfl⟩, rfl, ⟨_, rfl⟩, rfl, ⟨_, rfl⟩⟩

/-- The last channel of an engine of 12, idle, and a busy one. -/
theorem witness_ChannelRegisters :
    WindowsApart State.reset.params ∧ State.reset.channels.length ≤ 17 ∧
    State.reset.channels[11]? = some Channel.reset ∧ Channel.reset.busy = false ∧ (loopback .idle).busy = true ∧
    (withChannel (loopback .idle) State.reset).channels[0]? = some (loopback .idle) :=
  ⟨windowsApart_default, by decide, by decide, rfl, rfl, rfl⟩

/-- EN = 0; EN = 1 with CHAIN_TO wrong for channel 1; EN = 1 admitted for channel 0. -/
theorem witness_Trigger :
    WindowsApart State.reset.params ∧ State.reset.channels.length ≤ 17 ∧
    State.reset.channels[1]? = some Channel.reset ∧ Channel.reset.busy = false ∧ (0x00020008#32).getLsbD 0 = false ∧
    ((0x00020009#32).getLsbD 0 = true ∧ field 0x00020009#32 11 4 ≠ 1) ∧
    (field 0x00020009#32 2 2 ≠ 3 ∧ field 0x00020009#32 6 4 = 0 ∧ field 0x00020009#32 11 4 = 0 ∧
      (0x00020009#32).getLsbD 23 = false ∧ field Channel.reset.countReload 28 4 = 0) :=
  ⟨windowsApart_default, by decide, by decide, rfl, by decide, by decide, by decide⟩

/-- The line just past the block's eight, the last line before the permanent one, and a block index below 7. -/
theorem witness_RequestLines :
    State.reset.params.seqIndex ≠ 7 ∧ 8 * State.reset.params.seqIndex + 8 ≤ 8 ∧ 8 ≠ 0x3F ∧
    8 * State.reset.params.seqIndex + 8 ≤ 0x3E ∧ 0x3E ≠ 0x3F := by decide

theorem witness_ChannelReadPhase :
    let s := withChannel (loopback .idle) (at_ { Sm.reset with rx := [5] })
    s.nextEvent = .channel 0 ∧ s.channels[0]? = some (loopback .idle) ∧ (loopback .idle).busy = true ∧
    (loopback .idle).abortPending = false ∧ (loopback .idle).dataSize = some .word ∧
    s.dreq (loopback .idle).treqSel = true ∧
    (∃ v t, s.consume.busRead (.channel 0) (loopback .idle).readAddr .word = .ok v t) ∧
    (withChannel (loopback .idle) State.reset).dreq (loopback .idle).treqSel = false ∧
    let ch := { loopback .idle with ctrl := 0x020005 }
    ch.dataSize = some .half ∧ (withChannel ch (at_ { Sm.reset with rx := [5] })).dreq ch.treqSel = true ∧
    (withChannel ch State.reset).consume.busRead (.channel 0) ch.readAddr .half =
      .refuse (.narrowRegisterAccess (.channel 0)) :=
  ⟨rfl, rfl, rfl, rfl, rfl, rfl, ⟨_, _, rfl⟩, rfl, rfl, rfl, rfl⟩

/-- Vector X14. -/
theorem test_narrow_read : refuses
    (withChannel { loopback .idle with ctrl := 0x020005 } (at_ { Sm.reset with rx := [5] }))
    (.narrowRegisterAccess (.channel 0)) = true := by decide

/-- A write phase that answers, counted and endless, and one that is refused. -/
theorem witness_ChannelWritePhase :
    (∀ ch ∈ [copier (.hold 7), loopback (.hold 7)],
      let s := withChannel ch State.reset
      s.nextEvent = .channel 0 ∧ s.channels[0]? = some ch ∧ ch.busy = true ∧ ch.phase = .hold 7 ∧
      ch.abortPending = false ∧ ch.dataSize = some .word ∧
      ∃ t, s.consume.busWrite (.channel 0) ch.writeAddr .word (if ch.bswap then byteSwap .word 7 else 7) = .ok t) ∧
    (copier (.hold 7)).countMode = 0x0#4 ∧ (loopback (.hold 7)).countMode = 0xF#4 ∧
    let ch := { copier (.hold 7) with writeAddr := 0x50200002 }
    (withChannel ch State.reset).consume.busWrite (.channel 0) ch.writeAddr .word
      (if ch.bswap then byteSwap .word 7 else 7) = .refuse (.narrowRegisterAccess (.channel 0)) := by
  refine ⟨fun ch h => ?_, rfl, rfl, rfl⟩
  rcases List.mem_cons.1 h with rfl | h
  · exact ⟨rfl, rfl, rfl, rfl, rfl, rfl, ⟨_, rfl⟩⟩
  · cases List.mem_singleton.1 h
    exact ⟨rfl, rfl, rfl, rfl, rfl, rfl, ⟨_, rfl⟩⟩

/-- The three cases of the request, by the same bit, and the step that ends an aborted channel. -/
theorem witness_AbortRequest :
    WindowsApart State.reset.params ∧ (1#32).getLsbD 0 = true ∧
    ((withChannel Channel.reset State.reset).channels[0]? = some Channel.reset ∧ Channel.reset.busy = false) ∧
    ((withChannel (loopback .idle) State.reset).channels[0]? = some (loopback .idle) ∧ (loopback .idle).busy = true ∧
      (loopback .idle).phase = .idle) ∧
    ((withChannel (loopback (.hold 7)) State.reset).channels[0]? = some (loopback (.hold 7)) ∧
      (loopback (.hold 7)).busy = true ∧ (loopback (.hold 7)).phase = .hold 7) ∧
    let ch := { loopback (.hold 7) with abortPending := true }
    let s := withChannel ch State.reset
    s.nextEvent = .channel 0 ∧ s.channels[0]? = some ch ∧ ch.busy = true ∧ ch.dataSize = some .word ∧
    ∃ t, s.consume.busWrite (.channel 0) ch.writeAddr .word (if ch.bswap then byteSwap .word 7 else 7) = .ok t :=
  ⟨windowsApart_default, by decide, ⟨rfl, rfl⟩, ⟨rfl, rfl, rfl⟩, ⟨rfl, rfl, rfl⟩, rfl, rfl, rfl, rfl, ⟨_, rfl⟩⟩

/-- The requests of `witness_AbortRequest`, made by the host. -/
theorem test_abort : ([Channel.reset, loopback .idle, loopback (.hold 7)].map fun ch =>
    afterStep (hostWrites 0x50000444 1 { State.reset with channels := [ch] })
      (fun t => t.channels.map fun ch => (ch.busy, ch.abortPending))) =
    [some [(false, false)], some [(false, false)], some [(true, true)]] := by decide

/-- Vector X9 and its like on the write phase. -/
theorem witness_BusErrors :
    (let ch := { copier .idle with readAddr := 0x10000000 };
      let s := withChannel ch State.reset;
      s.nextEvent = .channel 0 ∧ s.channels[0]? = some ch ∧ ch.dataSize = some .word ∧ s.dreq ch.treqSel = true ∧
      s.consume.busRead (.channel 0) ch.readAddr .word = .error) ∧
    let ch := { copier (.hold 7) with writeAddr := 0x10000000 }
    (withChannel ch State.reset).consume.busWrite (.channel 0) ch.writeAddr .word
      (if ch.bswap then byteSwap .word 7 else 7) = .error :=
  ⟨⟨rfl, rfl, rfl, rfl, rfl⟩, rfl⟩

/-- RX0 empty and not, and a word held with TX0 full and not. -/
theorem witness_Loopback :
    ((loopback .idle).phase = .idle ∧ (loopback (.hold 7)).phase = .hold 7 ∧ (loopback (.hold 7)).busy = true) ∧
    ((at_ { Sm.reset with rx := [5] }).sm 0).rx = 5 :: [] ∧ ((at_ Sm.reset).sm 0).rx = [] ∧
    ((at_ { Sm.reset with tx := four }).sm 0).tx.length = ((at_ { Sm.reset with tx := four }).sm 0).txCap ∧
    ((at_ Sm.reset).sm 0).tx.length ≠ ((at_ Sm.reset).sm 0).txCap ∧
    let s := withChannel (loopback .idle) State.reset
    WindowsApart s.params ∧ s.nextEvent = .channel 0 ∧ s.channels[0]? = some (loopback .idle) ∧
    (loopback .idle).countMode = 0xF#4 ∧ (loopback .idle).readAddr = s.seqAddr (.rxf 0) ∧
    (loopback .idle).writeAddr = s.seqAddr (.txf 0) ∧ (loopback .idle).dataSize = some .word ∧
    (loopback .idle).incrRead = false ∧ (loopback .idle).incrWrite = false ∧ (loopback .idle).bswap = false ∧
    (loopback .idle).treqSel = 8 * s.params.seqIndex + 4 :=
  ⟨⟨rfl, rfl, rfl⟩, rfl, rfl, by decide, by decide, windowsApart_default, rfl, rfl, rfl, rfl, rfl, rfl, rfl, rfl, rfl, rfl⟩

/-- Both values of the parameter of the reset registers. -/
theorem witness_ResetState : Params.default.unwrittenAtReset = false ∧
    { Params.default with unwrittenAtReset := true }.unwrittenAtReset = true := by decide

theorem witness_BlockResetStep : (onEvent .blockReset State.reset).nextEvent = .blockReset := rfl

/-- A state with a word in a FIFO, a busy channel that holds a word, and a byte of memory. -/
def busyState : State :=
  { ticking 0x80A0 { Sm.reset with tx := four } with channels := [copier (.hold 7)], mem := [(0x20000100, 0x88)] }

/-- A state that meets the invariant, other than the reset state, and a step from it. -/
theorem witness_StepKeepsInvariant :
    busyState.Inv ∧ (afterStep busyState fun t => t.me.tx) = some [2, 3, 4] := by
  refine ⟨⟨fun k => ?_, fun c ch h => ?_, by decide⟩, by decide⟩
  · constructor <;> revert k <;> decide
  · cases c with
    | zero => cases h; exact ⟨by decide, by decide, fun _ _ => rfl⟩
    | succ c => cases h

end Sys2Proof.Tests
end

section
/-! SUPPORT. The statements about the state as a whole (spec/10_state.md): what a tick may do to the machine, that every
event keeps the invariant, and the fields and admission of a configuration. -/

namespace Sys2Proof.Machine

open Sys2Proof

/-! What a tick may do (40_sequencer_cycle.md R105, R108, R112 to R115). -/

/-- The end of a tick on the state machine `m` that the instruction's rule leaves: the counts, the FIFOs and the
configuration stay, and a delay is loaded, kept or counted down. -/
structure TickEnds (m m' : Sm) : Prop where
  config : SameConfig m m'
  isrCount : m'.isrCount = m.isrCount
  osrCount : m'.osrCount = m.osrCount
  tx : m'.tx = m.tx
  rx : m'.rx = m.rx
  delayCount : m'.delayCount ≤ max 31 m.delayCount

/-- A tick from `s` to `t`: the frame of every instruction, and on the executing state machine the effect of a rule and
the end of the tick. -/
structure TickEffect (s t : State) : Prop where
  frame : TickFrame s t
  mem : t.mem = s.mem
  me : ∃ m, SmEffect s.me m ∧ TickEnds m t.me

theorem Sm.delayCount_retire_le (m m' : Sm) (cur : Word) (ds : Five) (j : Option Five) (e : Option InstrWord) :
    (m.retire m' cur ds j e).delayCount ≤ 31 := by
  simp only [Sm.retire]
  split
  · exact Nat.zero_le _
  · exact dsSplit_delay_le m ds

theorem TickEnds.retire (m m' : Sm) (cur : Word) (ds : Five) (j : Option Five) (e : Option InstrWord) :
    TickEnds m' (m.retire m' cur ds j e) :=
  ⟨⟨rfl, rfl, rfl, rfl⟩, rfl, rfl, rfl, rfl,
    (Sm.delayCount_retire_le m m' cur ds j e).trans (Nat.le_max_left _ _)⟩

/-- A stall keeps its sample (40_sequencer_cycle.md R107, R113). -/
theorem TickEnds.sampled (m : Sm) (cur : Word) : TickEnds m { m with edgePrev := some cur } :=
  ⟨⟨rfl, rfl, rfl, rfl⟩, rfl, rfl, rfl, rfl, Nat.le_max_right _ _⟩

/-- The private effects of a tick end where the state machine written back does. -/
theorem TickEffect.setMe {s s' : State} (h : Effect s s') {m : Sm} (hm : TickEnds s'.me m) :
    TickEffect s (s'.setMe m) :=
  ⟨h.frame.setMe m, h.mem, s'.me, h.me, by rwa [State.me_setMe]⟩

/-- The side-set writes the pads alone. -/
theorem TickEffect.sideSet {s s' : State} (h : TickEffect s s') (m : Sm) (ds : Five) :
    TickEffect s (s'.sideSet m ds) :=
  ⟨h.frame.sideSet m ds, h.mem, h.me⟩

theorem TickEffect.takeFault (s : State) (word : Option InstrWord) : TickEffect s (s.takeFault word) :=
  .setMe (.refl s) ⟨⟨rfl, rfl, rfl, rfl⟩, rfl, rfl, rfl, rfl, Nat.le_max_right _ _⟩

theorem TickEffect.delayTick (s : State) : TickEffect s (delayTick s) :=
  .setMe (.refl s)
    ⟨⟨rfl, rfl, rfl, rfl⟩, rfl, rfl, rfl, rfl, (Nat.sub_le _ 1).trans (Nat.le_max_right _ _)⟩

/-- The tick of an instruction completes, stalls or takes the fault, and each is a tick's effect. -/
theorem exec_tickEffect {i : Instr} {s t : State} (h : exec i s = .next t) : TickEffect s t := by
  obtain ⟨r, hexec, heffect, _⟩ := exec_effect i s
  rw [hexec] at h
  obtain ⟨s', j, e, rfl, rfl⟩ | ⟨s', rfl, rfl⟩ | ⟨rfl, rfl⟩ := finishTick_next_cases h
  · exact (TickEffect.setMe heffect (.retire s.me s'.me s.pinSample i.ds j e)).sideSet s.me i.ds
  · exact (TickEffect.setMe heffect (.sampled s'.me s.pinSample)).sideSet s.me i.ds
  · exact .takeFault s _

/-- Every tick of an enabled state machine is a tick's effect: a delay tick, a fetch fault, or an instruction's. -/
theorem tickActive_tickEffect {s t : State} (h : tickActive s = .next t) : TickEffect s t := by
  obtain ⟨_, ⟨_, rfl⟩ | ⟨_, _, rfl⟩ | ⟨_, w, i, _, _, hexec⟩⟩ := tickActive_next_cases h
  · exact .delayTick s
  · exact .takeFault s none
  · exact exec_tickEffect hexec

theorem SmEffect.sameConfig {m m' m'' : Sm} (h : SmEffect m m') (hend : TickEnds m' m'') : SameConfig m m'' := by
  obtain ⟨hclk, hexec, hshift, hpin⟩ := h.config
  obtain ⟨hclk', hexec', hshift', hpin'⟩ := hend.config
  exact ⟨hclk'.trans hclk, hexec'.trans hexec, hshift'.trans hshift, hpin'.trans hpin⟩

theorem SmEffect.fifosAdvance {m m' m'' : Sm} (h : SmEffect m m') (hend : TickEnds m' m'') : FifosAdvance m m'' := by
  refine ⟨?_, ?_⟩
  · rw [hend.tx]
    exact h.tx
  · rw [hend.rx]
    exact h.rx.imp_right fun ⟨_, hpush⟩ => hpush

/-- A tick keeps the invariant of its state machine. -/
theorem SmInv.of_tickEnds {m m' m'' : Sm} (h : SmInv m) (heffect : SmEffect m m') (hend : TickEnds m' m'') :
    SmInv m'' := by
  have hdelay : m''.delayCount ≤ 31 := by
    have hle := hend.delayCount
    rwa [heffect.delayCount, max_eq_left h.delayCount] at hle
  exact h.of_effect heffect hend.isrCount hend.osrCount hend.tx hend.rx hend.config hdelay

/-- Settles O29: the frame is the tick's, and no rule and no end of a tick writes a configuration register. -/
theorem instructionFrame : Obligations.InstructionFrame := by
  intro i s t h
  obtain ⟨hframe, _, m, heffect, hend⟩ := exec_tickEffect h
  exact ⟨hframe, heffect.sameConfig hend⟩

/-- Settles O32: a rule pops and pushes at most one word, and the end of a tick leaves the FIFOs. -/
theorem fifoOrder : Obligations.FifoOrder := by
  intro i s t h
  obtain ⟨_, _, m, heffect, hend⟩ := exec_tickEffect h
  exact heffect.fifosAdvance hend

/-! The invariant under every event. -/

theorem State.Inv.of_tickEffect {s t : State} (h : s.Inv) (ht : TickEffect s t) : t.Inv := by
  obtain ⟨hframe, hmem, m, heffect, hend⟩ := ht
  exact h.of_frame hframe hmem ((h.sms s.active).of_tickEnds heffect hend)

theorem State.Inv.activate {s : State} (h : s.Inv) (k : SmId) : (s.activate k).Inv := h.of_same rfl rfl rfl

theorem State.Inv.consume {s : State} (h : s.Inv) : s.consume.Inv := h.of_same rfl rfl rfl

/-- A tick keeps the invariant. -/
theorem State.Inv.tickStep {s t : State} (h : s.Inv) {k : SmId} (ht : tickStep k s = .next t) : t.Inv := by
  unfold Machine.tickStep at ht
  split at ht
  · exact (h.activate k).of_tickEffect (tickActive_tickEffect ht)
  · cases ht
    exact h

/-- A register read of the SEQ window leaves the channels. -/
theorem State.channels_afterSeqRead (s : State) (r : SeqReg) : (s.afterSeqRead r).channels = s.channels := by
  cases r with
  | rxf n =>
    simp only [State.afterSeqRead, State.popRx]
    split <;> rfl
  | _ => rfl

/-- A bus read leaves the channels. -/
theorem State.channels_busRead {s t : State} {a : Agent} {addr : Word} {size : AccessSize} {v : Word}
    (h : s.busRead a addr size = .ok v t) : t.channels = s.channels := by
  unfold State.busRead at h
  split at h
  case h_1 o _ =>
    unfold State.seqBusRead at h
    repeat' split at h
    all_goals cases h
    exact s.channels_afterSeqRead _
  case h_2 o _ =>
    unfold State.xferBusRead at h
    repeat' split at h
    all_goals cases h
    rfl
  case h_3 =>
    repeat' split at h
    all_goals cases h
    rfl

/-- A read phase keeps the invariant: the channel that comes to hold a word was busy. -/
theorem State.Inv.readPhase {s t : State} (h : s.Inv) {c : Nat} {ch : Channel} {size : AccessSize}
    (hc : s.channels[c]? = some ch) (hbusy : ch.busy = true) (ht : readPhase c ch size s = .next t) : t.Inv := by
  unfold Machine.readPhase at ht
  split at ht
  case h_1 v s' hread =>
    cases ht
    refine (h.busRead hread).updChan fun ch' hinv hc' => ?_
    rw [State.channels_busRead hread, hc] at hc'
    cases hc'
    exact ⟨hinv.admitted, hinv.remaining, fun _ _ => hbusy⟩
  case h_2 =>
    cases ht
    exact h.updChan fun ch' _ _ => .of_idle rfl rfl
  case h_3 => cases ht

/-- A write phase keeps the invariant, whatever its own bus write did to the channel. -/
theorem State.Inv.writePhase {s t : State} (h : s.Inv) {c : Nat} {ch : Channel} {size : AccessSize} {v : Word}
    (ht : writePhase c ch size v s = .next t) : t.Inv := by
  unfold Machine.writePhase at ht
  split at ht
  case h_1 s' hwrite =>
    cases ht
    exact (h.busWrite hwrite).updChan fun ch' hinv _ => hinv.afterWrite ch.abortPending size
  case h_2 =>
    cases ht
    exact h.updChan fun ch' _ _ => .of_idle rfl rfl
  case h_3 => cases ht

theorem State.busy_of_channelEnabled {s : State} {ch : Channel} (h : s.channelEnabled ch = true) : ch.busy = true := by
  unfold State.channelEnabled at h
  exact ((Bool.and_eq_true _ _).mp h).1

/-- A step of a channel keeps the invariant. -/
theorem State.Inv.channelStep {s t : State} (h : s.Inv) {c : Nat} (ht : channelStep c s = .next t) : t.Inv := by
  unfold Machine.channelStep at ht
  split at ht
  case h_1 =>
    cases ht
    exact h
  case h_2 ch hc =>
    split at ht
    case isTrue =>
      cases ht
      exact h
    case isFalse hen =>
      have hbusy : ch.busy = true := State.busy_of_channelEnabled (s := s) (by simpa using hen)
      split at ht
      case h_1 => cases ht
      case h_2 => exact h.writePhase ht
      case h_3 =>
        split at ht
        · cases ht
          exact h.updChan fun ch' _ _ => ChannelInv.halt c ch'
        · exact h.readPhase hc hbusy ht

/-- A host read keeps the invariant. -/
theorem State.Inv.hostReadStep {s t : State} (h : s.Inv) {addr : Word} {size : AccessSize}
    (ht : hostReadStep addr size s = .next t) : t.Inv := by
  unfold Machine.hostReadStep at ht
  split at ht
  case h_1 v s' hread =>
    cases ht
    exact (h.busRead hread).of_same rfl rfl rfl
  case h_2 => cases ht
  case h_3 => cases ht

/-- A host write keeps the invariant. -/
theorem State.Inv.hostWriteStep {s t : State} (h : s.Inv) {addr v : Word} {size : AccessSize}
    (ht : hostWriteStep addr size v s = .next t) : t.Inv := by
  unfold Machine.hostWriteStep at ht
  split at ht
  case h_1 s' hwrite =>
    cases ht
    exact h.busWrite hwrite
  case h_2 => cases ht
  case h_3 => cases ht

theorem SmInv.resetWith (unwritten : Bool) : SmInv (Sm.resetWith unwritten) where
  isrCount := Nat.zero_le _
  osrCount := Nat.le_refl _
  delayCount := Nat.zero_le _
  txLevel := Nat.zero_le _
  rxLevel := Nat.zero_le _
  clkdiv := (by decide : clkdivStored 0x00010000#32 = 0x00010000#32)
  execctrl := (by decide : execctrlStored 0x0001F000#32 = 0x0001F000#32)
  shiftctrl := (by decide : shiftctrlStored 0x000C0000#32 = 0x000C0000#32)

theorem State.sm_resetWith (p : Params) (numCh : Nat) (env : Env) (k : SmId) :
    (State.resetWith p numCh env).sm k = Sm.resetWith p.unwrittenAtReset :=
  Vector.getElem_replicate k.isLt

/-- The reset state meets the invariant, whatever the parameters, the channels and the inputs. -/
theorem State.Inv.resetWith (p : Params) (numCh : Nat) (env : Env) : (State.resetWith p numCh env).Inv where
  sms := fun k => by
    rw [State.sm_resetWith]
    exact .resetWith _
  channels := fun c ch hc => by
    obtain ⟨_, rfl⟩ := List.mem_replicate.mp (List.mem_of_getElem? hc)
    exact .of_idle rfl rfl
  mem := rfl

/-- One event keeps the invariant. -/
theorem State.Inv.perform {s t : State} (h : s.Inv) {e : Event} (ht : perform e s = .next t) : t.Inv := by
  cases e with
  | tick k => exact h.tickStep ht
  | channel c => exact h.channelStep ht
  | hostRead addr size => exact h.hostReadStep ht
  | hostWrite addr size v => exact h.hostWriteStep ht
  | environment env =>
    cases ht
    exact h.of_same rfl rfl rfl
  | blockReset =>
    cases ht
    exact (State.Inv.resetWith s.params s.channels.length s.env).of_same rfl rfl rfl

/-- Settles O59, by the event of the step. -/
theorem stepKeepsInvariant : Obligations.StepKeepsInvariant := fun _ _ h ht => h.consume.perform ht

/-! The fields of a configuration (10_state.md R39 to R45). -/

theorem toNat_field5 (v : Word) (lo : Nat) : (field5 v lo).toNat = v.toNat / 2 ^ lo % 2 ^ 5 := by
  rw [field5, BitVec.extractLsb'_toNat, Nat.shiftRight_eq_div_pow]

theorem toNat_field5_zero (v : Word) : (field5 v 0).toNat = v.toNat % 2 ^ 5 := by
  rw [toNat_field5, pow_zero, Nat.div_one]

/-- A field that ends at bit 31 needs no mask. -/
theorem field_top (v : Word) {lo n : Nat} (h : lo + n = 32) : field v lo n = v.toNat / 2 ^ lo := by
  refine Nat.mod_eq_of_lt (Nat.div_lt_of_lt_mul ?_)
  rw [← pow_add, h]
  exact v.isLt

/-- The conditions of 10_state.md R45. -/
theorem Sm.admitted_iff (m : Sm) : m.admitted = true ↔
    ¬(m.fjoinTx = true ∧ m.fjoinRx = true) ∧ m.sidesetCount ≤ 5 ∧ m.setCount ≤ 5 ∧ m.outCount ≤ 32 ∧
      ¬(m.sideEn = true ∧ m.sidesetCount = 0) ∧ m.outSticky = false ∧ m.inlineOutEn = false := by
  simp only [Sm.admitted, Bool.and_eq_true, Bool.not_eq_true', Bool.and_eq_false_iff, decide_eq_true_eq, and_assoc,
    decide_eq_false_iff_not, not_and_or, Bool.not_eq_true]

/-- A tick under a configuration that is not admitted is refused, before anything else of it (10_state.md R45). -/
theorem step_configNotAdmitted {s : State} {k : SmId} (he : s.nextEvent = .tick k) (hen : s.smEnabled k = true)
    (ha : (s.sm k).admitted = false) : step s = .refused (.configNotAdmitted (.sm k)) := by
  rw [step_tick he hen, tickActive, State.me_activate, State.consume_sm, ha]
  rfl

/-- A word write at the address of a register is accepted where the register accepts it. -/
theorem State.busWrite_seqAddr_ok {s t : State} (hw : WindowsApart s.params) (a : Agent) {r : SeqReg} {v : Word}
    (h : s.seqWrite a v r = .ok t) : s.busWrite a (s.seqAddr r) .word v = .ok t := by
  rw [State.busWrite_seqAddr hw, h, BusWrite.ofRegister]

/-- Settles O9: each field read off its register, and the admission, the refused tick and the accepted writes by the
lemmas above. -/
theorem configAdmitted : Obligations.ConfigAdmitted := by
  refine ⟨fun m => ?execctrl, fun m => ?shiftctrl, fun m => ?pinctrl, Sm.admitted_iff,
    fun s k => step_configNotAdmitted, fun s a k v hw => ?write⟩
  case execctrl =>
    have hn : m.statusN = m.execctrl.toNat % 2 ^ 4 := by rw [Sm.statusN, field, pow_zero, Nat.div_one]
    exact ⟨rfl, rfl, toNat_field5 _ _, rfl, rfl, toNat_field5 _ _, toNat_field5 _ _, rfl, hn⟩
  case shiftctrl => exact ⟨rfl, rfl, rfl, rfl, rfl, rfl, rfl, rfl⟩
  case pinctrl =>
    exact ⟨field_top _ rfl, rfl, rfl, toNat_field5 _ _, toNat_field5 _ _, toNat_field5 _ _, toNat_field5_zero _⟩
  case write =>
    exact ⟨⟨_, State.busWrite_seqAddr_ok hw a rfl⟩, ⟨_, State.busWrite_seqAddr_ok hw a rfl⟩,
      _, State.busWrite_seqAddr_ok hw a rfl⟩

end Sys2Proof.Machine
end

section
/-! SUPPORT. The statements about the bus (spec/20_memory.md): the pins, the routing of an access, the registers of the
SEQ window with their read and write effects, platform memory, and the host's steps. -/

namespace Sys2Proof.Machine

open Sys2Proof

/-! The pins (20_memory.md R76). -/

/-- The block drives a pin that exists, is routed to it and is enabled. -/
theorem State.drives_iff (s : State) (p : Nat) :
    s.drives p = true ↔ p < s.params.numGpio ∧ s.env.funcsel[p]? = some .seq ∧ s.padOe.getLsbD p = true := by
  simp only [State.drives, Bool.and_eq_true, decide_eq_true_eq, and_assoc]

/-- Driven by both to the same level, a pin reads that level. -/
theorem pinLevel_agree (out draw : Bool) : pinLevel true (if out then .high else .low) out draw = out := by
  cases out <;> rfl

/-- Driven by both to different levels, a pin reads a draw. -/
theorem pinLevel_contend (out draw : Bool) : pinLevel true (if out then .low else .high) out draw = draw := by
  cases out <;> rfl

/-- The sampled level of a pin, by who drives it. -/
theorem State.pinSample_level {s : State} {p : Nat} (hp : p < 32) {drive : Bool} {ext : PinDrive}
    (hdrive : s.drives p = drive) (hext : s.extOf p = ext) :
    s.pinSample.getLsbD p = pinLevel drive ext (s.padOut.getLsbD p) ((Config.pinDraw s.now).getLsbD p) := by
  rw [getLsbD_pinSample s hp, State.pinAt, hdrive, hext]

theorem step_environment {s : State} {env : Env} (he : s.nextEvent = .environment env) :
    step s = .next { s.consume with env := env } := by
  rw [step, he]
  rfl

/-- Settles O12: the row of `pinLevel` for each way a pin is driven. -/
theorem pinLevels : Obligations.PinLevels := by
  refine fun s => ⟨fun env => step_environment, fun p hp => ?_⟩
  intro drive ext out draw
  have hdriven (h : drive) : s.drives p = true := (s.drives_iff p).mpr h
  have hfree (h : ¬drive) : s.drives p = false := Bool.eq_false_iff.mpr (mt (s.drives_iff p).mp h)
  refine ⟨fun hd he => ?alone, fun hd he => ?agree, fun hd he => ?contend, fun hd he => ?low, fun hd he => ?high,
    fun hd he => ?float⟩
  case alone => exact State.pinSample_level hp (hdriven hd) he
  case agree => exact (State.pinSample_level hp (hdriven hd) he).trans (pinLevel_agree out draw)
  case contend => exact (State.pinSample_level hp (hdriven hd) he).trans (pinLevel_contend out draw)
  case low => exact State.pinSample_level hp (hfree hd) he
  case high => exact State.pinSample_level hp (hfree hd) he
  case float => exact State.pinSample_level hp (hfree hd) he

/-! The register map and the routing of an access (20_memory.md R54, R57, R58, R61). -/

theorem offset_of_smRegAt {n : SmId} {place : Nat} {r : SeqReg} (h : smRegAt n place = some r) :
    r.offset = 0x0C8 + 0x18 * n.val + 4 * place := by
  unfold smRegAt at h
  split at h <;> cases h <;> simp only [SeqReg.offset] <;> omega

theorem offset_of_blockRegAt {n : Nat} {r : SeqReg} (h : blockRegAt n = some r) : r.offset = 4 * n := by
  unfold blockRegAt at h
  split at h <;> cases h <;> rfl

/-- A register stands at no other offset than its own: the converse of `seqRegAt_offset`. -/
theorem offset_of_seqRegAt {o : Nat} {r : SeqReg} (h : seqRegAt o = some r) : r.offset = o := by
  simp only [seqRegAt] at h
  split_ifs at h
  iterate 3 -- the runs of TXFn, RXFn and INSTR_MEMi
    case pos =>
      obtain rfl := Option.some.inj h
      simp only [SeqReg.offset, Fin.val_ofNat]
      omega
  case pos =>
    rw [offset_of_smRegAt h, Fin.val_ofNat]
    omega
  case neg =>
    rw [offset_of_blockRegAt h]
    omega

/-- Settles O34: the map and the offsets are inverse to each other. -/
theorem registerMap : Obligations.RegisterMap := by
  refine ⟨?block, fun n => ?sm, fun i => seqRegAt_offset (.instrMem i), fun o r h => ?only⟩
  case block =>
    exact List.map_congr_left (l := [.ctrl, .fstat, .fdebug, .flevel, .irq, .irqForce, .inputSyncBypass, .dbgPadout,
      .dbgPadoe, .dbgCfginfo, .intr, .irq0Inte, .irq0Intf, .irq0Ints, .irq1Inte, .irq1Intf, .irq1Ints])
      fun r _ => seqRegAt_offset r
  case sm =>
    exact ⟨seqRegAt_offset (.txf n), seqRegAt_offset (.rxf n), seqRegAt_offset (.smClkdiv n),
      seqRegAt_offset (.smExecctrl n), seqRegAt_offset (.smShiftctrl n), seqRegAt_offset (.smAddr n),
      seqRegAt_offset (.smInstr n), seqRegAt_offset (.smPinctrl n)⟩
  case only =>
    obtain rfl := offset_of_seqRegAt h
    exact ⟨rfl, r.offset_mod, r.offset_le⟩

theorem registerAccessOk_iff (addr : Word) (size : AccessSize) :
    registerAccessOk addr size = true ↔ size = .word ∧ addr.toNat % 4 = 0 := by
  simp only [registerAccessOk, Bool.and_eq_true, decide_eq_true_eq]

theorem State.regionOf_seqBase (s : State) {o : Nat} (ho : o < 0x4000) :
    s.regionOf (s.params.seqBase + BitVec.ofNat 32 o) = .seq o := by
  rw [State.regionOf, sub_base_toNat s.params.seqBase (by omega), if_pos ho]

/-- An address at no offset below `n` of a base lies no less than `n` above it. -/
theorem not_sub_base_lt {addr base : Word} {n : Nat} (h : ∀ o < n, addr ≠ base + BitVec.ofNat 32 o) :
    ¬(addr - base).toNat < n := by
  intro hlt
  refine h _ hlt ?_
  rw [BitVec.ofNat_toNat, BitVec.setWidth_eq, BitVec.add_comm, BitVec.sub_add_cancel]

/-- An address at no offset of either window leads to platform memory. -/
theorem State.regionOf_platform {s : State} {addr : Word}
    (h : ∀ o < 0x4000, addr ≠ s.params.seqBase + BitVec.ofNat 32 o ∧ addr ≠ s.xferAddr o) :
    s.regionOf addr = .platform := by
  rw [State.regionOf, if_neg (not_sub_base_lt fun o ho => (h o ho).1), if_neg (not_sub_base_lt fun o ho => (h o ho).2)]

/-- No register of the engine lies at an offset past its channels or past the four registers of one, but CHAN_ABORT. -/
theorem xferRegAt_unmapped {numCh o : Nat} (hab : o ≠ 0x444) (h : numCh ≤ o / 0x40 ∨ 0x10 ≤ o % 0x40) :
    xferRegAt numCh o = none := by
  rw [xferRegAt, if_neg hab]
  split
  case isFalse => rfl
  case isTrue hc =>
    split
    case h_5 => rfl
    all_goals omega

section WindowAccess

variable {s : State} {addr : Word} {size : AccessSize} {o : Nat} (a : Agent) (v : Word)

/-- The refusal of an access, read or written, narrow or misaligned in the SEQ window. -/
theorem State.seqAccess_narrow (hregion : s.regionOf addr = .seq o) (h : registerAccessOk addr size = false) :
    s.busRead a addr size = .refuse (.narrowRegisterAccess a) ∧
      s.busWrite a addr size v = .refuse (.narrowRegisterAccess a) := by
  simp [State.busRead, State.busWrite, State.seqBusRead, State.seqBusWrite, hregion, h]

theorem State.seqAccess_atomic (hregion : s.regionOf addr = .seq o) (h : registerAccessOk addr size = true)
    (ho : 0x1000 ≤ o) :
    s.busRead a addr size = .refuse (.atomicAlias a) ∧ s.busWrite a addr size v = .refuse (.atomicAlias a) := by
  simp [State.busRead, State.busWrite, State.seqBusRead, State.seqBusWrite, hregion, h, ho]

theorem State.seqAccess_unmapped (hregion : s.regionOf addr = .seq o) (h : registerAccessOk addr size = true)
    (ho : o < 0x1000) (hr : seqRegAt o = none) :
    s.busRead a addr size = .refuse (.unmappedOffset a) ∧ s.busWrite a addr size v = .refuse (.unmappedOffset a) := by
  simp [State.busRead, State.busWrite, State.seqBusRead, State.seqBusWrite, hregion, h, ho, hr]

theorem State.seqAccess_register (hregion : s.regionOf addr = .seq o) (h : registerAccessOk addr size = true)
    (ho : o < 0x1000) {r : SeqReg} (hr : seqRegAt o = some r) :
    s.busRead a addr size = .ok (s.seqValue r) (s.afterSeqRead r) ∧
      s.busWrite a addr size v = .ofRegister (s.seqWrite a v r) := by
  simp [State.busRead, State.busWrite, State.seqBusRead, State.seqBusWrite, hregion, h, ho, hr]

theorem State.xferAccess_narrow (hregion : s.regionOf addr = .xfer o) (h : registerAccessOk addr size = false) :
    s.busRead a addr size = .refuse (.narrowRegisterAccess a) ∧
      s.busWrite a addr size v = .refuse (.narrowRegisterAccess a) := by
  simp [State.busRead, State.busWrite, State.xferBusRead, State.xferBusWrite, hregion, h]

theorem State.xferAccess_unmapped (hregion : s.regionOf addr = .xfer o) (h : registerAccessOk addr size = true)
    (hr : xferRegAt s.channels.length o = none) :
    s.busRead a addr size = .refuse (.unmappedOffset a) ∧ s.busWrite a addr size v = .refuse (.unmappedOffset a) := by
  simp [State.busRead, State.busWrite, State.xferBusRead, State.xferBusWrite, hregion, h, hr]

end WindowAccess

/-- Settles O35: the routing, then the checks of an access to each window in their order. -/
theorem registerAccess : Obligations.RegisterAccess := by
  have hwhole (addr : Word) (size : AccessSize) := registerAccessOk_iff addr size
  have hnarrow {addr : Word} {size : AccessSize} (h : ¬(size = .word ∧ addr.toNat % 4 = 0)) :
      registerAccessOk addr size = false := Bool.eq_false_iff.mpr (mt (hwhole addr size).mp h)
  refine ⟨fun s addr hw => ⟨fun o ho => ?window, State.regionOf_platform⟩,
    fun s a addr v size o hregion => ?seq, fun s a addr v size o hregion => ?xfer⟩
  case window => exact ⟨s.regionOf_seqBase ho, State.regionOf_xferAddr hw ho⟩
  case seq =>
    exact ⟨fun h => State.seqAccess_narrow a v hregion (hnarrow h),
      fun h => State.seqAccess_atomic a v hregion ((hwhole addr size).mpr h),
      fun h => State.seqAccess_unmapped a v hregion ((hwhole addr size).mpr h),
      fun h ho _ => State.seqAccess_register a v hregion ((hwhole addr size).mpr h) ho⟩
  case xfer =>
    exact ⟨fun h => State.xferAccess_narrow a v hregion (hnarrow h),
      fun h hab ho => State.xferAccess_unmapped a v hregion ((hwhole addr size).mpr h) (xferRegAt_unmapped hab ho)⟩

/-! The FIFOs at the bus, the flags and CTRL (20_memory.md R65 to R69). -/

/-- A word write at the address of a register is refused where the register refuses it. -/
theorem State.busWrite_seqAddr_refuse {s : State} (hw : WindowsApart s.params) (a : Agent) {r : SeqReg} {v : Word}
    {reason : Refusal} (h : s.seqWrite a v r = .error reason) :
    s.busWrite a (s.seqAddr r) .word v = .refuse reason := by
  rw [State.busWrite_seqAddr hw, h, BusWrite.ofRegister]

theorem State.pushTx_full {s : State} {n : SmId} (h : (s.sm n).tx.length = (s.sm n).txCap) (v : Word) :
    s.pushTx n v = { s with txOver := setBit s.txOver n.val } :=
  if_pos (decide_eq_true h)

theorem State.pushTx_room {s : State} {n : SmId} (h : (s.sm n).tx.length ≠ (s.sm n).txCap) (v : Word) :
    s.pushTx n v = s.setSm n { s.sm n with tx := (s.sm n).tx ++ [v] } :=
  if_neg (by simpa [Sm.txFull] using h)

/-- Settles O36: TXFn pushes where there is room, else drops the word. -/
theorem txfWrite : Obligations.TxfWrite := by
  refine fun s a n v hw => ⟨fun hroom => ?room, fun hfull => ?full⟩
  case room => exact State.busWrite_seqAddr_ok hw a (congrArg Except.ok (State.pushTx_room hroom v))
  case full =>
    exact ⟨_, State.busWrite_seqAddr_ok hw a (congrArg Except.ok (State.pushTx_full hfull v)), rfl,
      raised_setBit s.txOver n.isLt⟩

/-- A flag register ANDed with the complement of a field of the written word: each flag written 1 is cleared. -/
theorem getLsbD_clearField {n : Nat} (flags : BitVec n) (v : Word) (lo : Nat) {k : Nat} (hk : k < n) :
    (flags &&& ~~~(v.extractLsb' lo n)).getLsbD k = (flags.getLsbD k && !v.getLsbD (lo + k)) := by
  simp [hk]

/-- Settles O38: each flag by its bit of the written word. -/
theorem flagWrites : Obligations.FlagWrites := by
  refine fun s a v hw => ⟨⟨_, State.busWrite_seqAddr_ok hw a rfl, rfl, fun k hk => ?fdebug⟩,
    ⟨_, State.busWrite_seqAddr_ok hw a rfl, rfl, fun f hf => ?clear⟩,
    ⟨_, State.busWrite_seqAddr_ok hw a rfl, rfl, fun f hf => ?set⟩⟩
  case fdebug =>
    have hlow := getLsbD_clearField s.rxStall v 0 hk
    rw [Nat.zero_add] at hlow
    exact ⟨getLsbD_clearField s.txStall v 24 hk, getLsbD_clearField s.txOver v 16 hk,
      getLsbD_clearField s.rxUnder v 8 hk, hlow⟩
  case clear =>
    have hlow := getLsbD_clearField s.irq v 0 hf
    rwa [Nat.zero_add] at hlow
  case set => simp [hf]

/-- A read of a register without a read effect (20_memory.md R74). -/
theorem State.busRead_seqAddr_pure {s : State} (hw : WindowsApart s.params) (a : Agent) {r : SeqReg}
    (h : s.afterSeqRead r = s) : s.busRead a (s.seqAddr r) .word = .ok (s.seqValue r) s := by
  rw [State.busRead_seqAddr hw, h]

/-- Settles O39: the enables take bits 3:0, and `Sm.restart` maps the state machines chosen by bits 7:4. -/
theorem ctrlWrite : Obligations.CtrlWrite := by
  refine fun s a v hw => ⟨⟨_, State.busRead_seqAddr_pure hw a rfl, ?enables, ?reserved⟩,
    _, State.busWrite_seqAddr_ok hw a rfl, rfl, fun k hk => ?stored, fun k => ?restarts⟩
  case enables =>
    show (s.smEnable.setWidth 32).extractLsb' 0 4 = s.smEnable
    rw [BitVec.extractLsb'_setWidth_of_le (by omega), BitVec.extractLsb'_eq_self]
  case reserved =>
    show (s.smEnable.setWidth 32).extractLsb' 4 28 = 0
    ext i hi
    simp
  case stored =>
    show (v.extractLsb' 0 4).getLsbD k = v.getLsbD k
    simp [hk]
  case restarts => exact State.sm_mapSms s (fun k m => if v.getLsbD (4 + k.val) then m.restart else m) k

/-! What the status registers read (10_state.md R31 to R37, R46, R47; 20_memory.md R62, R66). -/

/-- A word of four byte lanes with a nibble each, the upper half of each lane reserved: the layout of FSTAT and
FDEBUG. -/
def nibbleLanes (n3 n2 n1 n0 : BitVec 4) : Word :=
  0#4 ++ (n3 ++ (0#4 ++ (n2 ++ (0#4 ++ (n1 ++ (0#4 ++ n0))))))

theorem State.fstat_eq (s : State) :
    s.fstat = nibbleLanes (s.perSm Sm.txEmpty) (s.perSm Sm.txFull) (s.perSm Sm.rxEmpty) (s.perSm Sm.rxFull) := rfl

theorem State.fdebug_eq (s : State) : s.fdebug = nibbleLanes s.txStall s.txOver s.rxUnder s.rxStall := rfl

theorem nibbleLanes_reserved (n3 n2 n1 n0 : BitVec 4) : nibbleLanes n3 n2 n1 n0 &&& 0xF0F0F0F0#32 = 0 := by
  have hmask : 0xF0F0F0F0#32 = 0xF#4 ++ (0#4 ++ (0xF#4 ++ (0#4 ++ (0xF#4 ++ (0#4 ++ (0xF#4 ++ 0#4)))))) := rfl
  rw [nibbleLanes, hmask]
  repeat rw [BitVec.and_append]
  simp only [BitVec.zero_and, BitVec.and_zero]
  rfl

theorem getLsbD_nibbleLanes (n3 n2 n1 n0 : BitVec 4) {k : Nat} (hk : k < 4) :
    (nibbleLanes n3 n2 n1 n0).getLsbD k = n0.getLsbD k ∧
    (nibbleLanes n3 n2 n1 n0).getLsbD (8 + k) = n1.getLsbD k ∧
    (nibbleLanes n3 n2 n1 n0).getLsbD (16 + k) = n2.getLsbD k ∧
    (nibbleLanes n3 n2 n1 n0).getLsbD (24 + k) = n3.getLsbD k := by
  rw [nibbleLanes]
  repeat rw [BitVec.getLsbD_append]
  simp (disch := omega) only [if_pos, if_neg, Nat.reduceAdd, Nat.add_sub_cancel_left, and_self]

theorem smId_cases (k : SmId) : k = 0 ∨ k = 1 ∨ k = 2 ∨ k = 3 := by
  revert k
  decide

theorem State.getLsbD_perSm (s : State) (f : Sm → Bool) (k : SmId) : (s.perSm f).getLsbD k.val = f (s.sm k) := by
  rw [State.perSm]
  repeat rw [BitVec.getLsbD_append]
  obtain rfl | rfl | rfl | rfl := smId_cases k <;> simp

theorem Sm.txEmpty_eq (m : Sm) : m.txEmpty = decide (m.tx.length = 0) := by cases h : m.tx <;> simp [Sm.txEmpty, h]

theorem Sm.rxEmpty_eq (m : Sm) : m.rxEmpty = decide (m.rx.length = 0) := by cases h : m.rx <;> simp [Sm.rxEmpty, h]

/-- FSTAT shows the full and empty flags of each state machine (10_state.md R31). -/
theorem State.getLsbD_fstat (s : State) (k : SmId) :
    s.fstat.getLsbD k.val = decide ((s.sm k).rx.length = (s.sm k).rxCap) ∧
    s.fstat.getLsbD (8 + k.val) = decide ((s.sm k).rx.length = 0) ∧
    s.fstat.getLsbD (16 + k.val) = decide ((s.sm k).tx.length = (s.sm k).txCap) ∧
    s.fstat.getLsbD (24 + k.val) = decide ((s.sm k).tx.length = 0) := by
  rw [s.fstat_eq, ← Sm.txEmpty_eq, ← Sm.rxEmpty_eq]
  obtain ⟨h0, h8, h16, h24⟩ := getLsbD_nibbleLanes (s.perSm Sm.txEmpty) (s.perSm Sm.txFull) (s.perSm Sm.rxEmpty)
    (s.perSm Sm.rxFull) k.isLt
  rw [h0, h8, h16, h24]
  exact ⟨s.getLsbD_perSm _ k, s.getLsbD_perSm _ k, s.getLsbD_perSm _ k, s.getLsbD_perSm _ k⟩

/-- Bit `j` of byte `i` of an assembled value (20_memory.md R59). -/
theorem getLsbD_assemble (size : AccessSize) (byte : Nat → Byte) {i j : Nat} (hi : i < size.bytes) (hj : j < 8) :
    (assemble size byte).getLsbD (8 * i + j) = (byte i).getLsbD j := by
  cases size <;> simp only [AccessSize.bytes] at hi <;> simp only [assemble]
  case byte =>
    rw [BitVec.getLsbD_setWidth]
    interval_cases i
    simp [show j < 32 by omega]
  case half =>
    rw [BitVec.getLsbD_setWidth, BitVec.getLsbD_append]
    interval_cases i <;> simp [show j < 32 by omega, show 8 + j < 32 by omega, hj, -BitVec.getLsbD_eq_getElem]
  case word =>
    repeat rw [BitVec.getLsbD_append]
    interval_cases i <;>
      simp (disch := omega) only [if_pos, if_neg, Nat.reduceAdd, Nat.reduceMul, Nat.zero_add, Nat.add_sub_cancel_left]

/-- A value of a narrow access is zero-extended (20_memory.md R60). -/
theorem getLsbD_assemble_above (size : AccessSize) (byte : Nat → Byte) {b : Nat} (hb : 8 * size.bytes ≤ b) :
    (assemble size byte).getLsbD b = false := by
  cases size with
  | byte => rw [assemble, BitVec.getLsbD_setWidth, BitVec.getLsbD_of_ge (byte 0) b hb, Bool.and_false]
  | half => rw [assemble, BitVec.getLsbD_setWidth, BitVec.getLsbD_of_ge (byte 1 ++ byte 0) b hb, Bool.and_false]
  | word => exact BitVec.getLsbD_of_ge _ b hb

/-- FLEVEL is a byte per state machine. -/
theorem State.flevel_eq (s : State) : s.flevel = assemble .word fun i => (s.sm (Fin.ofNat 4 i)).levels := rfl

theorem State.getLsbD_flevel (s : State) (k : SmId) {j : Nat} (hj : j < 8) :
    s.flevel.getLsbD (8 * k.val + j) = (s.sm k).levels.getLsbD j := by
  rw [s.flevel_eq, getLsbD_assemble .word _ k.isLt hj, Fin.ofNat_val_eq_self]

/-- FLEVEL shows the two levels of each state machine in its byte (10_state.md R33). -/
theorem State.extractLsb'_flevel (s : State) (k : SmId) :
    s.flevel.extractLsb' (8 * k.val) 4 = BitVec.ofNat 4 (s.sm k).tx.length ∧
    s.flevel.extractLsb' (8 * k.val + 4) 4 = BitVec.ofNat 4 (s.sm k).rx.length := by
  refine ⟨BitVec.eq_of_getLsbD_eq fun j hj => ?_, BitVec.eq_of_getLsbD_eq fun j hj => ?_⟩
  · rw [BitVec.getLsbD_extractLsb', s.getLsbD_flevel k (by omega), Sm.levels, BitVec.getLsbD_append, if_pos hj,
      decide_eq_true hj, Bool.true_and]
  · rw [BitVec.getLsbD_extractLsb', Nat.add_assoc, s.getLsbD_flevel k (by omega), Sm.levels, BitVec.getLsbD_append,
      if_neg (by omega), Nat.add_sub_cancel_left, decide_eq_true hj, Bool.true_and]

theorem State.nextInstrWord_pending {s : State} {n : SmId} {w : InstrWord} {kind : InjectKind}
    (h : (s.sm n).pending = some (w, kind)) : s.nextInstrWord n = w := by
  rw [State.nextInstrWord, h]

theorem State.nextInstrWord_slot {s : State} {n : SmId} {w : InstrWord} (h : (s.sm n).pending = none)
    (hw : Holds (s.imem.get (s.sm n).pc.toFin) w) : s.nextInstrWord n = w := by
  rw [State.nextInstrWord, h, readCell_eq_some.mpr hw, Option.getD_some]

theorem State.popRx_nil {s : State} {n : SmId} (h : (s.sm n).rx = []) :
    s.popRx n = { s with rxUnder := setBit s.rxUnder n.val } := by
  rw [State.popRx, h]

theorem State.popRx_cons {s : State} {n : SmId} {w : Word} {rest : List Word} (h : (s.sm n).rx = w :: rest) :
    s.popRx n = s.setSm n { s.sm n with rx := rest } := by
  rw [State.popRx, h]

/-- Only RXFn has a read effect (20_memory.md R74). -/
theorem State.afterSeqRead_of_ne_rxf {s : State} {r : SeqReg} (h : ∀ n, r ≠ .rxf n) : s.afterSeqRead r = s := by
  cases r with
  | rxf n => exact absurd rfl (h n)
  | _ => rfl

/-- Settles O37: the read effect of RXFn, and each status register by the lemma about its bits. -/
theorem rxfRead : Obligations.RxfRead := by
  intro s a hw
  have reads {r : SeqReg} (h : s.afterSeqRead r = s) := State.busRead_seqAddr_pure hw a h
  have extended {w : Nat} (x : BitVec w) (h : w ≤ 32) : (x.zeroExtend 32).toNat = x.toNat :=
    BitVec.toNat_setWidth_of_le h
  refine ⟨fun n w rest h => ?pop, fun n h => ?under, fun r h => ⟨_, reads (State.afterSeqRead_of_ne_rxf h)⟩,
    ⟨_, reads rfl, nibbleLanes_reserved _ _ _ _, s.getLsbD_fstat⟩,
    ⟨_, reads rfl, nibbleLanes_reserved _ _ _ _, fun k hk => getLsbD_nibbleLanes _ _ _ _ hk⟩,
    ⟨_, reads rfl, s.extractLsb'_flevel⟩, ⟨_, reads rfl, extended _ (by omega)⟩, ⟨_, reads rfl, ?force⟩,
    ⟨_, reads rfl, extended _ (by omega)⟩, ⟨_, reads rfl, extended _ (by omega)⟩, reads rfl, reads rfl, reads rfl,
    fun n => ⟨⟨_, reads rfl, extended _ (by omega)⟩, _, reads rfl, ?instr⟩⟩
  case pop =>
    rw [State.busRead_seqAddr hw, State.seqValue, State.afterSeqRead, State.popRx_cons h, h]
    rfl
  case under =>
    exact ⟨_, _, State.busRead_seqAddr hw a _, by rw [State.afterSeqRead, State.popRx_nil h], by
      rw [State.afterSeqRead, State.popRx_nil h]
      exact raised_setBit s.rxUnder n.isLt⟩
  case force =>
    rw [State.seqValue, extended _ (by omega)]
    exact BitVec.isLt _
  case instr =>
    rw [State.seqValue, extended _ (by omega)]
    exact ⟨BitVec.isLt _, fun w kind h => by rw [State.nextInstrWord_pending h],
      fun w h hslot => by rw [State.nextInstrWord_slot h hslot]⟩

/-! The instruction slots, injections and the configuration registers (20_memory.md R62 to R64, R70 to R73). -/

/-- A slot is live where the PC of an enabled state machine is on it. -/
theorem State.slotLive_iff (s : State) (i : Fin 32) :
    s.slotLive i = true ↔ ∃ k : SmId, s.smEnable.getLsbD k.val = true ∧ (s.sm k).pc.toNat = i.val := by
  have hpc (k : SmId) : (s.sm k).pc.toFin = i ↔ (s.sm k).pc.toNat = i.val := Fin.ext_iff
  simp only [State.slotLive, Bool.or_eq_true, Bool.and_eq_true, decide_eq_true_eq, hpc]
  constructor
  · rintro (((h | h) | h) | h)
    · exact ⟨0, h⟩
    · exact ⟨1, h⟩
    · exact ⟨2, h⟩
    · exact ⟨3, h⟩
  · rintro ⟨k, h⟩
    obtain rfl | rfl | rfl | rfl := smId_cases k
    · exact .inl (.inl (.inl h))
    · exact .inl (.inl (.inr h))
    · exact .inl (.inr h)
    · exact .inr h

theorem State.slot_setSlot (s : State) (i j : Fin 32) (w : InstrWord) :
    (s.setSlot i w).imem.get j = if j = i then .of w else s.imem.get j := by
  show (s.imem.set i.val (.of w) i.isLt)[j.val] = _
  rw [Vector.getElem_set]
  simp only [Fin.ext_iff, eq_comm (a := i.val)]
  rfl

/-- Settles O40: the slot is stored, unless it is live. -/
theorem instrMemWrite : Obligations.InstrMemWrite := by
  refine fun s a i v hw => ⟨fun hlive => ?live,
    fun hlive => ⟨s.setSlot i (v.extractLsb' 0 16), ?stores, rfl, ?slot, ?others⟩⟩
  case live => exact State.busWrite_seqAddr_refuse hw a (if_pos ((s.slotLive_iff i).mpr hlive))
  case stores => exact State.busWrite_seqAddr_ok hw a (if_neg (mt (s.slotLive_iff i).mp hlive))
  case slot =>
    rw [s.slot_setSlot i i, if_pos rfl]
    exact ⟨rfl, rfl⟩
  case others => exact fun j hj => by rw [s.slot_setSlot i j, if_neg hj]

/-- Settles O41: the injection, or its refusal where one is pending. -/
theorem injectionWrite : Obligations.InjectionWrite := by
  refine fun s a n v hw => ⟨fun h => State.busWrite_seqAddr_ok hw a (if_neg ?_),
    fun h => State.busWrite_seqAddr_refuse hw a (if_pos (Option.isSome_iff_ne_none.mpr h))⟩
  rw [h]
  decide

theorem Sm.shiftctrl_writeShiftctrl (m : Sm) (v : Word) : (m.writeShiftctrl v).shiftctrl = shiftctrlStored v := by
  rw [Sm.writeShiftctrl]
  split <;> rfl

/-- A register write that is stored, and the read that returns what it stored. -/
theorem State.stores_and_reads {s t : State} (hw : WindowsApart s.params) (a : Agent) {r : SeqReg} {v x : Word}
    (hp : t.params = s.params) (hstore : s.seqWrite a v r = .ok t) (hpure : t.afterSeqRead r = t)
    (hread : t.seqValue r = x) :
    s.busWrite a (s.seqAddr r) .word v = .ok t ∧ t.busRead a (t.seqAddr r) .word = .ok x t :=
  ⟨State.busWrite_seqAddr_ok hw a hstore, hread ▸ State.busRead_seqAddr_pure (hp ▸ hw) a hpure⟩

/-- The low twelve bits of a word as an interrupt register stores and reads them. -/
theorem zeroExtend_extractLsb'_12 (v : Word) : (v.extractLsb' 0 12).zeroExtend 32 = v &&& 0x00000FFF#32 := by
  apply BitVec.eq_of_toNat_eq
  rw [BitVec.toNat_setWidth_of_le (by omega), BitVec.extractLsb'_toNat, BitVec.toNat_and]
  exact (Nat.and_two_pow_sub_one_eq_mod v.toNat 12).symm

/-- A register with a read-only bit 31 reads its other bits as stored. -/
theorem maskTop_readOnlyTop (top : Bool) (v : Word) :
    (BitVec.ofBool top ++ v.extractLsb' 0 31) &&& 0x7FFFFFFF#32 = v &&& 0x7FFFFFFF#32 := by
  have hmask : 0x7FFFFFFF#32 = 0#1 ++ BitVec.allOnes 31 := rfl
  have hv : v = v.extractLsb' 31 1 ++ v.extractLsb' 0 31 :=
    (BitVec.extractLsb'_append_extractLsb' (w := 1) (len := 31)).symm
  conv_rhs => rw [hv]
  rw [hmask, BitVec.and_append, BitVec.and_append, BitVec.and_zero, BitVec.and_zero]

/-- Settles O43: each register stores its field and reads it back, and a read-only one keeps the state. -/
theorem configWrites : Obligations.ConfigWrites := by
  intro s a n v hw stores
  have hinterrupt := zeroExtend_extractLsb'_12 v
  refine ⟨State.stores_and_reads hw a rfl rfl rfl ?clkdiv,
    ⟨State.busWrite_seqAddr_ok hw a rfl, _, State.busRead_seqAddr_pure (s := s.setSm n _) hw a rfl, ?execctrl⟩,
    ⟨s.setSm n ((s.sm n).writeShiftctrl v), State.stores_and_reads hw a rfl rfl rfl ?shiftctrl⟩,
    State.stores_and_reads hw a rfl rfl rfl ?pinctrl, State.stores_and_reads hw a rfl rfl rfl ?bypass,
    State.stores_and_reads hw a rfl rfl rfl hinterrupt, State.stores_and_reads hw a rfl rfl rfl hinterrupt,
    State.stores_and_reads hw a rfl rfl rfl hinterrupt, State.stores_and_reads hw a rfl rfl rfl hinterrupt,
    fun r hr => ?readOnly⟩
  case clkdiv => rw [State.seqValue, State.sm_setSm_same]
  case execctrl =>
    rw [State.seqValue, State.sm_setSm_same]
    exact (maskTop_readOnlyTop _ _).trans (by rw [BitVec.and_assoc]; rfl)
  case shiftctrl =>
    rw [State.seqValue, State.sm_setSm_same, Sm.shiftctrl_writeShiftctrl]
    rfl
  case pinctrl =>
    rw [State.seqValue, State.sm_setSm_same]
    exact (BitVec.and_allOnes).symm
  case bypass => exact (BitVec.and_allOnes).symm
  case readOnly =>
    refine State.busWrite_seqAddr_ok hw a ?_
    simp only [List.mem_cons, List.not_mem_nil, or_false] at hr
    obtain rfl | rfl | rfl | rfl | rfl | rfl | rfl | rfl | rfl | rfl := hr <;> rfl

/-- The FIFO capacities by the join bits (10_state.md R21). -/
theorem Sm.caps_of_joins {m : Sm} {tx rx : Bool} (htx : m.shiftctrl.getLsbD 30 = tx)
    (hrx : m.shiftctrl.getLsbD 31 = rx) (hone : (tx && rx) = false) :
    m.txCap = (if rx then 0 else if tx then 8 else 4) ∧ m.rxCap = (if tx then 0 else if rx then 8 else 4) := by
  simp only [Sm.txCap, Sm.rxCap, Sm.fjoinTx, Sm.fjoinRx, htx, hrx]
  cases tx <;> cases rx
  · exact ⟨rfl, rfl⟩
  · exact ⟨rfl, rfl⟩
  · exact ⟨rfl, rfl⟩
  · cases hone

/-- Settles O44: the capacities by the join bits, and the branches of the write by whether it changes one. -/
theorem shiftctrlWrite : Obligations.ShiftctrlWrite := by
  refine ⟨fun m => ⟨fun ht hr => Sm.caps_of_joins ht hr rfl, fun ht hr => Sm.caps_of_joins ht hr rfl,
    fun ht hr => Sm.caps_of_joins ht hr rfl⟩, fun s a n v hw => ⟨fun hsame => ?keeps, fun hsame => ?empties⟩⟩
  case keeps =>
    exact State.busWrite_seqAddr_ok hw a (congrArg (fun m => Except.ok (s.setSm n m)) (if_pos hsame))
  case empties =>
    exact State.busWrite_seqAddr_ok hw a (congrArg (fun m => Except.ok (s.setSm n m)) (if_neg hsame))

/-! Platform memory and the host's steps (20_memory.md R59, R60, R84). -/

theorem getElem?_bytesOf (size : AccessSize) (v : Word) {i : Nat} (hi : i < size.bytes) :
    (bytesOf size v)[i]? = some (v.extractLsb' (8 * i) 8) := by
  cases size <;> simp only [AccessSize.bytes] at hi <;> interval_cases i <;> rfl

/-- A byte of a store reads back as its byte of the value. -/
theorem State.byteAt_platformStore (s : State) (addr v : Word) (size : AccessSize) {i : Nat} (hi : i < size.bytes) :
    (s.platformStore addr size v).mem.byteAt (addr.toNat + i) = some (v.extractLsb' (8 * i) 8) := by
  rw [State.platformStore, Memory.byteAt_setBytes, length_bytesOf, if_pos (by omega), Nat.add_sub_cancel_left,
    getElem?_bytesOf size v hi]

/-- A byte outside a store reads as before. -/
theorem State.byteAt_platformStore_outside (s : State) (addr v : Word) (size : AccessSize) {b : Nat}
    (hb : b < addr.toNat ∨ addr.toNat + size.bytes ≤ b) :
    (s.platformStore addr size v).mem.byteAt b = s.mem.byteAt b := by
  rw [State.platformStore, Memory.byteAt_setBytes, length_bytesOf, if_neg (by omega)]

/-- Settles O46: the checks in their order, the bytes of the value read, and those of the value stored. -/
theorem platformMemory : Obligations.PlatformMemory := by
  intro s a addr v size hregion aligned responds
  simp only [State.busRead, State.busWrite, hregion]
  refine ⟨fun hmis => ⟨if_pos hmis, if_pos hmis⟩, fun hal hno => ?error, fun hal hyes => ?access⟩
  case error =>
    have hnot : (!s.busOk addr size) = true := by simpa [responds] using hno
    rw [if_neg (not_not.mpr hal), if_neg (not_not.mpr hal), if_pos hnot, if_pos hnot]
    exact ⟨rfl, rfl⟩
  case access =>
    have hnot : ¬(!s.busOk addr size) = true := by simpa using hyes
    rw [if_neg (not_not.mpr hal), if_neg (not_not.mpr hal), if_neg hnot, if_neg hnot]
    exact ⟨⟨_, rfl, fun i hi j hj => getLsbD_assemble size _ hi hj, fun b hb => getLsbD_assemble_above size _ hb⟩,
      _, rfl, rfl, fun i hi => s.byteAt_platformStore addr v size hi,
      fun b hb => s.byteAt_platformStore_outside addr v size hb⟩

theorem step_hostRead {s : State} {addr : Word} {size : AccessSize} (he : s.nextEvent = .hostRead addr size) :
    step s = hostReadStep addr size s.consume := by
  rw [step, he]
  rfl

theorem step_hostWrite {s : State} {addr v : Word} {size : AccessSize} (he : s.nextEvent = .hostWrite addr size v) :
    step s = hostWriteStep addr size v s.consume := by
  rw [step, he]
  rfl

/-- Settles O47: the host's step is the answer of its bus access. -/
theorem hostAccess : Obligations.HostAccess := by
  refine fun s addr v size => ⟨fun he => ?read, fun he => ?write⟩
  case read =>
    rw [step_hostRead he, hostReadStep]
    exact ⟨fun x t h => by rw [h], fun h => by rw [h], fun r h => by rw [h]⟩
  case write =>
    rw [step_hostWrite he, hostWriteStep]
    exact ⟨fun t h => by rw [h], fun h => by rw [h], fun r h => by rw [h]⟩

end Sys2Proof.Machine
end

section
/-! SUPPORT. The statements about the encoding (spec/30_encoding.md R86 to R100): the decoder and the encoder are inverse
to each other, the words the decoder refuses are the reserved ones, the delay/side-set split, and the answer of every
well-formed instruction. -/

namespace Sys2Proof

/-! Decoding what is encoded (30_encoding.md R86 to R97): each operand is read back from the bits it was put in. -/

theorem decodeWait_gpio (ds : Five) (pol : Bool) (lo : Five) :
    decodeWait ds (waitHi pol 0b00#2) lo = .ok (.waitGpio ds pol lo) := by
  cases pol <;> rfl

theorem decodeWait_pin (ds : Five) (pol : Bool) (lo : Five) :
    decodeWait ds (waitHi pol 0b01#2) lo = .ok (.waitPin ds pol lo) := by
  cases pol <;> rfl

theorem decodeWait_irq (ds : Five) (pol : Bool) {lo : Five} (h : irqIndexOk lo = true) :
    decodeWait ds (waitHi pol 0b10#2) lo = .ok (.waitIrq ds pol lo) := by
  cases pol <;> exact if_pos h

theorem decodeWait_edge (ds : Five) (pol : Bool) (lo : Five) :
    decodeWait ds (waitHi pol 0b11#2) lo = .ok (.waitEdge ds pol lo) := by
  cases pol <;> rfl

theorem decodePushPull_push (ds : Five) (iffull block : Bool) :
    decodePushPull ds (flagsHi false iffull block) 0b00000#5 = .ok (.push ds iffull block) := by
  cases iffull <;> cases block <;> rfl

theorem decodePushPull_pull (ds : Five) (ifempty block : Bool) :
    decodePushPull ds (flagsHi true ifempty block) 0b00000#5 = .ok (.pull ds ifempty block) := by
  cases ifempty <;> cases block <;> rfl

theorem decodeMovOp_movLo (op : MovOp) (src : MovSrc) : decodeMovOp (movLo op src) = some op := by
  cases op <;> cases src <;> rfl

theorem decodeMovSrc_movLo (op : MovOp) (src : MovSrc) : decodeMovSrc (movLo op src) = some src := by
  cases op <;> cases src <;> rfl

theorem decodeMov_movLo (ds : Five) (hi : BitVec 3) (op : MovOp) (src : MovSrc) :
    decodeMov ds hi (movLo op src) = decodeMovDest ds hi op src := by
  rw [decodeMov, decodeMovOp_movLo, decodeMovSrc_movLo]

theorem decode_packWord_mov (ds : Five) (hi : BitVec 3) (op : MovOp) (src : MovSrc) :
    decode (packWord 0b101#3 ds hi (movLo op src)) = decodeMovDest ds hi op src :=
  (decode_packWord _ _ _ _).trans (decodeMov_movLo ds hi op src)

/-! IRQ with bit 7 clear and an admitted index, by its clr and wait bits (30_encoding.md R96). -/

theorem decodeIrq_set (ds : Five) {lo : Five} (h : irqIndexOk lo = true) :
    decodeIrq ds (flagsHi false false false) lo = .ok (.irqSet ds lo) := by
  rw [decodeIrq, h]
  rfl

theorem decodeIrq_wait (ds : Five) {lo : Five} (h : irqIndexOk lo = true) :
    decodeIrq ds (flagsHi false false true) lo = .ok (.irqWait ds lo) := by
  rw [decodeIrq, h]
  rfl

theorem decodeIrq_clear (ds : Five) (wait : Bool) {lo : Five} (h : irqIndexOk lo = true) :
    decodeIrq ds (flagsHi false true wait) lo = .ok (.irqClear ds wait lo) := by
  rw [decodeIrq, h]
  cases wait <;> rfl

/-- Settles O1: the fields of the word come apart by `decode_packWord`, and each opcode's decoder reads its operands
back. -/
theorem decodeEncode : Obligations.DecodeEncode := by
  intro i hwf
  cases i with
  | jmpAlways | jmpNotX | jmpXDec | jmpNotY | jmpYDec | jmpXNeY | jmpPin | jmpNotOsre => exact decode_packWord _ _ _ _
  | waitGpio ds pol index => exact (decode_packWord _ _ _ _).trans (decodeWait_gpio ds pol index)
  | waitPin ds pol index => exact (decode_packWord _ _ _ _).trans (decodeWait_pin ds pol index)
  | waitIrq ds pol index => exact (decode_packWord _ _ _ _).trans (decodeWait_irq ds pol hwf)
  | waitEdge ds pol index => exact (decode_packWord _ _ _ _).trans (decodeWait_edge ds pol index)
  | inPins | inX | inY | inNull | inIsr | inOsr => exact decode_packWord _ _ _ _
  | outPins | outX | outY | outNull | outPindirs | outPc | outIsr | outExec => exact decode_packWord _ _ _ _
  | push ds iffull block => exact (decode_packWord _ _ _ _).trans (decodePushPull_push ds iffull block)
  | pull ds ifempty block => exact (decode_packWord _ _ _ _).trans (decodePushPull_pull ds ifempty block)
  | nop ds => exact decode_packWord_mov ds _ .none .y
  | movY ds op src => exact (decode_packWord_mov ds _ op src).trans (if_pos hwf)
  | movPins ds op src | movX ds op src | movExec ds op src | movPc ds op src | movIsr ds op src | movOsr ds op src =>
    exact decode_packWord_mov ds _ op src
  | irqSet ds index => exact (decode_packWord _ _ _ _).trans (decodeIrq_set ds hwf)
  | irqWait ds index => exact (decode_packWord _ _ _ _).trans (decodeIrq_wait ds hwf)
  | irqClear ds wait index => exact (decode_packWord _ _ _ _).trans (decodeIrq_clear ds wait hwf)
  | setPins | setX | setY | setPindirs => exact decode_packWord _ _ _ _

/-- A word that is the encoding of a well-formed instruction decodes to it. -/
theorem decode_of_encode_eq {i : Instr} {w : InstrWord} (hwf : i.wf = true) (henc : encode i = w) : decode w = .ok i :=
  henc ▸ decodeEncode i hwf

/-- Settles O4: each word is the encoding of its instruction. -/
theorem sampleWords : Obligations.SampleWords :=
  ⟨decode_of_encode_eq rfl rfl, decode_of_encode_eq rfl rfl, decode_of_encode_eq rfl rfl, decode_of_encode_eq rfl rfl,
    decode_of_encode_eq rfl rfl, decode_of_encode_eq rfl rfl, decode_of_encode_eq rfl rfl, decode_of_encode_eq rfl rfl,
    decode_of_encode_eq rfl rfl, decode_of_encode_eq rfl rfl, decode_of_encode_eq rfl rfl⟩

/-! Everything the decoder can answer (30_encoding.md R99, R100). -/

/-- A right answer for the word `w`, whose form is reserved where `reserved` holds: an error there, else a well-formed
instruction that `w` encodes. -/
inductive DecodesRight (w : InstrWord) (reserved : Prop) : Except ReservedForm Instr → Prop where
  | ok {i : Instr} (hwf : i.wf = true) (henc : encode i = w) (hform : ¬reserved) : DecodesRight w reserved (.ok i)
  | error {r : ReservedForm} (hform : reserved) : DecodesRight w reserved (.error r)

theorem DecodesRight.congr {w : InstrWord} {p q : Prop} {a : Except ReservedForm Instr} (h : DecodesRight w p a)
    (hpq : p ↔ q) : DecodesRight w q a := propext hpq ▸ h

/-- A 3-bit field is one of its eight codes. -/
theorem bitVec3_cases {motive : BitVec 3 → Prop} (b000 : motive 0b000#3) (b001 : motive 0b001#3)
    (b010 : motive 0b010#3) (b011 : motive 0b011#3) (b100 : motive 0b100#3) (b101 : motive 0b101#3)
    (b110 : motive 0b110#3) (b111 : motive 0b111#3) (v : BitVec 3) : motive v := by
  have hcodes : ∀ u : BitVec 3, u = 0b000#3 ∨ u = 0b001#3 ∨ u = 0b010#3 ∨ u = 0b011#3 ∨ u = 0b100#3 ∨ u = 0b101#3 ∨
      u = 0b110#3 ∨ u = 0b111#3 := by decide
  rcases hcodes v with rfl | rfl | rfl | rfl | rfl | rfl | rfl | rfl
  exacts [b000, b001, b010, b011, b100, b101, b110, b111]

theorem irqIndexOk_eq_false_iff (index : Five) : irqIndexOk index = false ↔ index.getLsbD 3 = true := by
  simp [irqIndexOk]

theorem irqIndexOk_iff (index : Five) : irqIndexOk index = true ↔ ¬index.getLsbD 3 = true := by
  simp [irqIndexOk]

theorem decodeJmp_right (ds : Five) (hi : BitVec 3) (lo : Five) :
    DecodesRight (packWord 0b000#3 ds hi lo) False (.ok (decodeJmp ds hi lo)) := by
  cases hi using bitVec3_cases <;> exact .ok rfl rfl id

theorem decodeWait_irq_reserved (ds : Five) (pol : Bool) {lo : Five} (h : irqIndexOk lo = false) :
    decodeWait ds (waitHi pol 0b10#2) lo = .error .waitIrqIndex := by
  cases pol <;> exact if_neg (by simp [h])

theorem decodeWait_irq_right (ds : Five) (pol : Bool) (lo : Five) :
    DecodesRight (packWord 0b001#3 ds (waitHi pol 0b10#2) lo) (lo.getLsbD 3 = true)
      (decodeWait ds (waitHi pol 0b10#2) lo) := by
  cases h : irqIndexOk lo with
  | true => rw [decodeWait_irq ds pol h]; exact .ok h rfl ((irqIndexOk_iff lo).1 h)
  | false => rw [decodeWait_irq_reserved ds pol h]; exact .error ((irqIndexOk_eq_false_iff lo).1 h)

theorem decodeWait_right (ds : Five) (hi : BitVec 3) (lo : Five) :
    DecodesRight (packWord 0b001#3 ds hi lo) (hi.toNat % 4 = 2 ∧ lo.getLsbD 3 = true) (decodeWait ds hi lo) := by
  cases hi using bitVec3_cases with
  | b010 => exact (decodeWait_irq_right ds false lo).congr (and_iff_right rfl).symm
  | b110 => exact (decodeWait_irq_right ds true lo).congr (and_iff_right rfl).symm
  | b000 | b001 | b011 | b100 | b101 | b111 => exact .ok rfl rfl fun hform => absurd hform.1 (by decide)

theorem decodeIn_right (ds : Five) (hi : BitVec 3) (lo : Five) :
    DecodesRight (packWord 0b010#3 ds hi lo) (hi.toNat = 4 ∨ hi.toNat = 5) (decodeIn ds hi lo) := by
  cases hi using bitVec3_cases with
  | b100 => exact .error (.inl rfl)
  | b101 => exact .error (.inr rfl)
  | b000 | b001 | b010 | b011 | b110 | b111 => exact .ok rfl rfl (by decide)

theorem decodeOut_right (ds : Five) (hi : BitVec 3) (lo : Five) :
    DecodesRight (packWord 0b011#3 ds hi lo) False (.ok (decodeOut ds hi lo)) := by
  cases hi using bitVec3_cases <;> exact .ok rfl rfl id

/-- Bits 7:5 are three flags. -/
theorem exists_flagsHi (hi : BitVec 3) : ∃ bit7 bit6 bit5, hi = flagsHi bit7 bit6 bit5 := by
  revert hi; decide

theorem flagsHi_bit7 (bit7 bit6 bit5 : Bool) : (flagsHi bit7 bit6 bit5).getLsbD 2 = bit7 := by
  cases bit7 <;> cases bit6 <;> cases bit5 <;> rfl

theorem decodePushPull_reserved (ds : Five) (hi : BitVec 3) {lo : Five} (h : lo.toNat ≠ 0) :
    ∃ r, decodePushPull ds hi lo = .error r := by
  unfold decodePushPull
  split
  next hlo => exact absurd hlo h
  next hlo => exact absurd hlo h
  next => exact ⟨_, rfl⟩
  next => exact ⟨_, rfl⟩

theorem decodePushPull_right (ds : Five) (hi : BitVec 3) (lo : Five) :
    DecodesRight (packWord 0b100#3 ds hi lo) (lo.toNat ≠ 0) (decodePushPull ds hi lo) := by
  obtain ⟨bit7, bit6, bit5, rfl⟩ := exists_flagsHi hi
  by_cases hlo : lo.toNat = 0
  case pos =>
    obtain rfl : lo = 0#5 := BitVec.eq_of_toNat_eq hlo
    cases bit7 with
    | false => rw [decodePushPull_push]; exact .ok rfl rfl (fun h => h rfl)
    | true => rw [decodePushPull_pull]; exact .ok rfl rfl (fun h => h rfl)
  case neg =>
    obtain ⟨r, hr⟩ := decodePushPull_reserved ds (flagsHi bit7 bit6 bit5) hlo
    rw [hr]
    exact .error hlo

theorem decodeMovOp_eq_none_iff (lo : Five) : decodeMovOp lo = none ↔ lo.toNat / 8 = 3 := by
  revert lo; decide

theorem decodeMovSrc_eq_none_iff (lo : Five) : decodeMovSrc lo = none ↔ lo.toNat % 8 = 4 := by
  revert lo; decide

theorem movLo_of_decode (lo : Five) : ∀ op ∈ decodeMovOp lo, ∀ src ∈ decodeMovSrc lo, movLo op src = lo := by
  revert lo; decide

theorem movYOk_eq_false {op : MovOp} {src : MovSrc} (h : movYOk op src = false) : op = .none ∧ src = .y := by
  simpa [movYOk] using h

theorem decodeMovDest_right (ds : Five) (hi : BitVec 3) (op : MovOp) (src : MovSrc) :
    DecodesRight (packWord 0b101#3 ds hi (movLo op src)) (hi.toNat = 3) (decodeMovDest ds hi op src) := by
  cases hi using bitVec3_cases with
  | b010 =>
    cases h : movYOk op src with
    | true => rw [show decodeMovDest ds 0b010#3 op src = _ from if_pos h]; exact .ok h rfl (by decide)
    | false =>
      obtain ⟨rfl, rfl⟩ := movYOk_eq_false h
      exact .ok rfl rfl (by decide)
  | b011 => exact .error rfl
  | b000 | b001 | b100 | b101 | b110 | b111 => exact .ok rfl rfl (by decide)

theorem decodeMov_right (ds : Five) (hi : BitVec 3) (lo : Five) :
    DecodesRight (packWord 0b101#3 ds hi lo) (hi.toNat = 3 ∨ lo.toNat / 8 = 3 ∨ lo.toNat % 8 = 4) (decodeMov ds hi lo) := by
  have hlo := movLo_of_decode lo
  rw [← decodeMovOp_eq_none_iff, ← decodeMovSrc_eq_none_iff]
  unfold decodeMov
  cases hop : decodeMovOp lo with
  | none => exact .error (.inr (.inl rfl))
  | some op =>
    cases hsrc : decodeMovSrc lo with
    | none => exact .error (.inr (.inr rfl))
    | some src =>
      rw [← hlo op hop src hsrc]
      exact (decodeMovDest_right ds hi op src).congr (by simp)

theorem decodeIrq_right (ds : Five) (hi : BitVec 3) (lo : Five) :
    DecodesRight (packWord 0b110#3 ds hi lo) (hi.getLsbD 2 = true ∨ lo.getLsbD 3 = true) (decodeIrq ds hi lo) := by
  obtain ⟨bit7, bit6, bit5, rfl⟩ := exists_flagsHi hi
  rw [flagsHi_bit7]
  cases bit7 with
  | true => rw [decodeIrq, flagsHi_bit7]; exact .error (.inl rfl)
  | false =>
    cases hlo : irqIndexOk lo with
    | false => rw [decodeIrq, flagsHi_bit7, hlo]; exact .error (.inr ((irqIndexOk_eq_false_iff lo).1 hlo))
    | true =>
      have hform : ¬(false = true ∨ lo.getLsbD 3 = true) := by simpa using (irqIndexOk_iff lo).1 hlo
      cases bit6 with
      | true => rw [decodeIrq_clear ds bit5 hlo]; exact .ok hlo rfl hform
      | false =>
        cases bit5 with
        | true => rw [decodeIrq_wait ds hlo]; exact .ok hlo rfl hform
        | false => rw [decodeIrq_set ds hlo]; exact .ok hlo rfl hform

theorem decodeSet_right (ds : Five) (hi : BitVec 3) (lo : Five) :
    DecodesRight (packWord 0b111#3 ds hi lo) (hi.toNat = 3 ∨ hi.toNat = 5 ∨ hi.toNat = 6 ∨ hi.toNat = 7)
      (decodeSet ds hi lo) := by
  cases hi using bitVec3_cases with
  | b011 => exact .error (.inl rfl)
  | b101 => exact .error (.inr (.inl rfl))
  | b110 => exact .error (.inr (.inr (.inl rfl)))
  | b111 => exact .error (.inr (.inr (.inr rfl)))
  | b000 | b001 | b010 | b100 => exact .ok rfl rfl (by decide)

/-- The reserved forms of 30_encoding.md R99, by opcode. -/
def ReservedFields (op hi : BitVec 3) (lo : Five) : Prop :=
  match op.toNat with
  | 0 => False
  | 1 => hi.toNat % 4 = 2 ∧ lo.getLsbD 3 = true
  | 2 => hi.toNat = 4 ∨ hi.toNat = 5
  | 3 => False
  | 4 => lo.toNat ≠ 0
  | 5 => hi.toNat = 3 ∨ lo.toNat / 8 = 3 ∨ lo.toNat % 8 = 4
  | 6 => hi.getLsbD 2 = true ∨ lo.getLsbD 3 = true
  | _ => hi.toNat = 3 ∨ hi.toNat = 5 ∨ hi.toNat = 6 ∨ hi.toNat = 7

/-- Every word has a right answer: an instruction that spells it, or an error at a reserved form. -/
theorem decodeFields_right (op : BitVec 3) (ds : Five) (hi : BitVec 3) (lo : Five) :
    DecodesRight (packWord op ds hi lo) (ReservedFields op hi lo) (decodeFields op ds hi lo) := by
  cases op using bitVec3_cases with
  | b000 => exact decodeJmp_right ds hi lo
  | b001 => exact decodeWait_right ds hi lo
  | b010 => exact decodeIn_right ds hi lo
  | b011 => exact decodeOut_right ds hi lo
  | b100 => exact decodePushPull_right ds hi lo
  | b101 => exact decodeMov_right ds hi lo
  | b110 => exact decodeIrq_right ds hi lo
  | b111 => exact decodeSet_right ds hi lo

end Sys2Proof

namespace Sys2Proof.Machine

open Sys2Proof

/-! The reserved encodings (30_encoding.md R99). -/

theorem field_zeroExtend (w : InstrWord) (lo n : Nat) : field (w.zeroExtend 32) lo n = (w.extractLsb' lo n).toNat := by
  have hw : (w.zeroExtend 32).toNat = w.toNat := by
    rw [BitVec.toNat_setWidth, Nat.mod_eq_of_lt (by omega)]
  rw [field, hw, BitVec.extractLsb'_toNat, Nat.shiftRight_eq_div_pow]

/-- A word is reserved where its fields are. -/
theorem reserved_packWord_iff (op : BitVec 3) (ds : Five) (hi : BitVec 3) (lo : Five) :
    Reserved (packWord op ds hi lo) ↔ ReservedFields op hi lo := by
  have hbit7 : (packWord op ds hi lo).getLsbD 7 = hi.getLsbD 2 := by
    simp only [packWord, BitVec.getLsbD_append]; simp
  have hbit3 : (packWord op ds hi lo).getLsbD 3 = lo.getLsbD 3 := by
    simp only [packWord, BitVec.getLsbD_append]; simp
  simp only [Reserved, field_zeroExtend, packWord_op, packWord_hi, packWord_lo, hbit7, hbit3]
  cases op using bitVec3_cases <;> simp [ReservedFields]

theorem decode_right (w : InstrWord) : DecodesRight w (Reserved w) (decode w) := by
  have h := decodeFields_right (w.extractLsb' 13 3) (w.extractLsb' 8 5) (w.extractLsb' 5 3) (w.extractLsb' 0 5)
  rwa [← reserved_packWord_iff _ (w.extractLsb' 8 5), packWord_fields] at h

/-- Settles O2: a right answer is well formed and encodes to the word. -/
theorem encodeDecode : Obligations.EncodeDecode := by
  intro w i hdec
  have hright := decode_right w
  rw [hdec] at hright
  cases hright with
  | ok hwf henc hform => exact ⟨hwf, henc⟩

theorem decode_error_iff (w : InstrWord) : (∃ r, decode w = .error r) ↔ Reserved w := by
  have hright := decode_right w
  generalize decode w = a at hright ⊢
  cases hright with
  | ok hwf henc hform => simp [hform]
  | error hform => simp [hform]

/-- Executing a reserved word is refused (30_encoding.md R99). -/
theorem execWord_reserved {w : InstrWord} (h : Reserved w) (s : State) :
    execWord w s = .refused (.reservedEncoding (.sm s.active)) := by
  obtain ⟨r, hr⟩ := (decode_error_iff w).2 h
  rw [execWord, hr]

/-- Settles O3: the decoder's errors are the reserved forms, and the tick executes the word it selects. -/
theorem reservedEncodings : Obligations.ReservedEncodings :=
  ⟨decode_error_iff, fun s k _ ht hw h => (step_selects ht hw).trans (execWord_reserved h (s.consume.activate k))⟩

/-! The delay/side-set split (30_encoding.md R88). -/

theorem dsSplit_delay (m : Sm) (ds : Five) : (dsSplit m ds).delay = ds.toNat % 2 ^ (5 - m.sidesetCount) := by
  simp only [dsSplit]
  split <;> rfl

theorem dsSplit_of_not_sideEn {m : Sm} (h : m.sideEn = false) (ds : Five) :
    (dsSplit m ds).ssValid = decide (0 < m.sidesetCount) ∧ (dsSplit m ds).ssBits = m.sidesetCount ∧
      (dsSplit m ds).ssValue = BitVec.ofNat 32 (ds.toNat / 2 ^ (5 - m.sidesetCount)) := by
  simp [dsSplit, h]

theorem dsSplit_of_sideEn {m : Sm} (h : m.sideEn = true) (ds : Five) :
    (dsSplit m ds).ssValid = ds.getLsbD 4 ∧ (dsSplit m ds).ssBits = m.sidesetCount - 1 ∧
      (dsSplit m ds).ssValue =
        BitVec.ofNat 32 (ds.toNat / 2 ^ (5 - m.sidesetCount) % 2 ^ (m.sidesetCount - 1)) := by
  simp [dsSplit, h]

/-- Bit `j` of the part of the field above its low `d` bits. -/
theorem testBit_sidePart (ds : Five) (d j : Nat) : (ds.toNat / 2 ^ d).testBit j = ds.getLsbD (d + j) := by
  rw [Nat.testBit_div_two_pow, Nat.add_comm, BitVec.getLsbD]

/-- Settles O5: the delay is the low bits of the field, and the side-set value the bits above them, less the enable bit
where there is one. -/
theorem delaySideSetSplit : Obligations.DelaySideSetSplit := by
  intro m ds hcount _
  refine ⟨?delay, fun hen => ?plain, fun hen => ?enabled⟩
  case delay =>
    rw [dsSplit_delay]
    split
    next h => rw [h, Nat.sub_self, Nat.pow_zero, Nat.mod_one]
    next => rfl
  case plain =>
    obtain ⟨hvalid, hbits, hvalue⟩ := dsSplit_of_not_sideEn hen ds
    refine ⟨hvalid, hbits, fun j hj => ?_⟩
    have hj32 : j < 32 := by omega
    rw [hvalue, BitVec.getLsbD_ofNat, testBit_sidePart, decide_eq_true hj32, Bool.true_and]
  case enabled =>
    obtain ⟨hvalid, hbits, hvalue⟩ := dsSplit_of_sideEn hen ds
    refine ⟨hvalid, hbits, fun j hj => ?_⟩
    have hj32 : j < 32 := by omega
    rw [hvalue, BitVec.getLsbD_ofNat, Nat.testBit_mod_two_pow, testBit_sidePart, decide_eq_true hj32, decide_eq_true hj,
      Bool.true_and, Bool.true_and]

/-! What a rule can refuse (30_encoding.md R99). -/

/-- `P` holds of the refusal a rule answers with, if any. -/
def RuleResult.RefusesOnly (P : Refusal → Prop) : RuleResult → Prop
  | .complete _ _ _ => True
  | .stall _ => True
  | .unwritten => True
  | .refuse r => P r

theorem irqIndex_eq_none_iff (index : Five) (k : SmId) : irqIndex index k = none ↔ irqIndexOk index = false := by
  rw [irqIndexOk_eq_false_iff, irqIndex]
  split
  next h => exact ⟨fun _ => h, fun _ => rfl⟩
  next h =>
    refine ⟨fun hnone => ?_, fun hbit => absurd hbit h⟩
    split at hnone <;> cases hnone

theorem refusesOnly_jmpRule (P : Refusal → Prop) (addr : Five) (s : State) (cond : Option Bool) :
    (jmpRule addr s cond).RefusesOnly P := by
  rcases jmpRule_cases addr s cond with ⟨_, hr⟩ | ⟨b, _, hr⟩ <;> rw [hr] <;> trivial

theorem refusesOnly_waitRule (P : Refusal → Prop) (s : State) (cond : Bool) : (waitRule s cond).RefusesOnly P := by
  rcases waitRule_cases s cond with ⟨_, hr⟩ | ⟨_, hr⟩ <;> rw [hr] <;> trivial

theorem refusesOnly_inRule (P : Refusal → Prop) (count : Five) (s : State) (src : Option Word) :
    (inRule count s src).RefusesOnly P := by
  rcases inRule_cases count s src with ⟨_, hr⟩ | ⟨v, _, _, _, _, hr⟩ | ⟨v, _, _, _, _, hr⟩ | ⟨v, _, _, hr⟩ <;>
    rw [hr] <;> trivial

/-- An OUT refuses only what its destination does. -/
theorem refusesOnly_outRule {P : Refusal → Prop} (count : Five) (s : State) {dest : State → Word → Nat → RuleResult}
    (hd : ∀ s' data n, (dest s' data n).RefusesOnly P) : (outRule count s dest).RefusesOnly P := by
  rcases outRule_cases count s dest with ⟨_, hr⟩ | ⟨_, hr⟩ | ⟨osr, cnt, tx, _, hr⟩ <;> rw [hr]
  · trivial
  · trivial
  · exact hd _ _ _

theorem refusesOnly_pushRule (P : Refusal → Prop) (iffull block : Bool) (s : State) :
    (pushRule iffull block s).RefusesOnly P := by
  rcases pushRule_cases iffull block s with
    ⟨_, _, hr⟩ | ⟨_, ⟨_, _, hr⟩ | ⟨_, _, _, hr⟩ | ⟨_, _, _, hr⟩ | ⟨_, hr⟩⟩ <;> rw [hr] <;> trivial

theorem refusesOnly_pullRule (P : Refusal → Prop) (ifempty block : Bool) (s : State) :
    (pullRule ifempty block s).RefusesOnly P := by
  rcases pullRule_cases ifempty block s with
    ⟨_, hr⟩ | ⟨_, ⟨_, _, hr⟩ | ⟨_, _, _, hr⟩ | ⟨_, _, _, hr⟩ | ⟨w, rest, _, hr⟩⟩ <;> rw [hr] <;> trivial

/-- A MOV refuses only what its destination does. -/
theorem refusesOnly_movRule {P : Refusal → Prop} (op : MovOp) (src : MovSrc) (s : State) {dest : Word → RuleResult}
    (hd : ∀ r, (dest r).RefusesOnly P) : (movRule op src s dest).RefusesOnly P := by
  rcases movRule_cases op src s dest with ⟨_, hr⟩ | ⟨v, _, hr⟩ <;> rw [hr]
  · trivial
  · exact hd _

/-- What a rule over an IRQ index refuses: a reserved index, as a reserved encoding (43_mov_irq_set.md R143). -/
def RefusesIndex (index : Five) (s : State) (r : Refusal) : Prop :=
  irqIndexOk index = false ∧ r = .reservedEncoding (.sm s.active)

theorem refusesIndex_of_none {index : Five} {s : State} (h : irqIndex index s.active = none) :
    RefusesIndex index s (.reservedEncoding (.sm s.active)) :=
  ⟨(irqIndex_eq_none_iff index s.active).1 h, rfl⟩

theorem refusesOnly_irqRule (wait : Bool) (index : Five) (s : State) :
    (irqRule wait index s).RefusesOnly (RefusesIndex index s) := by
  rcases irqRule_cases wait index s with
    ⟨h, hr⟩ | ⟨f, _, ⟨_, _, hr⟩ | ⟨_, _, hr⟩ | ⟨_, _, hr⟩ | ⟨_, _, hr⟩⟩ <;> rw [hr]
  · exact refusesIndex_of_none h
  all_goals trivial

theorem refusesOnly_irqClearRule (index : Five) (s : State) :
    (irqClearRule index s).RefusesOnly (RefusesIndex index s) := by
  rcases irqClearRule_cases index s with ⟨h, hr⟩ | ⟨f, _, hr⟩ <;> rw [hr]
  · exact refusesIndex_of_none h
  · trivial

theorem refusesOnly_ruleWaitIrq (pol : Bool) (index : Five) (s : State) :
    (ruleWaitIrq pol index s).RefusesOnly (RefusesIndex index s) := by
  unfold ruleWaitIrq
  split
  next h => exact refusesIndex_of_none h
  next => split <;> trivial

/-- The refusal of a term that no word spells, as a reserved encoding (log 23). -/
def RefusesIllFormed (i : Instr) (s : State) (r : Refusal) : Prop :=
  i.wf = false ∧ r = .reservedEncoding (.sm s.active)

/-- The rule of an instruction refuses only an ill-formed term: the well-formedness of an IRQ or WAIT IRQ is that of its
index, and no other rule refuses. -/
theorem refusesOnly_ruleOf (i : Instr) (s : State) : (ruleOf i s).RefusesOnly (RefusesIllFormed i s) := by
  cases i with
  | jmpAlways | jmpNotX | jmpXDec | jmpNotY | jmpYDec | jmpXNeY | jmpPin | jmpNotOsre =>
    simp only [ruleOf, ruleJmpAlways, ruleJmpNotX, ruleJmpXDec, ruleJmpNotY, ruleJmpYDec, ruleJmpXNeY, ruleJmpPin,
      ruleJmpNotOsre]
    exact refusesOnly_jmpRule _ _ _ _
  | waitGpio | waitPin | waitEdge => exact refusesOnly_waitRule _ _ _
  | waitIrq ds pol index => exact refusesOnly_ruleWaitIrq pol index s
  | inPins | inX | inY | inNull | inIsr | inOsr =>
    simp only [ruleOf, ruleInPins, ruleInX, ruleInY, ruleInNull, ruleInIsr, ruleInOsr]
    exact refusesOnly_inRule _ _ _ _
  | outPins | outX | outY | outNull | outPindirs | outPc | outIsr | outExec =>
    simp only [ruleOf, ruleOutPins, ruleOutX, ruleOutY, ruleOutNull, ruleOutPindirs, ruleOutPc, ruleOutIsr, ruleOutExec]
    exact refusesOnly_outRule _ _ fun _ _ _ => trivial
  | push => exact refusesOnly_pushRule _ _ _ _
  | pull => exact refusesOnly_pullRule _ _ _ _
  | nop | setPins | setX | setY | setPindirs => trivial
  | movPins | movExec | movPc | movIsr | movOsr =>
    simp only [ruleOf, ruleMovPins, ruleMovExec, ruleMovPc, ruleMovIsr, ruleMovOsr]
    exact refusesOnly_movRule _ _ _ fun _ => trivial
  | movX | movY =>
    simp only [ruleOf, ruleMovX, ruleMovY]
    split
    · trivial
    · exact refusesOnly_movRule _ _ _ fun _ => trivial
  | irqSet | irqWait => exact refusesOnly_irqRule _ _ _
  | irqClear => exact refusesOnly_irqClearRule _ _

/-- Every instruction answers a next state, or refuses an ill-formed term. -/
theorem exec_cases (i : Instr) (s : State) :
    (∃ t, exec i s = .next t) ∨ ∃ r, exec i s = .refused r ∧ RefusesIllFormed i s r := by
  have hrefuses := refusesOnly_ruleOf i s
  rw [exec_eq_finishTick]
  cases hrule : ruleOf i s with
  | complete s' j e => exact .inl ⟨_, rfl⟩
  | stall s' => exact .inl ⟨_, rfl⟩
  | unwritten => exact .inl ⟨_, rfl⟩
  | refuse r => exact .inr ⟨r, rfl, by rwa [hrule] at hrefuses⟩

/-- Settles O28: a well-formed instruction is not refused, and no tick's end is a fault of the machine. -/
theorem everyInstructionRuns : Obligations.EveryInstructionRuns := by
  intro i s
  rcases exec_cases i s with ⟨t, ht⟩ | ⟨r, hr, hwf, hreason⟩
  · exact ⟨fun _ => ⟨t, ht⟩, fun r h => by simp [ht] at h, fun r h => by simp [ht] at h⟩
  · refine ⟨fun h => by simp [hwf] at h, fun r' h => ?_, fun r' h => by simp [hr] at h⟩
    rw [hr] at h
    cases h
    exact ⟨hwf, hreason⟩

end Sys2Proof.Machine
end

section
/-! SUPPORT. The statements about the cycle of a state machine (spec/40_sequencer_cycle.md): when it has an enabled step,
what a tick runs, the PC, the pin ranges, the side-set, and progress in weakly fair runs. -/

namespace Sys2Proof.Machine

open Sys2Proof

/-! Pin ranges and the side-set (40_sequencer_cycle.md R112, R117, R118). -/

/-- The place in a range of the pin `i` above its base. -/
theorem place_of_pin (base : Five) {i : Nat} (hi : i < 32) :
    ((base.toNat + i) % 32 + 32 - base.toNat) % 32 = i := by
  have := base.isLt
  omega

/-- The pin at the place that pin `p` has in a range. -/
theorem pin_of_place (base : Five) {p : Nat} (hp : p < 32) :
    (base.toNat + (p + 32 - base.toNat) % 32) % 32 = p := by
  have := base.isLt
  omega

theorem getLsbD_writePinRange_inside (pad : Word) (base : Five) {count i : Nat} (value : Word) (hi : i < count)
    (hcount : count ≤ 32) :
    (writePinRange pad base count value).getLsbD ((base.toNat + i) % 32) = value.getLsbD i := by
  rw [getLsbD_writePinRange pad base count value (Nat.mod_lt _ (by omega)), place_of_pin base (by omega), if_pos hi]

theorem getLsbD_writePinRange_outside (pad : Word) (base : Five) {count p : Nat} (value : Word) (hp : p < 32)
    (hout : ∀ i < count, p ≠ (base.toNat + i) % 32) :
    (writePinRange pad base count value).getLsbD p = pad.getLsbD p := by
  rw [getLsbD_writePinRange pad base count value hp, if_neg]
  exact fun hplace => hout _ hplace (pin_of_place base hp).symm

/-- Settles O11: a pin and its place in the range determine each other modulo 32. -/
theorem pinRanges : Obligations.PinRanges := fun pad base value =>
  ⟨fun _ hcount =>
    ⟨fun _ hi => getLsbD_writePinRange_inside pad base value hi hcount,
      fun _ hp hout => getLsbD_writePinRange_outside pad base value hp hout⟩,
    fun _ hi => getLsbD_rotatePins value base hi⟩

theorem Sm.sidesetCount_lt (m : Sm) : m.sidesetCount < 8 := Nat.mod_lt _ (by decide)

theorem dsSplit_ssBits_le (m : Sm) (ds : Five) : (dsSplit m ds).ssBits ≤ m.sidesetCount := by
  cases hen : m.sideEn with
  | false => rw [(dsSplit_of_not_sideEn hen ds).2.1]
  | true => rw [(dsSplit_of_sideEn hen ds).2.1]; exact Nat.sub_le _ 1

/-- A side-set pin takes its bit of a valid side-set, on the pad register the side-set writes. -/
theorem getLsbD_sideSetPins (m : Sm) (ds : Five) (pad : Word) {j : Nat} (hj : j < (dsSplit m ds).ssBits) :
    (writePinRange pad m.sidesetBase (dsSplit m ds).ssBits (dsSplit m ds).ssValue).getLsbD
      ((m.sidesetBase.toNat + j) % 32) = (dsSplit m ds).ssValue.getLsbD j := by
  have hbits := dsSplit_ssBits_le m ds
  have hcount := m.sidesetCount_lt
  exact getLsbD_writePinRange_inside pad m.sidesetBase _ hj (by omega)

theorem sideSetOut_of_valid {m : Sm} {ds : Five} (hvalid : (dsSplit m ds).ssValid = true) (hdir : m.sidePindir = false)
    (pad : Word) :
    sideSetOut m ds pad = writePinRange pad m.sidesetBase (dsSplit m ds).ssBits (dsSplit m ds).ssValue := by
  rw [sideSetOut, hvalid, hdir]
  rfl

theorem sideSetOe_of_valid {m : Sm} {ds : Five} (hvalid : (dsSplit m ds).ssValid = true) (hdir : m.sidePindir = true)
    (pad : Word) :
    sideSetOe m ds pad = writePinRange pad m.sidesetBase (dsSplit m ds).ssBits (dsSplit m ds).ssValue := by
  rw [sideSetOe, hvalid, hdir]
  rfl

theorem State.takeFault_faultRec_ne_none (s : State) (word : Option InstrWord) :
    (s.takeFault word).me.faultRec ≠ none := by
  simp [State.takeFault]

/-- A tick that does not fault ends with the side-set on top of whatever the instruction wrote (40_sequencer_cycle.md
R112). -/
theorem exec_padsAre {i : Instr} {s t : State} (h : exec i s = .next t) (hfault : t.me.faultRec = none) :
    ∃ out oe, PadsAre i.ds s t out oe := by
  rw [exec_eq_finishTick] at h
  obtain ⟨s', j, e, _, rfl⟩ | ⟨s', _, rfl⟩ | ⟨_, rfl⟩ := finishTick_next_cases h
  · exact ⟨s'.padOut, s'.padOe, rfl, rfl⟩
  · exact ⟨s'.padOut, s'.padOe, rfl, rfl⟩
  · exact absurd hfault (s.takeFault_faultRec_ne_none _)

/-- Settles O31: a tick that does not fault applies the side-set last, on the pad that SIDE_PINDIR selects. -/
theorem sideSetWins : Obligations.SideSetWins := by
  intro i s t h hfault hvalid j hj
  obtain ⟨out, oe, hout, hoe⟩ := exec_padsAre h hfault
  refine ⟨fun hdir => ?levels, fun hdir => ?enables⟩
  case levels => rw [hout, sideSetOut_of_valid hvalid hdir, getLsbD_sideSetPins s.me i.ds out hj]
  case enables => rw [hoe, sideSetOe_of_valid hvalid hdir, getLsbD_sideSetPins s.me i.ds oe hj]

/-! The next PC and the wrap range (40_sequencer_cycle.md R115, R116). -/

theorem Sm.nextPc_fetched {m : Sm} (h : m.pending = none) : m.nextPc none = m.seqPc := by
  simp [Sm.nextPc, h]

theorem Sm.nextPc_injected {m : Sm} (h : m.pending ≠ none) : m.nextPc none = m.pc := by
  simp [Sm.nextPc, h]

theorem Sm.seqPc_at_top {m : Sm} (h : m.pc = m.wrapTop) : m.seqPc = m.wrapBottom := if_pos h

theorem Sm.toNat_seqPc_off_top {m : Sm} (h : m.pc ≠ m.wrapTop) : m.seqPc.toNat = (m.pc.toNat + 1) % 32 := by
  rw [Sm.seqPc, if_neg h, BitVec.toNat_add]
  rfl

/-- Settles O10: the jump, the slot after a fetched instruction, and the PC an injected one keeps. -/
theorem nextPc : Obligations.NextPc := by
  refine fun m => ⟨fun _ => rfl, fun h => ⟨fun htop => ?wraps, fun htop => ?advances⟩, Sm.nextPc_injected⟩
  case wraps => rw [Sm.nextPc_fetched h, Sm.seqPc_at_top htop]
  case advances => rw [Sm.nextPc_fetched h, Sm.toNat_seqPc_off_top htop]

/-- A tick leaves the PC (a stall, a fault) or moves it to the next PC of a jump its instruction may answer with. -/
theorem exec_pc_cases {i : Instr} {s t : State} (h : exec i s = .next t) :
    t.me.pc = s.me.pc ∨ ∃ j, MayJump i j ∧ t.me.pc = s.me.nextPc j := by
  obtain ⟨r, hexec, heffect, hjump⟩ := exec_effect i s
  rw [hexec] at h
  obtain ⟨s', j, e, rfl, rfl⟩ | ⟨s', rfl, rfl⟩ | ⟨rfl, rfl⟩ := finishTick_next_cases h
  case inl =>
    refine .inr ⟨j, hjump, ?_⟩
    rw [State.sideSet_me, State.me_setMe]
    rfl
  case inr.inl =>
    refine .inl ?_
    rw [State.sideSet_me, State.me_setMe]
    exact heffect.me.pc
  case inr.inr => exact .inl (by rw [State.takeFault, State.me_setMe])

/-- An instruction whose targets lie in the wrap range jumps into it, if it jumps. -/
theorem TargetsInRange.of_mayJump {m : Sm} {i : Instr} {addr : Five} (h : TargetsInRange m i)
    (hjump : MayJump i (some addr)) : InWrapRange m addr := by
  cases i with
  | jmpAlways | jmpNotX | jmpXDec | jmpNotY | jmpYDec | jmpXNeY | jmpPin | jmpNotOsre =>
    obtain hnone | hsome := hjump
    · cases hnone
    · cases hsome
      exact h
  | outPc | movPc => exact h.elim
  | _ => cases hjump

/-- The next slot in program order stays in the wrap range (40_sequencer_cycle.md R116). -/
theorem InWrapRange.seqPc {m : Sm} (h : InWrapRange m m.pc) : InWrapRange m m.seqPc := by
  obtain ⟨hbottom, htop⟩ := h
  by_cases hpc : m.pc = m.wrapTop
  · rw [Sm.seqPc_at_top hpc]
    exact ⟨Nat.le_refl _, hbottom.trans htop⟩
  · have hne : m.pc.toNat ≠ m.wrapTop.toNat := fun heq => hpc (BitVec.eq_of_toNat_eq heq)
    have hlt := m.wrapTop.isLt
    rw [InWrapRange, Sm.toNat_seqPc_off_top hpc]
    omega

theorem InWrapRange.of_sameConfig {m m' : Sm} {pc : Five} (h : InWrapRange m pc) (hconfig : SameConfig m m') :
    InWrapRange m' pc := by
  obtain ⟨_, hexecctrl, _, _⟩ := hconfig
  rwa [InWrapRange, Sm.wrapBottom, Sm.wrapTop, hexecctrl]

/-- Settles O33: the PC is kept, is a jump target in the range, or is the next slot in it. -/
theorem wrapRange : Obligations.WrapRange := by
  intro i s t h hpending _ hpc htargets
  have hrange : InWrapRange s.me t.me.pc := by
    obtain hkept | ⟨j, hjump, hnext⟩ := exec_pc_cases h
    · rwa [hkept]
    · rw [hnext]
      cases j with
      | none => rw [Sm.nextPc_fetched hpending]; exact hpc.seqPc
      | some addr => exact htargets.of_mayJump hjump
  exact hrange.of_sameConfig (instructionFrame i s t h).2

/-! What a tick runs (40_sequencer_cycle.md R105, R108, R109). -/

theorem execWord_ok {w : InstrWord} {i : Instr} (h : decode w = .ok i) (s : State) : execWord w s = exec i s := by
  rw [execWord, h]

/-- An unwritten slot, with nothing pending, is no word (40_sequencer_cycle.md R109). -/
theorem State.selectWord_activate_unwritten {s : State} {k : SmId} (hpending : (s.sm k).pending = none)
    (hslot : (s.imem.get (s.sm k).pc.toFin).written = false) : (s.activate k).selectWord = none := by
  simp only [State.selectWord, State.me_activate, hpending]
  exact readCell_eq_none.2 hslot

/-- Settles O7: the tick executes the word it selects, and takes the fault where the slot is unwritten. -/
theorem stepRunsDecoded : Obligations.StepRunsDecoded := by
  refine fun s k hticks => ⟨fun w i hw hi => (step_selects hticks hw).trans (execWord_ok hi _),
    fun hpending hslot => ?_⟩
  obtain ⟨hevent, henabled, hadmitted, hdelay⟩ := hticks
  rw [step_tick hevent henabled]
  exact tickActive_unwritten hadmitted hdelay (State.selectWord_activate_unwritten (s := s.consume) hpending hslot)

/-- A tick of an admitted configuration with a delay left is a delay tick. -/
theorem tickActive_delay {s : State} (hadmitted : s.me.admitted = true) (hdelay : 0 < s.me.delayCount) :
    tickActive s = .next (delayTick s) := by
  simp [tickActive, hadmitted, hdelay]

/-- Settles O8: the step is the delay tick of the state machine it makes the executing one. -/
theorem delayTickStep : Obligations.DelayTick := fun _ _ hevent henabled hadmitted hdelay =>
  (step_tick hevent henabled).trans (tickActive_delay hadmitted hdelay)

/-! The read of EXEC_STALLED (40_sequencer_cycle.md R111). -/

theorem Sm.execStalled_iff (m : Sm) : m.execStalled = true ↔ ∃ w, m.pending = some (w, .host) := by
  rw [Sm.execStalled]
  cases m.pending with
  | none => simp
  | some injection =>
    obtain ⟨w, kind⟩ := injection
    cases kind <;> simp

/-- Settles O42: bit 31 of the value read is `Sm.execStalled`, and the register has no read effect. -/
theorem execStalledRead : Obligations.ExecStalledRead := by
  refine fun s a n hw => ⟨_, State.busRead_seqAddr_pure hw a rfl, ?_⟩
  rw [State.seqValue, BitVec.getLsbD_append, if_neg (by decide), ← Sm.execStalled_iff]
  simp

/-! Enabled steps and deadlock (40_sequencer_cycle.md R104; 60_exceptions.md R160; 00_scope.md R12, R13). -/

theorem State.smEnabled_iff (s : State) (k : SmId) : s.smEnabled k = true ↔
    (s.sm k).faultRec = none ∧
      (s.smEnable.getLsbD k.val = true ∨ ((s.sm k).pending ≠ none ∧ (s.sm k).delayCount = 0)) := by
  simp only [State.smEnabled, Bool.and_eq_true, Bool.or_eq_true, Option.isNone_iff_eq_none,
    Option.isSome_iff_ne_none, decide_eq_true_eq]

/-- A step of a state machine or a channel leads from a deadlock to a deadlock. -/
theorem State.Deadlock.stepOn {s t : State} {e : Event} (h : s.Deadlock)
    (he : (∃ k, e = .tick k) ∨ (∃ c, e = .channel c)) (ht : s.stepOn e = .next t) : t.Deadlock :=
  fun u hu => h u (.step he ht hu)

/-- What a step of a deadlock keeps: every state machine but for its edge history and the latch of an `irq wait`, the
instruction memory, the channels and the memory. -/
structure StalledFrame (s t : State) : Prop where
  sms : ∀ k, t.sm k = { s.sm k with edgePrev := (t.sm k).edgePrev, irqWaiting := (t.sm k).irqWaiting }
  imem : t.imem = s.imem
  channels : t.channels = s.channels
  mem : ∀ a, t.mem.byteAt a = s.mem.byteAt a

/-- A stutter keeps all of it. -/
theorem StalledFrame.stutter (s : State) : StalledFrame s { s with agenda := [], now := s.now + 1 } :=
  ⟨fun _ => rfl, rfl, rfl, fun _ => rfl⟩

/-- A tick that stalls keeps all of it. -/
theorem State.Stalls.stalledFrame {s : State} {k : SmId} (h : s.Stalls k) :
    ∃ t, s.stepOn (.tick k) = .next t ∧ StalledFrame s t := by
  obtain ⟨t, hstep, hframe, hme⟩ := h.stepOn
  refine ⟨t, hstep, fun j => ?_, hframe.imem, hframe.channels, hframe.mem⟩
  by_cases hj : j = k
  · rw [hj]
    exact hme
  · have hother : t.sm j = s.sm j := hframe.others j hj
    rw [hother]

/-- Every step of a state machine or a channel in a deadlock stutters or stalls. -/
theorem State.Deadlock.step_stalledFrame {s : State} {e : Event} (h : s.Deadlock)
    (he : (∃ k, e = .tick k) ∨ (∃ c, e = .channel c)) : ∃ t, s.stepOn e = .next t ∧ StalledFrame s t := by
  obtain ⟨hsms, hchannels⟩ := h s (.refl s)
  obtain ⟨k, rfl⟩ | ⟨c, rfl⟩ := he
  · obtain hoff | hstalls := hsms k
    · exact ⟨_, State.stepOn_tick_off hoff, .stutter s⟩
    · exact hstalls.stalledFrame
  · exact ⟨_, State.stepOn_channel_off (hchannels c), .stutter s⟩

/-! Progress in weakly fair runs (00_scope.md R11). -/

theorem stepper_eq_sm {e : Event} {k : SmId} (h : stepper e = some (.sm k)) : e = .tick k := by
  cases e with
  | tick =>
    cases h
    rfl
  | _ => cases h

theorem stepper_eq_channel {e : Event} {c : Nat} (h : stepper e = some (.channel c)) : e = .channel c := by
  cases e with
  | channel =>
    cases h
    rfl
  | _ => cases h

/-- The first step from `n` on with a property that some step from `n` on has. -/
theorem exists_first_from {P : Nat → Prop} {n : Nat} (h : ∃ m, n ≤ m ∧ P m) :
    ∃ m, n ≤ m ∧ P m ∧ ∀ j, n ≤ j → j < m → ¬P j := by
  classical
  obtain ⟨hle, hp⟩ := Nat.find_spec h
  exact ⟨Nat.find h, hle, hp, fun j hnj hjm hpj => Nat.find_min h hjm ⟨hnj, hpj⟩⟩

section Run
variable {es : Nat → Event} {ss : Nat → State}

/-- Up to the next tick of a state machine its delay does not grow. -/
theorem IsRun.delayCount_le (hrun : IsRun es ss) {k : SmId} {n m : Nat} (hle : n ≤ m)
    (hnone : ∀ j, n ≤ j → j < m → es j ≠ .tick k) : ((ss m).sm k).delayCount ≤ ((ss n).sm k).delayCount := by
  induction m, hle using Nat.le_induction with
  | base => exact Nat.le_refl _
  | succ m hle ih =>
    have hstep := stepOn_delayCount_le (hrun m) (hnone m hle m.lt_succ_self)
    exact hstep.trans (ih fun j hnj hjm => hnone j hnj (Nat.lt_succ_of_lt hjm))

/-- Up to the next step of a channel, or a block reset, the word it holds is kept. -/
theorem IsRun.holdsWord (hrun : IsRun es ss) {c n m : Nat} {v addr : Word} (hle : n ≤ m)
    (hnone : ∀ j, n ≤ j → j < m → ¬(es j = .channel c ∨ es j = .blockReset)) (h : (ss n).HoldsWord c v addr) :
    (ss m).HoldsWord c v addr := by
  induction m, hle using Nat.le_induction with
  | base => exact h
  | succ m hle ih =>
    obtain ⟨hchannel, hreset⟩ := not_or.1 (hnone m hle m.lt_succ_self)
    exact stepOn_holdsWord (hrun m) hchannel hreset (ih fun j hnj hjm => hnone j hnj (Nat.lt_succ_of_lt hjm))

/-- A state machine whose step stays enabled comes to a non-delay tick: each of its ticks shortens its delay, and
nothing else lengthens it. -/
theorem IsRun.exists_nonDelayTick (hrun : IsRun es ss) (hfair : WeaklyFair es ss) {k : SmId} {n : Nat}
    (hen : ∀ m, n ≤ m → (ss m).smEnabled k = true) :
    ∃ m, n ≤ m ∧ es m = .tick k ∧ ((ss m).sm k).delayCount = 0 := by
  induction hd : ((ss n).sm k).delayCount using Nat.strong_induction_on generalizing n with
  | _ d ih =>
    obtain ⟨m, hnm, htick, hfirst⟩ : ∃ m, n ≤ m ∧ es m = .tick k ∧ ∀ j, n ≤ j → j < m → es j ≠ .tick k := by
      obtain ⟨m, hnm, hstepper⟩ := hfair (.sm k) n (by simp) hen
      exact exists_first_from ⟨m, hnm, stepper_eq_sm hstepper⟩
    obtain hzero | hpos := Nat.eq_zero_or_pos ((ss m).sm k).delayCount
    · exact ⟨m, hnm, htick, hzero⟩
    · have hle := hrun.delayCount_le hnm hfirst
      have hlt := stepOn_tick_delay (htick ▸ hrun m) (hen m hnm) hpos
      obtain ⟨m', hm', hlast⟩ := ih _ (hd ▸ hlt.trans_le hle) (fun j hj => hen j (by omega)) rfl
      exact ⟨m', by omega, hlast⟩

/-- A channel that holds a word comes to a step, unless a block reset comes. -/
theorem IsRun.exists_channelStep (hrun : IsRun es ss) (hfair : WeaklyFair es ss) {c n : Nat} {v addr : Word}
    (h : (ss n).HoldsWord c v addr) : ∃ m, n ≤ m ∧ (es m = .channel c ∨ es m = .blockReset) := by
  by_contra hnever
  have hnone : ∀ m, n ≤ m → ¬(es m = .channel c ∨ es m = .blockReset) := fun m hm hstep => hnever ⟨m, hm, hstep⟩
  have hholds : ∀ m, n ≤ m → (ss m).HoldsWord c v addr := fun m hm => hrun.holdsWord hm (fun j hj _ => hnone j hj) h
  obtain ⟨m, hm, hstepper⟩ := hfair (.channel c) n (by simp) fun m hm => (hholds m hm).hasStep
  exact hnone m hm (.inl (stepper_eq_channel hstepper))

end Run

/-- Settles O6: enabledness read off its definition, the stutter or the stall of a deadlock's steps, and progress by the
delay's descent and by the word a channel holds until its own step. -/
theorem enabledStep : Obligations.EnabledStep := by
  refine ⟨fun s k => ⟨s.smEnabled_iff k, step_tick_disabled⟩, fun s e hdead he => ?deadlock,
    fun es ss hrun hfair => ⟨fun k n hen => hrun.exists_nonDelayTick hfair hen, fun c n v addr hholds => ?held⟩⟩
  case deadlock =>
    obtain ⟨t, hstep, hframe⟩ := hdead.step_stalledFrame he
    exact ⟨t, hstep, hdead.stepOn he hstep, hframe.sms, hframe.imem, hframe.channels, hframe.mem⟩
  case held =>
    obtain ⟨m, hnm, hstep, hfirst⟩ := exists_first_from (hrun.exists_channelStep hfair hholds)
    exact ⟨m, hnm, fun j hnj hjm => hrun.holdsWord hnj (fun i hni hij => hfirst i hni (by omega)) hholds, hstep⟩

end Sys2Proof.Machine
end

section
/-! SUPPORT. The statements about JMP and WAIT (spec/41_flow.md R121 to R126): how a tick ends by what its rule answers,
the condition each instruction decides on, and the bits it is encoded in. -/

namespace Sys2Proof.Machine

open Sys2Proof

/-! How a tick ends by the answer of its rule (40_sequencer_cycle.md R105, R113, R114). -/

theorem exec_of_ruleOf {i : Instr} {s : State} {r : RuleResult} (hrule : ruleOf i s = r) :
    exec i s = finishTick (encode i) i.ds s r := by
  rw [exec_eq_finishTick, hrule]

/-- A rule whose one effect is on the executing state machine completes with that effect. -/
theorem completes_of_ruleOf_setMe {i : Instr} {s : State} {m : Sm} {jump : Option Five}
    (hrule : ruleOf i s = .complete (s.setMe m) jump none) :
    Completes i s m (s.me.nextPc jump) s.padOut s.padOe :=
  completes_of_complete (exec_of_ruleOf hrule) ((TickFrame.refl s).setMe m) (s.me_setMe m) rfl rfl rfl ⟨rfl, rfl, rfl⟩

/-- A rule with no effect of its own completes with none. -/
theorem completes_of_ruleOf_done {i : Instr} {s : State} (hrule : ruleOf i s = done s) :
    Completes i s s.me (s.me.nextPc none) s.padOut s.padOe :=
  completes_of_ruleOf_setMe (by rw [s.setMe_me_self]; exact hrule)

/-- A rule that stalls with no effect of its own. -/
theorem stalls_of_ruleOf {i : Instr} {s : State} (hrule : ruleOf i s = .stall s) : Stalls i s s.me :=
  ⟨_, stallsIn_of_stall (exec_of_ruleOf hrule) (TickFrame.refl s) rfl rfl rfl, rfl, rfl, rfl⟩

theorem takesUnwrittenFault_of_ruleOf {i : Instr} {s : State} (hrule : ruleOf i s = .unwritten) :
    TakesUnwrittenFault i s :=
  exec_of_ruleOf hrule

theorem exec_of_ruleOf_refuse {i : Instr} {s : State} {r : Refusal} (hrule : ruleOf i s = .refuse r) :
    exec i s = .refused r :=
  exec_of_ruleOf hrule

/-! JMP (41_flow.md R121, R122). -/

/-- A JMP whose rule decides `cond` on the state with `m` in place does what R122 says of it. -/
theorem jumpsWhen_of_jmpRule {i : Instr} {addr : Five} {s : State} {m : Sm} {cond : Option Bool}
    (hrule : ruleOf i s = jmpRule addr (s.setMe m) cond) : JumpsWhen i addr s m cond := by
  refine ⟨fun hnone => ?unwritten, fun htaken => ?taken, fun hfalls => ?falls⟩
  case unwritten =>
    subst hnone
    exact takesUnwrittenFault_of_ruleOf hrule
  case taken =>
    subst htaken
    exact completes_of_ruleOf_setMe hrule
  case falls =>
    subst hfalls
    exact completes_of_ruleOf_setMe hrule

/-- A JMP that changes no register. -/
theorem jumpsWhen_of_jmpRule_self {i : Instr} {addr : Five} {s : State} {cond : Option Bool}
    (hrule : ruleOf i s = jmpRule addr s cond) : JumpsWhen i addr s s.me cond :=
  jumpsWhen_of_jmpRule (by rw [s.setMe_me_self]; exact hrule)

/-- The JMP pin condition reads bit JMP_PIN of the sample. -/
theorem ruleJmpPin_eq (addr : Five) (s : State) :
    ruleJmpPin addr s = jmpRule addr s (some (s.pinSample.getLsbD s.me.jmpPin.toNat)) := by
  rw [ruleJmpPin, getLsbD_pinSample s s.me.jmpPin.isLt]

/-- Settles O13: every condition is decided by `jmpRule`, on the state as it is or, for `x--` and `y--`, with the
register counted down. -/
theorem jmpRuleHolds : Obligations.JmpRule := by
  intro ds addr s
  refine ⟨?always, ?notX, ?xDec, ?notY, ?yDec, ?xNeY, ?pin, ?notOsre, rfl, rfl, rfl, rfl, rfl, rfl, rfl, rfl⟩
  case xDec => exact jumpsWhen_of_jmpRule rfl
  case yDec => exact jumpsWhen_of_jmpRule rfl
  case pin => exact jumpsWhen_of_jmpRule_self (ruleJmpPin_eq addr s)
  case always | notX | notY | xNeY | notOsre => exact jumpsWhen_of_jmpRule_self rfl

/-! WAIT on a level or an edge of a pin (41_flow.md R123, R124, R126). -/

/-- A WAIT whose rule tests `level` waits for the condition that `level` decides. -/
theorem waitsFor_of_waitRule {i : Instr} {s : State} {level : Bool} {cond : Prop}
    (hrule : ruleOf i s = waitRule s level) (hlevel : level = true ↔ cond) : WaitsFor i s cond := by
  rcases waitRule_cases s level with ⟨htrue, hdone⟩ | ⟨hfalse, hstall⟩
  · exact ⟨fun _ => completes_of_ruleOf_done (hrule.trans hdone), fun hnot => absurd (hlevel.1 htrue) hnot⟩
  · have hnot : ¬cond := by rw [← hlevel, hfalse]; decide
    exact ⟨fun hcond => absurd hcond hnot, fun _ => stalls_of_ruleOf (hrule.trans hstall)⟩

/-- Settles O14: both instructions test one bit of the sample, at the index or at its place above IN_BASE. -/
theorem waitLevelRule : Obligations.WaitLevelRule := by
  intro ds index pol s
  refine ⟨waitsFor_of_waitRule rfl ?gpio, waitsFor_of_waitRule rfl ?pin, rfl, rfl⟩
  case gpio => rw [getLsbD_pinSample s index.isLt, decide_eq_true_iff]
  case pin => rw [getLsbD_pinSample s (Nat.mod_lt _ (by decide)), decide_eq_true_iff, pinAdd]

theorem fellEdge_eq_true_iff (prev : Option Word) (p : Nat) (now : Bool) :
    fellEdge prev p now = true ↔ ∃ w, prev = some w ∧ w.getLsbD p = true ∧ now = false := by
  cases prev <;> simp [fellEdge]

theorem roseEdge_eq_true_iff (prev : Option Word) (p : Nat) (now : Bool) :
    roseEdge prev p now = true ↔ ∃ w, prev = some w ∧ w.getLsbD p = false ∧ now = true := by
  cases prev <;> simp [roseEdge]

/-- Settles O16: the rule tests the edge detector on the sample's bit at the index. -/
theorem waitEdgeRule : Obligations.WaitEdgeRule := by
  intro ds index s
  rw [getLsbD_pinSample s index.isLt]
  exact ⟨waitsFor_of_waitRule rfl (fellEdge_eq_true_iff _ _ _), waitsFor_of_waitRule rfl (roseEdge_eq_true_iff _ _ _),
    fun _ => rfl⟩

/-! WAIT IRQ (41_flow.md R125). -/

theorem ruleWaitIrq_reserved {index : Five} {s : State} (pol : Bool) (hindex : irqIndex index s.active = none) :
    ruleWaitIrq pol index s = .refuse (.reservedEncoding (.sm s.active)) := by
  simp [ruleWaitIrq, hindex]

theorem ruleWaitIrq_at_level {index : Five} {s : State} {f : BitVec 3} {pol : Bool}
    (hindex : irqIndex index s.active = some f) (hlevel : s.irqFlag f = pol) :
    ruleWaitIrq pol index s = done (if pol then s.clearIrq f else s) := by
  simp [ruleWaitIrq, hindex, hlevel]

theorem ruleWaitIrq_off_level {index : Five} {s : State} {f : BitVec 3} {pol : Bool}
    (hindex : irqIndex index s.active = some f) (hlevel : s.irqFlag f ≠ pol) :
    ruleWaitIrq pol index s = .stall s := by
  simp [ruleWaitIrq, hindex, hlevel]

/-- Settles O15: a reserved index is refused, a flag at the level completes with its clear for a wait for 1 and with no
effect for a wait for 0, and a flag off the level stalls. -/
theorem waitIrqRule : Obligations.WaitIrqRule := by
  intro ds index pol s
  refine ⟨rfl, fun hnone => exec_of_ruleOf_refuse (ruleWaitIrq_reserved pol hnone), fun f hindex =>
    ⟨fun hlevel => ?completes, fun hlevel => stalls_of_ruleOf (ruleWaitIrq_off_level hindex hlevel)⟩⟩
  have hrule := ruleWaitIrq_at_level hindex hlevel
  cases pol with
  | true =>
    have hframe : TickFrame s (s.clearIrq f) := (TickFrame.refl s).clearIrq f
    exact ⟨_, completesIn_of_complete (exec_of_ruleOf hrule) hframe rfl rfl rfl rfl,
      fun _ => lowered_clearBit s.irq f.toNat, fun hpol => absurd hpol (by decide), rfl, rfl⟩
  | false =>
    obtain ⟨t, hcompletes, hirq, hrxStall, htxStall⟩ :=
      completes_of_ruleOf_done (i := .waitIrq ds false index) hrule
    exact ⟨t, hcompletes, fun hpol => absurd hpol (by decide), fun _ => hirq, hrxStall, htxStall⟩

end Sys2Proof.Machine
end

section
/-! SUPPORT. The statements about IN, OUT, PUSH and PULL (spec/42_shift.md R128 to R135): the bits of a shift, what each
rule answers in each of its cases, and the end of the tick for that answer. -/

namespace Sys2Proof.Machine

open Sys2Proof

/-! The bits of a shift (42_shift.md R128, R129). -/

theorem getLsbD_and_maskBits (v : Word) (n : Nat) {j : Nat} (hj : j < 32) :
    (v &&& maskBits n).getLsbD j = (decide (j < n) && v.getLsbD j) := by
  rw [BitVec.getLsbD_and, getLsbD_maskBits, decide_eq_true hj, Bool.true_and, Bool.and_comm]

/-- 32 new bits are the whole ISR, from either end. -/
theorem shiftInValue_full (right : Bool) (isr d : Word) : shiftInValue right isr 32 d = d := by
  refine BitVec.eq_of_getLsbD_eq fun j hj => ?_
  rw [shiftInValue, if_pos rfl, getLsbD_and_maskBits d 32 hj, decide_eq_true hj, Bool.true_and]

/-- A right shift of the ISR puts the new bits on top. -/
theorem getLsbD_shiftInValue_right (isr d : Word) {n j : Nat} (hn : n ≤ 32) (hj : j < 32) :
    (shiftInValue true isr n d).getLsbD j = if j < 32 - n then isr.getLsbD (j + n) else d.getLsbD (j - (32 - n)) := by
  by_cases hfull : n = 32
  · subst hfull
    rw [shiftInValue_full, if_neg (by omega), Nat.sub_self, Nat.sub_zero]
  · rw [shiftInValue, if_neg hfull, if_pos rfl, BitVec.getLsbD_or, BitVec.getLsbD_ushiftRight, BitVec.getLsbD_shiftLeft,
      getLsbD_and_maskBits d n (by omega), Nat.add_comm n j]
    by_cases hlow : j < 32 - n
    · simp [hlow]
    · have hold : 32 ≤ j + n := by omega
      have hnew : j - (32 - n) < n := by omega
      simp [hlow, hj, hnew, BitVec.getLsbD_of_ge isr _ hold]

/-- A left shift of the ISR puts the new bits at the bottom. -/
theorem getLsbD_shiftInValue_left (isr d : Word) (n : Nat) {j : Nat} (hj : j < 32) :
    (shiftInValue false isr n d).getLsbD j = if j < n then d.getLsbD j else isr.getLsbD (j - n) := by
  by_cases hfull : n = 32
  · subst hfull
    rw [shiftInValue_full, if_pos hj]
  · rw [shiftInValue, if_neg hfull, if_neg Bool.false_ne_true, BitVec.getLsbD_or, BitVec.getLsbD_shiftLeft,
      getLsbD_and_maskBits d n hj]
    by_cases hnew : j < n <;> simp [hnew, hj]

/-- A right shift of the OSR takes its low bits. -/
theorem getLsbD_shiftOutData_right (osr : Word) (n : Nat) {j : Nat} (hj : j < 32) :
    (shiftOutData true osr n).getLsbD j = (decide (j < n) && osr.getLsbD j) :=
  getLsbD_and_maskBits osr n hj

/-- A left shift of the OSR takes its high bits. -/
theorem getLsbD_shiftOutData_left (osr : Word) (n : Nat) {j : Nat} (hj : j < 32) :
    (shiftOutData false osr n).getLsbD j = (decide (j < n) && osr.getLsbD (32 - n + j)) := by
  rw [shiftOutData, if_neg Bool.false_ne_true, getLsbD_and_maskBits _ n hj, BitVec.getLsbD_ushiftRight]

/-- After a right shift the OSR keeps its high bits, at the bottom. -/
theorem getLsbD_shiftOutRest_right (osr : Word) (n j : Nat) :
    (shiftOutRest true osr n).getLsbD j = (decide (j + n < 32) && osr.getLsbD (j + n)) := by
  by_cases hfull : n = 32
  · simp [shiftOutRest, hfull]
  · rw [shiftOutRest, if_neg hfull, if_pos rfl, BitVec.getLsbD_ushiftRight, Nat.add_comm n j]
    by_cases hin : j + n < 32
    · simp [hin]
    · simp [hin, BitVec.getLsbD_of_ge osr (j + n) (by omega)]

/-- After a left shift the OSR keeps its low bits, on top. -/
theorem getLsbD_shiftOutRest_left (osr : Word) (n : Nat) {j : Nat} (hj : j < 32) :
    (shiftOutRest false osr n).getLsbD j = (decide (n ≤ j) && osr.getLsbD (j - n)) := by
  by_cases hfull : n = 32
  · simp [shiftOutRest, hfull, hj]
  · rw [shiftOutRest, if_neg hfull, if_neg Bool.false_ne_true, BitVec.getLsbD_shiftLeft]
    by_cases hkept : j < n
    · simp [hkept]
    · simp [hj, hkept, Nat.le_of_not_lt hkept]

/-- Settles O17, one lemma for each register and direction. -/
theorem shiftBits : Obligations.ShiftBits := fun isr osr d n _ hn j hj =>
  ⟨getLsbD_shiftInValue_right isr d hn hj, getLsbD_shiftInValue_left isr d n hj,
    getLsbD_shiftOutData_right osr n hj, getLsbD_shiftOutData_left osr n hj,
    getLsbD_shiftOutRest_right osr n j, getLsbD_shiftOutRest_left osr n hj⟩

/-! The stalls on a FIFO, and the reserved words (10_state.md R20, R27; 30_encoding.md R99). -/

theorem Sm.rxFull_iff (m : Sm) : m.rxFull = true ↔ m.rx.length = m.rxCap := decide_eq_true_iff

theorem Sm.rxFull_eq_false_iff (m : Sm) : m.rxFull = false ↔ m.rx.length ≠ m.rxCap := decide_eq_false_iff_not

theorem stallsOnRx_of_ruleOf {i : Instr} {s : State} (hrule : ruleOf i s = .stall s.setRxStall) : StallsOnRx i s :=
  ⟨_, stallsIn_of_stall (exec_of_ruleOf hrule) (TickFrame.refl s).setRxStall rfl rfl rfl, rfl, rfl,
    raised_setBit s.rxStall s.active.isLt⟩

theorem stallsOnTx_of_ruleOf {i : Instr} {s : State} (hrule : ruleOf i s = .stall s.setTxStall) : StallsOnTx i s :=
  ⟨_, stallsIn_of_stall (exec_of_ruleOf hrule) (TickFrame.refl s).setTxStall rfl rfl rfl, rfl, rfl,
    raised_setBit s.txStall s.active.isLt⟩

theorem refusesWord_of_reservedFields {op hi : BitVec 3} {lo : Five} (h : ReservedFields op hi lo) (ds : Five)
    (s : State) : RefusesWord op ds hi lo s :=
  execWord_reserved ((reserved_packWord_iff op ds hi lo).2 h) s

/-- IN with source 100 or 101 is reserved (30_encoding.md R92). -/
theorem reservedFields_in {hi : BitVec 3} (h : hi.toNat = 4 ∨ hi.toNat = 5) (lo : Five) :
    ReservedFields 0b010#3 hi lo := h

/-- PUSH and PULL with a bit of 4:0 set are reserved (30_encoding.md R94). -/
theorem reservedFields_pushPull (hi : BitVec 3) {lo : Five} (hlo : lo ≠ 0) : ReservedFields 0b100#3 hi lo :=
  fun hzero => hlo (BitVec.eq_of_toNat_eq hzero)

/-! IN (42_shift.md R131). -/

/-- An IN whose rule shifts in `src` does what R131 says of it. -/
theorem shiftsIn_of_inRule {i : Instr} {count : Five} {s : State} {src : Option Word}
    (hrule : ruleOf i s = inRule count s src) : ShiftsIn i count s src := by
  rcases inRule_cases count s src with
    ⟨rfl, hin⟩ | ⟨v, rfl, hauto, hthresh, hfull, hin⟩ | ⟨v, rfl, hauto, hthresh, hroom, hin⟩ | ⟨v, rfl, hnot, hin⟩
  case inl => exact ⟨fun _ => takesUnwrittenFault_of_ruleOf (hrule.trans hin), nofun⟩
  all_goals
    refine ⟨nofun, fun w hw => ?_⟩
    obtain rfl := Option.some.inj hw
    rw [hin] at hrule
  case inr.inl =>
    have hdue : AutopushDue s.me count := ⟨hauto, hthresh⟩
    exact ⟨fun hnot => absurd hdue hnot, fun _ hroom => absurd (s.me.rxFull_iff.1 hfull) hroom,
      fun _ _ => stallsOnRx_of_ruleOf hrule⟩
  case inr.inr.inl =>
    have hdue : AutopushDue s.me count := ⟨hauto, hthresh⟩
    exact ⟨fun hnot => absurd hdue hnot, fun _ _ => completes_of_ruleOf_setMe hrule,
      fun _ hfull => absurd hfull (s.me.rxFull_eq_false_iff.1 hroom)⟩
  case inr.inr.inr =>
    exact ⟨fun _ => completes_of_ruleOf_setMe hrule, fun hdue => absurd hdue hnot, fun hdue => absurd hdue hnot⟩

/-- Settles O18: the rule of each source is `inRule` of the value it reads. -/
theorem inRuleHolds : Obligations.InRule := by
  intro ds count s
  refine ⟨?pins, ?x, ?y, ?null, ?isr, ?osr, rfl, rfl, rfl, rfl, rfl, rfl, ?reserved4, ?reserved5⟩
  case pins | x | y | null | isr | osr => exact shiftsIn_of_inRule rfl
  case reserved4 => exact refusesWord_of_reservedFields (reservedFields_in (.inl rfl) count) ds s
  case reserved5 => exact refusesWord_of_reservedFields (reservedFields_in (.inr rfl) count) ds s

/-! OUT (42_shift.md R132, R133). -/

theorem Sm.autopullDue_iff (m : Sm) : (m.autopull && decide (m.pullThresh ≤ m.osrCount)) = true ↔ AutopullDue m := by
  simp [AutopullDue]

theorem outSupply_of_takes {m : Sm} {osr : Word} {cnt : Nat} {tx : List Word} (h : OutTakes m osr cnt tx) :
    m.outSupply = .ready osr cnt tx := by
  obtain ⟨hdue, htx, rfl⟩ | ⟨hnot, hosr, rfl, rfl⟩ := h
  · rw [Sm.outSupply, if_pos (m.autopullDue_iff.2 hdue), htx]
  · rw [Sm.outSupply, if_neg (mt m.autopullDue_iff.1 hnot), readCell_eq_some.2 hosr]

theorem outSupply_starved {m : Sm} (hdue : AutopullDue m) (htx : m.tx = []) : m.outSupply = .starved := by
  rw [Sm.outSupply, if_pos (m.autopullDue_iff.2 hdue), htx]

theorem outSupply_unwritten {m : Sm} (hnot : ¬AutopullDue m) (hosr : m.osr.written = false) :
    m.outSupply = .unwritten := by
  rw [Sm.outSupply, if_neg (mt m.autopullDue_iff.1 hnot), readCell_eq_none.2 hosr]

theorem State.setMe_setMe (s : State) (m m' : Sm) : (s.setMe m).setMe m' = s.setMe m' := by
  simp [State.setMe, State.setSm]

section Out
variable {count : Five} {s : State} {osr : Word} {cnt : Nat} {tx : List Word} (htakes : OutTakes s.me osr cnt tx)
include htakes

/-- An OUT that takes its bits hands them to its destination. -/
theorem outRule_of_takes (dest : State → Word → Nat → RuleResult) :
    outRule count s dest =
      dest (s.setMe (s.me.shiftedOut count osr cnt tx)) (shiftOutData s.me.outShiftRight osr (bitCount count))
        (bitCount count) := by
  rw [outRule, outSupply_of_takes htakes]
  rfl

/-- An OUT to a register of the state machine. -/
theorem outRule_toRegister (update : Sm → Word → Nat → Sm) :
    (outRule count s fun s' data n => done (s'.setMe (update s'.me data n))) =
      done (s.setMe (update (s.me.shiftedOut count osr cnt tx) (shiftOutData s.me.outShiftRight osr (bitCount count))
        (bitCount count))) := by
  rw [outRule_of_takes htakes, State.me_setMe, State.setMe_setMe]

/-- The pin range of an OUT is that of the state machine before the shift. -/
theorem outRule_toPins :
    (outRule count s fun s' data _ => done (s'.outPinsWrite data)) =
      done { s.setMe (s.me.shiftedOut count osr cnt tx) with
        padOut := writePinRange s.padOut s.me.outBase s.me.outCount
          (shiftOutData s.me.outShiftRight osr (bitCount count)) } := by
  rw [outRule_of_takes htakes, State.outPinsWrite, State.me_setMe]
  rfl

theorem outRule_toPindirs :
    (outRule count s fun s' data _ => done (s'.outPindirsWrite data)) =
      done { s.setMe (s.me.shiftedOut count osr cnt tx) with
        padOe := writePinRange s.padOe s.me.outBase s.me.outCount
          (shiftOutData s.me.outShiftRight osr (bitCount count)) } := by
  rw [outRule_of_takes htakes, State.outPindirsWrite, State.me_setMe]
  rfl

end Out

/-- An OUT that autopull finds no word for stalls, and one that nothing supplies faults, whatever the destination. -/
theorem stalls_or_faults_of_outRule {i : Instr} {count : Five} {s : State} {dest : State → Word → Nat → RuleResult}
    (hrule : ruleOf i s = outRule count s dest) :
    (AutopullDue s.me → s.me.tx = [] → StallsOnTx i s) ∧
    (¬AutopullDue s.me → s.me.osr.written = false → TakesUnwrittenFault i s) := by
  refine ⟨fun hdue htx => stallsOnTx_of_ruleOf ?_, fun hnot hosr => takesUnwrittenFault_of_ruleOf ?_⟩
  · rw [hrule, outRule, outSupply_starved hdue htx]
  · rw [hrule, outRule, outSupply_unwritten hnot hosr]

/-- Settles O19: the rule of each destination is `outRule`, and what it does with the bits is the destination's own. -/
theorem outRuleHolds : Obligations.OutRule := by
  intro ds count s
  refine ⟨fun osr cnt tx htakes => ⟨?pins, ?x, ?y, ?null, ?pindirs, ?pc, ?isr, ?exec⟩, ?unsupplied,
    rfl, rfl, rfl, rfl, rfl, rfl, rfl, rfl⟩
  case x => exact completes_of_ruleOf_setMe (outRule_toRegister htakes fun m data _ => { m with x := .of data })
  case y => exact completes_of_ruleOf_setMe (outRule_toRegister htakes fun m data _ => { m with y := .of data })
  case isr =>
    exact completes_of_ruleOf_setMe (outRule_toRegister htakes fun m data n => { m with isr := data, isrCount := n })
  case null => exact completes_of_ruleOf_setMe (outRule_of_takes htakes fun s' _ _ => done s')
  case pc =>
    have hrule := outRule_of_takes (count := count) htakes fun s' data _ =>
      .complete s' (some (data.extractLsb' 0 5)) none
    exact completes_of_ruleOf_setMe (i := .outPc ds count) hrule
  case pins =>
    exact completes_of_complete (exec_of_ruleOf (outRule_toPins htakes)) (((TickFrame.refl s).setMe _).padOut _)
      (s.me_setMe _) rfl rfl rfl ⟨rfl, rfl, rfl⟩
  case pindirs =>
    exact completes_of_complete (exec_of_ruleOf (outRule_toPindirs htakes)) (((TickFrame.refl s).setMe _).padOe _)
      (s.me_setMe _) rfl rfl rfl ⟨rfl, rfl, rfl⟩
  case exec =>
    have hrule := outRule_of_takes (count := count) htakes fun s' data _ =>
      .complete s' none (some (data.extractLsb' 0 16))
    exact completesInjecting_of_complete (exec_of_ruleOf hrule) ((TickFrame.refl s).setMe _) (s.me_setMe _) rfl rfl rfl
      ⟨rfl, rfl, rfl⟩
  case unsupplied =>
    intro i hi
    obtain ⟨dest, hrule⟩ : ∃ dest, ruleOf i s = outRule count s dest := by
      revert i
      simp only [List.forall_mem_cons, ruleOf, ruleOutPins, ruleOutX, ruleOutY, ruleOutNull, ruleOutPindirs, ruleOutPc,
        ruleOutIsr, ruleOutExec]
      exact ⟨⟨_, rfl⟩, ⟨_, rfl⟩, ⟨_, rfl⟩, ⟨_, rfl⟩, ⟨_, rfl⟩, ⟨_, rfl⟩, ⟨_, rfl⟩, ⟨_, rfl⟩, nofun⟩
    exact stalls_or_faults_of_outRule hrule

/-! PUSH (42_shift.md R134). -/

section Push
variable {iffull : Bool} {s : State}

theorem pushRule_skips (block : Bool) (h : iffull = true ∧ s.me.isrCount < s.me.pushThresh) :
    pushRule iffull block s = done s := by
  rcases pushRule_cases iffull block s with ⟨_, _, hrule⟩ | ⟨hnot, _⟩
  · exact hrule
  · exact absurd h hnot

variable (hnot : ¬(iffull = true ∧ s.me.isrCount < s.me.pushThresh))
include hnot

theorem pushRule_full_block (hfull : s.me.rx.length = s.me.rxCap) :
    pushRule iffull true s = .stall s.setRxStall := by
  simpa [← and_assoc, hnot, s.me.rxFull_iff.2 hfull] using pushRule_cases iffull true s

theorem pushRule_full_noblock_clears (hfull : s.me.rx.length = s.me.rxCap) (hclears : s.params.noblockPushClears = true) :
    pushRule iffull false s = done (s.setMe { s.me with isr := 0, isrCount := 0 }) := by
  simpa [← and_assoc, hnot, s.me.rxFull_iff.2 hfull, hclears] using pushRule_cases iffull false s

theorem pushRule_full_noblock_keeps (hfull : s.me.rx.length = s.me.rxCap) (hkeeps : s.params.noblockPushClears = false) :
    pushRule iffull false s = done s := by
  simpa [← and_assoc, hnot, s.me.rxFull_iff.2 hfull, hkeeps] using pushRule_cases iffull false s

theorem pushRule_pushes (block : Bool) (hroom : s.me.rx.length ≠ s.me.rxCap) :
    pushRule iffull block s = done (s.setMe { s.me with rx := s.me.rx ++ [s.me.isr], isr := 0, isrCount := 0 }) := by
  simpa [← and_assoc, hnot, s.me.rxFull_eq_false_iff.2 hroom] using pushRule_cases iffull block s

end Push

/-- Settles O20, by the branches of R134 in their order. -/
theorem pushRuleHolds : Obligations.PushRule := by
  intro ds iffull block s
  refine ⟨rfl, fun lo hlo => ?reserved, fun hskips => ?skips, fun hnot hfull hblock => ?stalls,
    fun hnot hfull hblock hclears => ?clears, fun hnot hfull hblock hkeeps => ?keeps, fun hnot hroom => ?pushes⟩
  case reserved => exact refusesWord_of_reservedFields (reservedFields_pushPull _ hlo) ds s
  case skips => exact completes_of_ruleOf_done (pushRule_skips block hskips)
  case stalls =>
    subst hblock
    exact stallsOnRx_of_ruleOf (pushRule_full_block hnot hfull)
  case clears =>
    subst hblock
    exact completes_of_ruleOf_setMe (pushRule_full_noblock_clears hnot hfull hclears)
  case keeps =>
    subst hblock
    exact completes_of_ruleOf_done (pushRule_full_noblock_keeps hnot hfull hkeeps)
  case pushes => exact completes_of_ruleOf_setMe (pushRule_pushes hnot block hroom)

/-! PULL (42_shift.md R135). -/

section Pull
variable {ifempty : Bool} {s : State}

theorem pullRule_skips (block : Bool) (h : PullSkips ifempty s.me) : pullRule ifempty block s = done s := by
  rcases pullRule_cases ifempty block s with ⟨_, hrule⟩ | ⟨hnot, _⟩
  · exact hrule
  · exact absurd h hnot

variable (hnot : ¬PullSkips ifempty s.me)
include hnot

theorem pullRule_pulls (block : Bool) {w : Word} {rest : List Word} (htx : s.me.tx = w :: rest) :
    pullRule ifempty block s = done (s.setMe { s.me with tx := rest, osr := .of w, osrCount := 0 }) := by
  simpa [hnot, htx] using pullRule_cases ifempty block s

variable (htx : s.me.tx = [])
include htx

theorem pullRule_empty_block : pullRule ifempty true s = .stall s.setTxStall := by
  simpa [hnot, htx] using pullRule_cases ifempty true s

theorem pullRule_empty_noblock_unwritten (hx : s.me.x.written = false) : pullRule ifempty false s = .unwritten := by
  simpa [hnot, htx, hx] using pullRule_cases ifempty false s

theorem pullRule_empty_noblock_copies {x : Word} (hx : Holds s.me.x x) :
    pullRule ifempty false s = done (s.setMe { s.me with osr := .of x, osrCount := 0 }) := by
  obtain ⟨hwritten, rfl⟩ := hx
  simpa [hnot, htx, hwritten] using pullRule_cases ifempty false s

end Pull

/-- Settles O21, by the branches of R135 in their order. -/
theorem pullRuleHolds : Obligations.PullRule := by
  intro ds ifempty block s
  refine ⟨rfl, fun lo hlo => ?reserved, fun hskips => ?skips, fun hnot htx hblock => ?stalls,
    fun hnot htx hblock hx => ?faults, fun hnot htx hblock x hx => ?copies, fun hnot w rest htx => ?pulls⟩
  case reserved => exact refusesWord_of_reservedFields (reservedFields_pushPull _ hlo) ds s
  case skips => exact completes_of_ruleOf_done (pullRule_skips block hskips)
  case stalls =>
    subst hblock
    exact stallsOnTx_of_ruleOf (pullRule_empty_block hnot htx)
  case faults =>
    subst hblock
    exact takesUnwrittenFault_of_ruleOf (pullRule_empty_noblock_unwritten hnot htx hx)
  case copies =>
    subst hblock
    exact completes_of_ruleOf_setMe (pullRule_empty_noblock_copies hnot htx hx)
  case pulls => exact completes_of_ruleOf_setMe (pullRule_pulls hnot block htx)

end Sys2Proof.Machine
end

section
/-! SUPPORT. The statements about MOV, IRQ and SET (spec/43_mov_irq_set.md R138 to R145): what each rule answers in each
of its cases, the reserved fields of their words, and the end of the tick for each answer. -/

namespace Sys2Proof.Machine

open Sys2Proof

/-! The completions whose one effect is on a pad register (40_sequencer_cycle.md R117). -/

theorem completes_of_ruleOf_padOut {i : Instr} {s : State} {out : Word}
    (hrule : ruleOf i s = done { s with padOut := out }) : Completes i s s.me (s.me.nextPc none) out s.padOe :=
  completes_of_complete (exec_of_ruleOf hrule) ((TickFrame.refl s).padOut out) rfl rfl rfl rfl ⟨rfl, rfl, rfl⟩

theorem completes_of_ruleOf_padOe {i : Instr} {s : State} {oe : Word}
    (hrule : ruleOf i s = done { s with padOe := oe }) : Completes i s s.me (s.me.nextPc none) s.padOut oe :=
  completes_of_complete (exec_of_ruleOf hrule) ((TickFrame.refl s).padOe oe) rfl rfl rfl rfl ⟨rfl, rfl, rfl⟩

/-! SET (43_mov_irq_set.md R145). -/

/-- SET with destination 011, 101, 110 or 111 is reserved (30_encoding.md R97). -/
theorem reservedFields_set (lo : Five) :
    ∀ hi ∈ [0b011#3, 0b101#3, 0b110#3, 0b111#3], ReservedFields 0b111#3 hi lo := by
  simp only [List.forall_mem_cons]
  exact ⟨.inl rfl, .inr (.inl rfl), .inr (.inr (.inl rfl)), .inr (.inr (.inr rfl)), nofun⟩

/-- Settles O27: each destination completes with one write, to a pad register or to the state machine. -/
theorem setRule : Obligations.SetRule := by
  intro ds data s
  refine ⟨?pins, ?x, ?y, ?pindirs, rfl, rfl, rfl, rfl, fun hi hmem => ?reserved⟩
  case pins => exact completes_of_ruleOf_padOut rfl
  case x | y => exact completes_of_ruleOf_setMe rfl
  case pindirs => exact completes_of_ruleOf_padOe rfl
  case reserved => exact refusesWord_of_reservedFields (reservedFields_set data hi hmem) ds s

/-! The operands of MOV, and nop (43_mov_irq_set.md R138, R139, R142). -/

/-- Settles O22: the rule of nop has no effect of its own. -/
theorem nopRule : Obligations.NopRule :=
  ⟨rfl, fun _ _ => ⟨rfl, completes_of_ruleOf_done rfl⟩⟩

/-- Settles O23: the sources and the first two operations by their definitions, the reversal by its bits. -/
theorem movOperands : Obligations.MovOperands := by
  intro m cur v
  refine ⟨rfl, rfl, rfl, rfl, rfl, rfl, rfl, rfl, rfl, fun j hj => ?reverse⟩
  case reverse => exact getLsbD_rev32 v hj

/-! MOV (43_mov_irq_set.md R140, R141). -/

theorem Cell.eq_of_of_readCell {w : Nat} {c : Cell w} {v : BitVec w} (h : readCell c = some v) : c = .of v := by
  obtain ⟨hwritten, rfl⟩ := readCell_eq_some.1 h
  rw [Cell.of, ← hwritten]

section Mov
variable {op : MovOp} {src : MovSrc} {s : State}

/-- A MOV of an unwritten source faults, whatever its destination. -/
theorem takesUnwrittenFault_of_movRule {i : Instr} {dest : Word → RuleResult}
    (hrule : ruleOf i s = movRule op src s dest) (hsrc : s.me.movSource s.pinSample src = none) :
    TakesUnwrittenFault i s := by
  rw [movRule, hsrc] at hrule
  exact takesUnwrittenFault_of_ruleOf hrule

/-- The destinations that read their source in every case. -/
theorem exists_dest_of_mov (ds : Five) (op : MovOp) (src : MovSrc) (s : State) :
    ∀ i ∈ [Instr.movPins ds op src, .movExec ds op src, .movPc ds op src, .movIsr ds op src, .movOsr ds op src],
      ∃ dest, ruleOf i s = movRule op src s dest := by
  simp only [List.forall_mem_cons, ruleOf, ruleMovPins, ruleMovExec, ruleMovPc, ruleMovIsr, ruleMovOsr]
  exact ⟨⟨_, rfl⟩, ⟨_, rfl⟩, ⟨_, rfl⟩, ⟨_, rfl⟩, ⟨_, rfl⟩, nofun⟩

theorem ruleMovX_self (s : State) : ruleMovX .none .x s = done s := if_pos ⟨rfl, rfl⟩

theorem ruleMovY_self (s : State) : ruleMovY .none .y s = done s := if_pos ⟨rfl, rfl⟩

theorem ruleMovX_of_not_self (hself : ¬(op = .none ∧ src = .x)) :
    ruleMovX op src s = movRule op src s fun r => done (s.setMe { s.me with x := .of r }) := if_neg hself

theorem ruleMovY_of_not_self (hself : ¬(op = .none ∧ src = .y)) :
    ruleMovY op src s = movRule op src s fun r => done (s.setMe { s.me with y := .of r }) := if_neg hself

variable {v : Word} (hsrc : s.me.movSource s.pinSample src = some v)
include hsrc

/-- A MOV hands the result of its operation to its destination. -/
theorem movRule_of_some (dest : Word → RuleResult) : movRule op src s dest = dest (movOperation op v) := by
  rw [movRule, hsrc]

/-- The copy of a written X onto itself is no exception: it writes the value X holds. -/
theorem ruleMovX_of_some : ruleMovX op src s = done (s.setMe { s.me with x := .of (movOperation op v) }) := by
  by_cases hself : op = .none ∧ src = .x
  case pos =>
    obtain ⟨rfl, rfl⟩ := hself
    have hx : s.me.x = .of v := Cell.eq_of_of_readCell hsrc
    rw [ruleMovX_self, movOperation, ← hx, s.setMe_me_self]
  case neg => rw [ruleMovX_of_not_self hself, movRule_of_some hsrc]

/-- The copy of a written Y onto itself is no exception: it writes the value Y holds. -/
theorem ruleMovY_of_some : ruleMovY op src s = done (s.setMe { s.me with y := .of (movOperation op v) }) := by
  by_cases hself : op = .none ∧ src = .y
  case pos =>
    obtain ⟨rfl, rfl⟩ := hself
    have hy : s.me.y = .of v := Cell.eq_of_of_readCell hsrc
    rw [ruleMovY_self, movOperation, ← hy, s.setMe_me_self]
  case neg => rw [ruleMovY_of_not_self hself, movRule_of_some hsrc]

end Mov

/-- MOV with destination 011 is reserved (30_encoding.md R95). -/
theorem reservedFields_mov_destination (lo : Five) : ReservedFields 0b101#3 0b011#3 lo := .inl rfl

/-- MOV with operation 11 or source 100 is reserved (30_encoding.md R95). -/
theorem reservedFields_mov_operand (hi : BitVec 3) {lo : Five}
    (h : lo.extractLsb' 3 2 = 0b11#2 ∨ lo.extractLsb' 0 3 = 0b100#3) : ReservedFields 0b101#3 hi lo := by
  have hlt := lo.isLt
  refine .inr (h.imp (fun hop => ?_) (fun hsrc => ?_))
  · have hbits := congrArg BitVec.toNat hop
    rw [BitVec.extractLsb'_toNat, Nat.shiftRight_eq_div_pow, BitVec.toNat_ofNat] at hbits
    omega
  · have hbits := congrArg BitVec.toNat hsrc
    rwa [BitVec.extractLsb'_toNat, Nat.shiftRight_zero] at hbits

/-- Settles O24: the rule of each destination is `movRule`, and what it does with the result is the destination's own;
the self-copies of X and Y read nothing. -/
theorem movRuleHolds : Obligations.MovRule := by
  intro ds op src s
  refine ⟨fun v hsrc => ⟨?pins, ?x, ?y, ?exec, ?pc, ?isr, ?osr⟩, fun hnone => ⟨?faults, ?faultsX, ?faultsY⟩, ?selfX,
    ?selfY, ⟨rfl, rfl, rfl, rfl, rfl, rfl, rfl⟩, ?destination, ?operand⟩
  case pins => exact completes_of_ruleOf_padOut (movRule_of_some hsrc fun r => done (s.outPinsWrite r))
  case x => exact completes_of_ruleOf_setMe (ruleMovX_of_some hsrc)
  case y => exact completes_of_ruleOf_setMe (ruleMovY_of_some hsrc)
  case isr =>
    exact completes_of_ruleOf_setMe (movRule_of_some hsrc fun r => done (s.setMe { s.me with isr := r, isrCount := 0 }))
  case osr =>
    exact completes_of_ruleOf_setMe
      (movRule_of_some hsrc fun r => done (s.setMe { s.me with osr := .of r, osrCount := 0 }))
  case exec =>
    have hrule := movRule_of_some (op := op) hsrc fun r => .complete s none (some (r.extractLsb' 0 16))
    exact completesInjecting_of_complete (exec_of_ruleOf (i := .movExec ds op src) hrule) (TickFrame.refl s) rfl rfl rfl
      rfl ⟨rfl, rfl, rfl⟩
  case pc =>
    have hrule := movRule_of_some (op := op) hsrc fun r => .complete s (some (r.extractLsb' 0 5)) none
    exact completes_of_complete (exec_of_ruleOf (i := .movPc ds op src) hrule) (TickFrame.refl s) rfl rfl rfl rfl
      ⟨rfl, rfl, rfl⟩
  case faults =>
    intro i hi
    obtain ⟨dest, hrule⟩ := exists_dest_of_mov ds op src s i hi
    exact takesUnwrittenFault_of_movRule hrule hnone
  case faultsX => exact fun hself => takesUnwrittenFault_of_movRule (ruleMovX_of_not_self hself) hnone
  case faultsY => exact fun hself => takesUnwrittenFault_of_movRule (ruleMovY_of_not_self hself) hnone
  case selfX => exact completes_of_ruleOf_done (ruleMovX_self s)
  case selfY => exact completes_of_ruleOf_done (ruleMovY_self s)
  case destination => exact fun lo => refusesWord_of_reservedFields (reservedFields_mov_destination lo) ds s
  case operand => exact fun hi lo h => refusesWord_of_reservedFields (reservedFields_mov_operand hi h) ds s

/-! The flag an index names (43_mov_irq_set.md R143). -/

/-- A bit extracted alone, as a number. -/
theorem toNat_extractLsb'_one {w : Nat} (v : BitVec w) (i : Nat) :
    (v.extractLsb' i 1).toNat = if v.getLsbD i then 1 else 0 := by
  rw [BitVec.extractLsb'_toNat, BitVec.getLsbD, Nat.shiftRight_eq_div_pow, Nat.testBit_eq_decide_div_mod_eq]
  simp only [decide_eq_true_eq]
  split <;> omega

/-- The flag of a relative index: bit 2 kept, above the sum of bits 1:0 and the number modulo 4. -/
theorem toNat_relativeFlag (idx : Five) (k : SmId) :
    (idx.extractLsb' 2 1 ++ (idx.extractLsb' 0 2 + BitVec.ofNat 2 k.val)).toNat =
      (if idx.getLsbD 2 then 4 else 0) + ((idx.extractLsb' 0 2).toNat + k.val) % 4 := by
  have hlow : (idx.extractLsb' 0 2 + BitVec.ofNat 2 k.val).toNat = ((idx.extractLsb' 0 2).toNat + k.val) % 4 := by
    rw [BitVec.toNat_add, BitVec.toNat_ofNat, Nat.add_mod_mod]
  have hlt : ((idx.extractLsb' 0 2).toNat + k.val) % 4 < 2 ^ 2 := Nat.mod_lt _ (by decide)
  rw [BitVec.toNat_append, hlow, ← Nat.shiftLeft_add_eq_or_of_lt hlt, toNat_extractLsb'_one]
  split <;> rfl

/-- Settles O25, by the branches of R143. -/
theorem irqIndexRule : Obligations.IrqIndexRule := by
  refine fun idx k => ⟨fun hreserved => ?reserved, fun hok habsolute => ?absolute, fun hok hrelative => ?relative⟩
  case reserved => rw [irqIndex, if_pos hreserved]
  case absolute => rw [irqIndex, hok, habsolute]; rfl
  case relative => exact ⟨_, by rw [irqIndex, hok, hrelative]; rfl, toNat_relativeFlag idx k⟩

/-! IRQ (43_mov_irq_set.md R144). -/

section Irq
variable {wait : Bool} {index : Five} {s : State}

theorem irqRule_reserved (hindex : irqIndex index s.active = none) :
    irqRule wait index s = .refuse (.reservedEncoding (.sm s.active)) := by
  rw [irqRule, hindex]

theorem irqClearRule_reserved (hindex : irqIndex index s.active = none) :
    irqClearRule index s = .refuse (.reservedEncoding (.sm s.active)) := by
  rw [irqClearRule, hindex]

variable {f : BitVec 3} (hindex : irqIndex index s.active = some f)
include hindex

theorem irqClearRule_clears : irqClearRule index s = done (s.clearIrq f) := by
  rw [irqClearRule, hindex]

theorem irqRule_sets (hlatch : s.me.irqWaiting = false) : irqRule false index s = done (s.setIrq f) := by
  simpa [hindex, hlatch] using irqRule_cases false index s

theorem irqRule_sets_and_waits (hlatch : s.me.irqWaiting = false) :
    irqRule true index s = .stall ((s.setIrq f).setMe { s.me with irqWaiting := true }) := by
  simpa [hindex, hlatch] using irqRule_cases true index s

/-- Under the latch both forms of the set wait for the clear (log 21). -/
theorem irqRule_released (hlatch : s.me.irqWaiting = true) (hflag : s.irqFlag f = false) :
    irqRule wait index s = done (s.setMe { s.me with irqWaiting := false }) := by
  simpa [hindex, hlatch, hflag] using irqRule_cases wait index s

theorem irqRule_waits (hlatch : s.me.irqWaiting = true) (hflag : s.irqFlag f = true) :
    irqRule wait index s = .stall s := by
  simpa [hindex, hlatch, hflag] using irqRule_cases wait index s

end Irq

/-- IRQ with bit 7 or bit 3 set is reserved (30_encoding.md R96). -/
theorem reservedFields_irq {hi : BitVec 3} {lo : Five} (h : hi.getLsbD 2 = true ∨ lo.getLsbD 3 = true) :
    ReservedFields 0b110#3 hi lo := h

/-- Settles O26: the clear by its one rule, the two forms of the set by the latch and, under it, by their own flag. -/
theorem irqRuleHolds : Obligations.IrqRule := by
  intro ds index s
  refine ⟨⟨rfl, rfl, fun _ => rfl, ?reserved⟩, fun hnone wait => ?refused, fun f hindex =>
    ⟨fun wait => ?clears, fun hlatch => ⟨?sets, ?setsAndWaits⟩, fun hlatch => ?latched⟩⟩
  case reserved => exact fun hi lo h => refusesWord_of_reservedFields (reservedFields_irq h) ds s
  case refused =>
    simp only [List.forall_mem_cons]
    exact ⟨exec_of_ruleOf_refuse (irqRule_reserved hnone), exec_of_ruleOf_refuse (irqRule_reserved hnone),
      exec_of_ruleOf_refuse (irqClearRule_reserved hnone), nofun⟩
  case clears =>
    have hframe : TickFrame s (s.clearIrq f) := (TickFrame.refl s).clearIrq f
    exact ⟨_, completesIn_of_complete (exec_of_ruleOf (irqClearRule_clears hindex)) hframe rfl rfl rfl rfl,
      lowered_clearBit s.irq f.toNat, rfl, rfl⟩
  case sets =>
    have hframe : TickFrame s (s.setIrq f) := (TickFrame.refl s).setIrq f
    exact ⟨_, completesIn_of_complete (exec_of_ruleOf (irqRule_sets hindex hlatch)) hframe rfl rfl rfl rfl,
      raised_setBit s.irq f.isLt, rfl, rfl⟩
  case setsAndWaits =>
    have hframe : TickFrame s ((s.setIrq f).setMe { s.me with irqWaiting := true }) :=
      ((TickFrame.refl s).setIrq f).setMe _
    exact ⟨_, stallsIn_of_stall (exec_of_ruleOf (irqRule_sets_and_waits hindex hlatch)) hframe (State.me_setMe _ _) rfl
      rfl, raised_setBit s.irq f.isLt, rfl, rfl⟩
  case latched =>
    have hwaits {i : Instr} {wait : Bool} (hrule : ruleOf i s = irqRule wait index s) :
        (s.irq.getLsbD f.toNat = false →
          Completes i s { s.me with irqWaiting := false } (s.me.nextPc none) s.padOut s.padOe) ∧
        (s.irq.getLsbD f.toNat = true → Stalls i s s.me) :=
      ⟨fun hlow => completes_of_ruleOf_setMe (hrule.trans (irqRule_released hindex hlatch hlow)),
        fun hhigh => stalls_of_ruleOf (hrule.trans (irqRule_waits hindex hlatch hhigh))⟩
    simp only [List.forall_mem_cons]
    exact ⟨hwaits rfl, hwaits rfl, nofun⟩

end Sys2Proof.Machine
end

section
/-! SUPPORT. The statements about the transfer engine (spec/45_transfer_engine.md): the channels' registers and
triggers, the request lines, the two phases of a transfer, aborts and bus errors. -/

namespace Sys2Proof.Machine

open Sys2Proof

/-! The byte swap (45_transfer_engine.md R151). -/

/-- A byte of a word moved to lane `p`, bit by bit. -/
theorem getLsbD_byteLane (v : Word) (lo : Nat) {p place q j : Nat} (hplace : place = 8 * p) (hq : q < 4) (hj : j < 8) :
    (((v >>> lo) &&& 0xFF#32) <<< place).getLsbD (8 * q + j) = (decide (p = q) && v.getLsbD (lo + j)) := by
  have hmask : 0xFF#32 = maskBits 8 := rfl
  subst hplace
  rw [hmask, BitVec.getLsbD_shiftLeft, getLsbD_and_maskBits _ _ (by omega), BitVec.getLsbD_ushiftRight,
    decide_eq_true (show 8 * q + j < 32 by omega), Bool.true_and]
  by_cases h : p = q
  · subst h
    simp [hj]
  · have hout : (!decide (8 * q + j < 8 * p) && decide (8 * q + j - 8 * p < 8)) = false := by
      simp only [Bool.and_eq_false_iff, Bool.not_eq_false', decide_eq_true_eq, decide_eq_false_iff_not]
      omega
    rw [← Bool.and_assoc, hout, decide_eq_false h, Bool.false_and, Bool.false_and]

/-- A swapped word or halfword is the assembly of its bytes in reverse order. -/
theorem byteSwap_eq_assemble (v : Word) :
    byteSwap .word v = assemble .word (fun i => v.extractLsb' (24 - 8 * i) 8) ∧
    byteSwap .half v = assemble .half (fun i => v.extractLsb' (8 - 8 * i) 8) := ⟨rfl, rfl⟩

/-- Settles O53: each bit of the swapped value, by the byte it stands in. -/
theorem byteSwapBytes : Obligations.ByteSwapBytes := by
  intro v
  obtain ⟨hword, hhalf⟩ := byteSwap_eq_assemble v
  have hlow : v &&& 0xFF#32 = (v >>> 0) &&& 0xFF#32 := by rw [BitVec.ushiftRight_zero]
  have hfirst (lo : Nat) : (v >>> lo) &&& 0xFF#32 = ((v >>> lo) &&& 0xFF#32) <<< 0 := by rw [BitVec.shiftLeft_zero]
  have hlane {i : Nat} (hi : i < 32) : ∃ q j, q < 4 ∧ j < 8 ∧ i = 8 * q + j :=
    ⟨i / 8, i % 8, by omega, by omega, by omega⟩
  refine ⟨BitVec.eq_of_getLsbD_eq fun i hi => ?word, BitVec.eq_of_getLsbD_eq fun i hi => ?half, rfl⟩ <;>
    obtain ⟨q, j, hq, hj, rfl⟩ := hlane hi
  case word =>
    rw [hword, getLsbD_assemble .word _ hq hj, BitVec.getLsbD_extractLsb', hlow, hfirst 24]
    simp only [BitVec.getLsbD_or]
    rw [getLsbD_byteLane v 0 (p := 3) rfl hq hj, getLsbD_byteLane v 8 (p := 2) rfl hq hj,
      getLsbD_byteLane v 16 (p := 1) rfl hq hj, getLsbD_byteLane v 24 (p := 0) rfl hq hj]
    interval_cases q <;> simp [hj]
  case half =>
    rw [hhalf, hlow, hfirst 8, BitVec.getLsbD_or, getLsbD_byteLane v 0 (p := 1) rfl hq hj,
      getLsbD_byteLane v 8 (p := 0) rfl hq hj]
    by_cases hhigh : q < 2
    · rw [getLsbD_assemble .half _ hhigh hj, BitVec.getLsbD_extractLsb']
      interval_cases q <;> simp [hj]
    · rw [getLsbD_assemble_above .half _ (show 8 * 2 ≤ 8 * q + j by omega), decide_eq_false (show 1 ≠ q by omega),
        decide_eq_false (show 0 ≠ q by omega)]
      rfl

/-! The request lines (45_transfer_engine.md R148). -/

/-- The line of a TX FIFO: there is room in it. -/
theorem State.dreq_tx (s : State) (k : SmId) :
    s.dreq (8 * s.params.seqIndex + k.val) = !decide ((s.sm k).tx.length = (s.sm k).txCap) := by
  rw [State.dreq, if_pos (by omega), Nat.add_sub_cancel_left, Fin.ofNat_val_eq_self, Sm.txFull]

/-- The line of an RX FIFO: there is a word in it. -/
theorem State.dreq_rx (s : State) (k : SmId) :
    s.dreq (8 * s.params.seqIndex + 4 + k.val) = !decide ((s.sm k).rx.length = 0) := by
  rw [State.dreq, if_neg (by omega), if_pos (by omega), Nat.add_assoc, Nat.add_sub_cancel_left, Nat.add_sub_cancel_left,
    Fin.ofNat_val_eq_self, Sm.rxEmpty_eq]

/-- A line outside the block's eight. -/
theorem State.dreq_outside (s : State) {t : Nat}
    (h : t < 8 * s.params.seqIndex ∨ 8 * s.params.seqIndex + 8 ≤ t) :
    s.dreq t = if t = 0x3F then true else s.env.dreq.getLsbD t := by
  rw [State.dreq, if_neg (by omega), if_neg (by omega)]

/-- Settles O50: the line of each FIFO of the block, and the lines outside the block. -/
theorem requestLines : Obligations.RequestLines := fun s =>
  ⟨fun k => ⟨s.dreq_tx k, s.dreq_rx k⟩, fun hindex => (s.dreq_outside (by omega)).trans (if_pos rfl),
    fun _ ht hout => (s.dreq_outside hout).trans (if_neg ht)⟩

/-! The registers of a channel (45_transfer_engine.md R146, 10_state.md R49, R50). -/

theorem toNat_extractLsb' {w : Nat} (v : BitVec w) (lo n : Nat) :
    (v.extractLsb' lo n).toNat = v.toNat / 2 ^ lo % 2 ^ n := by
  rw [BitVec.extractLsb'_toNat, Nat.shiftRight_eq_div_pow]

/-- CTRL_TRIG as read, bit by bit (10_state.md R49). -/
theorem Channel.getLsbD_ctrlValue (ch : Channel) (i : Nat) :
    ch.ctrlValue.getLsbD i =
      if i < 24 then ch.ctrl.getLsbD i
      else if i = 24 then ch.busy
      else if i = 29 then ch.writeError
      else if i = 30 then ch.readError
      else if i = 31 then ch.readError || ch.writeError
      else false := by
  rw [Channel.ctrlValue]
  repeat rw [BitVec.getLsbD_append]
  simp only [BitVec.getLsbD_ofBool, BitVec.getLsbD_zero]
  split_ifs <;> simp_all <;> omega

/-- The fields, BUSY and the error bits of CTRL_TRIG as read (10_state.md R49). -/
theorem Channel.ctrlValue_fields (ch : Channel) :
    ch.ctrlValue.extractLsb' 0 24 = ch.ctrl ∧ ch.ctrlValue.getLsbD 24 = ch.busy ∧
    ch.ctrlValue.extractLsb' 25 4 = 0 ∧ ch.ctrlValue.getLsbD 29 = ch.writeError ∧
    ch.ctrlValue.getLsbD 30 = ch.readError ∧ ch.ctrlValue.getLsbD 31 = (ch.readError || ch.writeError) := by
  refine ⟨BitVec.eq_of_getLsbD_eq fun i hi => ?ctrl, ch.getLsbD_ctrlValue 24,
    BitVec.eq_of_getLsbD_eq fun i hi => ?reserved, ch.getLsbD_ctrlValue 29, ch.getLsbD_ctrlValue 30,
    ch.getLsbD_ctrlValue 31⟩ <;>
    rw [BitVec.getLsbD_extractLsb', ch.getLsbD_ctrlValue, decide_eq_true hi, Bool.true_and]
  case ctrl => rw [Nat.zero_add, if_pos hi]
  case reserved =>
    rw [if_neg (by omega), if_neg (by omega), if_neg (by omega), if_neg (by omega), if_neg (by omega)]
    simp

/-- The access size by the code of DATA_SIZE (10_state.md R49). -/
theorem Channel.dataSize_iff (ch : Channel) :
    let size := ch.ctrl.toNat / 2 ^ 2 % 2 ^ 2
    (ch.dataSize = some .byte ↔ size = 0) ∧ (ch.dataSize = some .half ↔ size = 1) ∧
      (ch.dataSize = some .word ↔ size = 2) ∧ (ch.dataSize = none ↔ size = 3) := by
  intro size
  have hcode : (ch.ctrl.extractLsb' 2 2).toNat = size := toNat_extractLsb' ch.ctrl 2 2
  have hsize : size = 0 ∨ size = 1 ∨ size = 2 ∨ size = 3 := by omega
  rw [Channel.dataSize, hcode]
  obtain h | h | h | h := hsize <;> simp [h]

section ChannelWrite

variable {s : State} {a : Agent} {c o : Nat} {r : XferReg} {v : Word} {f : Channel → Except Refusal Channel}
  {ch ch' : Channel} {reason : Refusal}

/-- A word write at the offset of a channel's register is the write of that channel. -/
theorem State.busWrite_channel (hw : WindowsApart s.params) (ho : o < 0x4000) (h4 : o % 4 = 0)
    (hr : xferRegAt s.channels.length o = some r) (hwrite : s.xferWrite a v r = s.writeChan a c f) :
    s.busWrite a (s.xferAddr o) .word v = .ofRegister (s.writeChan a c f) := by
  rw [State.busWrite_xferAddr hw a v ho h4 hr, hwrite]

theorem State.xferWrite_readAddr :
    s.xferWrite a v (.readAddr c) = s.writeChan a c fun ch => .ok { ch with readAddr := v } := rfl

theorem State.xferWrite_writeAddr :
    s.xferWrite a v (.writeAddr c) = s.writeChan a c fun ch => .ok { ch with writeAddr := v } := rfl

theorem State.xferWrite_transCount :
    s.xferWrite a v (.transCount c) = s.writeChan a c fun ch => .ok { ch with countReload := v } := rfl

theorem State.xferWrite_ctrlTrig :
    s.xferWrite a v (.ctrlTrig c) = s.writeChan a c fun ch => ch.writeCtrlTrig a c v := rfl

theorem State.writeChan_busy (hc : s.channels[c]? = some ch) (hbusy : ch.busy = true) :
    s.writeChan a c f = .error (.busyChannelWrite a) := by
  rw [State.writeChan, hc]
  exact if_pos hbusy

theorem State.writeChan_ok (hc : s.channels[c]? = some ch) (hidle : ch.busy = false) (hf : f ch = .ok ch') :
    s.writeChan a c f = .ok (s.setChan c ch') := by
  simp [State.writeChan, hc, hidle, hf]

theorem State.writeChan_refuse (hc : s.channels[c]? = some ch) (hidle : ch.busy = false) (hf : f ch = .error reason) :
    s.writeChan a c f = .error reason := by
  simp [State.writeChan, hc, hidle, hf]

end ChannelWrite

/-- Settles O48: each register at its offset, and the fields of CTRL_TRIG at their bits. -/
theorem channelRegisters : Obligations.ChannelRegisters := by
  intro s a c ch v hw hn hc at_
  have hlt : c < s.channels.length := (List.getElem?_eq_some_iff.mp hc).1
  obtain ⟨hread, hwrite, hcount, hctrl⟩ := xferRegAt_channel hlt hn
  have reads {o : Nat} {r : XferReg} (ho : o ≤ 0x0C ∧ o % 4 = 0)
      (hr : xferRegAt s.channels.length (0x40 * c + o) = some r) : s.busRead a (at_ o) .word = .ok (s.xferValue r) s :=
    State.busRead_xferAddr hw a (by omega) (by omega) hr
  have writes {o : Nat} {r : XferReg} {f : Channel → Except Refusal Channel} (ho : o ≤ 0x0C ∧ o % 4 = 0)
      (hr : xferRegAt s.channels.length (0x40 * c + o) = some r) (hf : s.xferWrite a v r = s.writeChan a c f) :
      s.busWrite a (at_ o) .word v = .ofRegister (s.writeChan a c f) :=
    State.busWrite_channel hw (by omega) (by omega) hr hf
  refine ⟨?readAddr, ?writeAddr, ?transCount, ⟨ch.ctrlValue, ?ctrlTrig, ch.ctrlValue_fields⟩,
    ⟨rfl, rfl, toNat_extractLsb' _ _ _, toNat_extractLsb' _ _ _, toNat_extractLsb' _ _ _, rfl, rfl, ch.dataSize_iff⟩,
    fun hbusy => ?busy, fun hidle => ?stores⟩
  case readAddr => rw [reads (by decide) hread, State.xferValue, hc]; rfl
  case writeAddr => rw [reads (by decide) hwrite, State.xferValue, hc]; rfl
  case transCount => rw [reads (by decide) hcount, State.xferValue, hc]; rfl
  case ctrlTrig => rw [reads (by decide) hctrl, State.xferValue, hc]; rfl
  case busy =>
    simp only [List.forall_mem_cons]
    rw [writes (by decide) hread State.xferWrite_readAddr, writes (by decide) hwrite State.xferWrite_writeAddr,
      writes (by decide) hcount State.xferWrite_transCount, writes (by decide) hctrl State.xferWrite_ctrlTrig]
    simp only [State.writeChan_busy hc hbusy]
    exact ⟨rfl, rfl, rfl, rfl, nofun⟩
  case stores =>
    have stored {f : Channel → Except Refusal Channel} {ch' : Channel} (hf : f ch = .ok ch') :
        BusWrite.ofRegister (s.writeChan a c f) = .ok (s.setChan c ch') := by
      rw [State.writeChan_ok hc hidle hf, BusWrite.ofRegister]
    rw [writes (by decide) hread State.xferWrite_readAddr, writes (by decide) hwrite State.xferWrite_writeAddr,
      writes (by decide) hcount State.xferWrite_transCount]
    exact ⟨stored rfl, stored rfl, stored rfl⟩

/-! Triggers (45_transfer_engine.md R147, R149). -/

/-- A field of the written word that CTRL_TRIG stores. -/
theorem toNat_extractLsb'_stored (v : Word) {lo n : Nat} (h : lo + n ≤ 24) :
    ((v.extractLsb' 0 24).extractLsb' lo n).toNat = field v lo n := by
  rw [field, ← toNat_extractLsb']
  congr 1
  refine BitVec.eq_of_getLsbD_eq fun i hi => ?_
  simp only [BitVec.getLsbD_extractLsb', Nat.zero_add]
  rw [decide_eq_true (show lo + i < 24 by omega), Bool.true_and]

/-- The configuration a trigger admits, by the written word (45_transfer_engine.md R147). -/
theorem Channel.ctrlAdmitted_storeCtrl_iff (ch : Channel) (c : Nat) (v : Word) :
    (ch.storeCtrl v).ctrlAdmitted c = true ↔
      field v 2 2 ≠ 3 ∧ field v 6 4 = 0 ∧ field v 11 4 = c ∧ v.getLsbD 23 = false := by
  have hsize : (ch.storeCtrl v).dataSize.isSome = true ↔ field v 2 2 ≠ 3 := by
    obtain ⟨_, _, _, hnone⟩ := (ch.storeCtrl v).dataSize_iff
    rw [Option.isSome_iff_ne_none, Ne, hnone, ← toNat_extractLsb']
    exact not_congr (by rw [Channel.storeCtrl, toNat_extractLsb'_stored v (by omega)])
  have hring : (ch.storeCtrl v).ringSize = field v 6 4 := toNat_extractLsb'_stored v (by omega)
  have hchain : (ch.storeCtrl v).chainTo = field v 11 4 := toNat_extractLsb'_stored v (by omega)
  have hsniff : (ch.storeCtrl v).sniffEn = v.getLsbD 23 := by
    rw [Channel.sniffEn, Channel.storeCtrl, BitVec.getLsbD_extractLsb', Nat.zero_add]
    rfl
  simp only [Channel.ctrlAdmitted, Bool.and_eq_true, decide_eq_true_eq, Bool.not_eq_true', and_assoc, hsize, hring,
    hchain, hsniff]

/-- The count mode and the count of a trigger as numbers (10_state.md R50). -/
theorem extractLsb'_eq_iff_field (v : Word) (lo : Nat) {n : Nat} (x : BitVec n) :
    v.extractLsb' lo n = x ↔ field v lo n = x.toNat := by
  rw [field, ← toNat_extractLsb', BitVec.toNat_eq]

theorem Channel.countModeAdmitted_iff (ch : Channel) :
    countModeAdmitted ch.reloadMode = true ↔ field ch.countReload 28 4 = 0 ∨ field ch.countReload 28 4 = 15 := by
  simp only [countModeAdmitted, Bool.or_eq_true, decide_eq_true_eq, Channel.reloadMode, extractLsb'_eq_iff_field]
  rfl

section CtrlTrig

variable (ch : Channel) (a : Agent) (c : Nat) {v : Word}

theorem Channel.writeCtrlTrig_disabled (hen : v.getLsbD 0 = false) :
    ch.writeCtrlTrig a c v = .ok (ch.storeCtrl v) := by
  rw [Channel.writeCtrlTrig, hen]
  rfl

theorem Channel.writeCtrlTrig_refused (hen : v.getLsbD 0 = true)
    (hnot : ¬((ch.storeCtrl v).ctrlAdmitted c = true ∧ countModeAdmitted (ch.storeCtrl v).reloadMode = true)) :
    ch.writeCtrlTrig a c v = .error (.channelConfigNotAdmitted a) := by
  rw [Channel.writeCtrlTrig, hen]
  exact if_neg (mt (Bool.and_eq_true _ _).mp hnot)

theorem Channel.writeCtrlTrig_admitted (hen : v.getLsbD 0 = true)
    (h : (ch.storeCtrl v).ctrlAdmitted c = true ∧ countModeAdmitted (ch.storeCtrl v).reloadMode = true) :
    ch.writeCtrlTrig a c v = .ok (ch.storeCtrl v).trigger := by
  rw [Channel.writeCtrlTrig, hen]
  exact if_pos ((Bool.and_eq_true _ _).mpr h)

end CtrlTrig

/-- A triggered channel is busy unless it counts down from 0 (45_transfer_engine.md R149). -/
theorem Channel.trigger_busy (ch : Channel) :
    ch.trigger.busy = !decide (field ch.countReload 28 4 = 0 ∧ field ch.countReload 0 28 = 0) := by
  have hmode : ch.reloadMode = 0#4 ↔ field ch.countReload 28 4 = 0 := extractLsb'_eq_iff_field _ _ _
  have hcount : ch.reloadCount = 0 ↔ field ch.countReload 0 28 = 0 := extractLsb'_eq_iff_field _ _ _
  simp only [Channel.trigger, hmode, hcount, Bool.decide_and]

/-- Settles O49: the three ways a write of CTRL_TRIG ends. -/
theorem trigger : Obligations.Trigger := by
  intro s a c ch v hw hn hc hidle write stored mode admitted
  have hlt : c < s.channels.length := (List.getElem?_eq_some_iff.mp hc).1
  obtain ⟨_, _, _, hctrl⟩ := xferRegAt_channel hlt hn
  have hadmitted : (ch.storeCtrl v).ctrlAdmitted c = true ∧ countModeAdmitted (ch.storeCtrl v).reloadMode = true ↔
      admitted := by
    rw [ch.ctrlAdmitted_storeCtrl_iff, Channel.countModeAdmitted_iff, and_assoc, and_assoc, and_assoc]
    rfl
  have hstarts : (ch.storeCtrl v).trigger.busy = !decide (mode = 0 ∧ field ch.countReload 0 28 = 0) :=
    (ch.storeCtrl v).trigger_busy
  have hwrite : write = .ofRegister (s.writeChan a c fun ch => ch.writeCtrlTrig a c v) :=
    State.busWrite_channel hw (by omega) (by omega) hctrl State.xferWrite_ctrlTrig
  rw [hwrite]
  refine ⟨fun hen => ?disabled, fun hen hnot => ?refused, fun hen h => ?starts⟩
  case disabled =>
    rw [State.writeChan_ok hc hidle (ch.writeCtrlTrig_disabled a c hen)]
    rfl
  case refused =>
    rw [State.writeChan_refuse hc hidle (ch.writeCtrlTrig_refused a c hen (mt hadmitted.mp hnot))]
    rfl
  case starts =>
    rw [State.writeChan_ok hc hidle (ch.writeCtrlTrig_admitted a c hen (hadmitted.mpr h)), ← hstarts]
    rfl

/-! The phases of a transfer (45_transfer_engine.md R150 to R153). -/

section Phases

variable {s t : State} {c : Nat} {ch : Channel} {size : AccessSize} {v : Word} {r : Refusal}

/-- A step chosen for a channel with no enabled step is a stutter (log 2). -/
theorem step_channel_disabled (he : s.nextEvent = .channel c) (hc : s.channels[c]? = some ch)
    (hoff : s.channelEnabled ch = false) : step s = .next s.consume := by
  simp [step_channel he, channelStep, hc, hoff]

/-- A step of a busy channel between transfers whose request line is 1. -/
theorem step_readPhase (he : s.nextEvent = .channel c) (hc : s.channels[c]? = some ch) (hbusy : ch.busy = true)
    (hphase : ch.phase = .idle) (habort : ch.abortPending = false) (hsize : ch.dataSize = some size)
    (hdreq : s.dreq ch.treqSel = true) : step s = readPhase c ch size s.consume := by
  have hen : s.channelEnabled ch = true := by simp [State.channelEnabled, hbusy, hphase, hdreq]
  simp [step_channel he, channelStep, hc, hen, hsize, hphase, habort]

/-- A step of a busy channel that holds a word. -/
theorem step_writePhase (he : s.nextEvent = .channel c) (hc : s.channels[c]? = some ch) (hbusy : ch.busy = true)
    (hphase : ch.phase = .hold v) (hsize : ch.dataSize = some size) : step s = writePhase c ch size v s.consume := by
  have hen : s.channelEnabled ch = true := by simp [State.channelEnabled, hbusy, hphase]
  simp [step_channel he, channelStep, hc, hen, hsize, hphase]

theorem readPhase_ok (h : s.busRead (.channel c) ch.readAddr size = .ok v t) :
    readPhase c ch size s = .next (t.updChan c fun ch' =>
      { ch' with readAddr := advanceAddr ch.incrRead ch.readAddr size, phase := .hold v }) := by
  rw [readPhase, h]

theorem readPhase_refuse (h : s.busRead (.channel c) ch.readAddr size = .refuse r) :
    readPhase c ch size s = .refused r := by
  rw [readPhase, h]

theorem readPhase_error (hc : s.channels[c]? = some ch) (h : s.busRead (.channel c) ch.readAddr size = .error) :
    readPhase c ch size s = .next (s.setChan c { ch.halt with readError := true }) := by
  rw [readPhase, h, State.updChan_eq_setChan _ hc]

theorem writePhase_ok
    (h : s.busWrite (.channel c) ch.writeAddr size (if ch.bswap then byteSwap size v else v) = .ok t) :
    writePhase c ch size v s = .next (t.updChan c fun ch' => ch'.afterWrite ch.abortPending size) := by
  rw [writePhase, h]

theorem writePhase_refuse
    (h : s.busWrite (.channel c) ch.writeAddr size (if ch.bswap then byteSwap size v else v) = .refuse r) :
    writePhase c ch size v s = .refused r := by
  rw [writePhase, h]

theorem writePhase_error (hc : s.channels[c]? = some ch)
    (h : s.busWrite (.channel c) ch.writeAddr size (if ch.bswap then byteSwap size v else v) = .error) :
    writePhase c ch size v s = .next (s.setChan c { ch.halt with writeError := true }) := by
  rw [writePhase, h, State.updChan_eq_setChan _ hc]

end Phases

/-- A busy channel between transfers, with no abort pending, is enabled by its request line. -/
theorem State.channelEnabled_idle {s : State} {ch : Channel} (hbusy : ch.busy = true) (hphase : ch.phase = .idle)
    (habort : ch.abortPending = false) : s.channelEnabled ch = s.dreq ch.treqSel := by
  simp [State.channelEnabled, hbusy, hphase, habort]

/-- Settles O51: a stutter with the request line 0, else the read phase by its bus read. -/
theorem channelReadPhase : Obligations.ChannelReadPhase := by
  intro s c ch size he hc hbusy hphase habort hsize
  have hstep := step_readPhase he hc hbusy hphase habort hsize
  refine ⟨fun hdreq => ?stutter, fun hdreq v t h => ?reads, fun hdreq r h => ?refused⟩
  case stutter => exact step_channel_disabled he hc ((State.channelEnabled_idle hbusy hphase habort).trans hdreq)
  case reads => exact (hstep hdreq).trans (readPhase_ok h)
  case refused => exact (hstep hdreq).trans (readPhase_refuse h)

/-- Settles O52: the write phase by its bus write, with no abort pending. -/
theorem channelWritePhase : Obligations.ChannelWritePhase := by
  intro s c ch size v he hc hbusy hphase hsize write
  have hstep := step_writePhase he hc hbusy hphase hsize
  refine ⟨fun habort t h => ?writes, fun r h => hstep.trans (writePhase_refuse h)⟩
  rw [hstep, writePhase_ok h, habort]
  rfl

/-- Settles O55: the halted channel of each phase. -/
theorem busErrors : Obligations.BusErrors := by
  refine fun s c ch size he hc hbusy hsize => ⟨fun hphase habort hdreq h => ?read, fun v hphase h => ?write⟩
  case read => exact (step_readPhase he hc hbusy hphase habort hsize hdreq).trans (readPhase_error hc h)
  case write => exact (step_writePhase he hc hbusy hphase hsize).trans (writePhase_error hc h)

/-! Aborts (45_transfer_engine.md R152). -/

/-- CHAN_ABORT stands at 0x444 in every engine (log 16). -/
theorem xferRegAt_chanAbort (numCh : Nat) : xferRegAt numCh 0x444 = some .chanAbort := rfl

/-- Bit `c` of CHAN_ABORT reads the pending abort of channel `c` (10_state.md R51). -/
theorem State.getLsbD_chanAbort (s : State) {c : Nat} (hc : c < 32) :
    (s.xferValue .chanAbort).getLsbD c = true ↔ ∃ ch, s.channels[c]? = some ch ∧ ch.abortPending = true := by
  rw [State.xferValue, getLsbD_wordOfBits, decide_eq_true hc, Bool.true_and]
  cases h : s.channels[c]? <;> simp

theorem Channel.abort_not_busy {ch : Channel} (hbusy : ch.busy = false) : ch.abort = ch := by
  simp [Channel.abort, hbusy]

theorem Channel.abort_between {ch : Channel} (hbusy : ch.busy = true) (hphase : ch.phase = .idle) :
    ch.abort = { ch with busy := false } := by
  simp [Channel.abort, hbusy, hphase]

theorem Channel.abort_holding {ch : Channel} {v : Word} (hbusy : ch.busy = true) (hphase : ch.phase = .hold v) :
    ch.abort = { ch with abortPending := true } := by
  simp [Channel.abort, hbusy, hphase]

/-- Settles O54: the read of CHAN_ABORT, its write channel by channel, and the write phase with an abort pending. -/
theorem abortRequest : Obligations.AbortRequest := by
  refine ⟨fun s a hw => ?read, fun s a v hw => ?request, fun s t c ch size v he hc hbusy hphase habort hsize h => ?ends⟩
  case read =>
    exact ⟨_, State.busRead_xferAddr hw a (by omega) (by omega) (xferRegAt_chanAbort _), fun c => s.getLsbD_chanAbort⟩
  case request =>
    refine ⟨_, State.busWrite_xferAddr hw a v (by omega) (by omega) (xferRegAt_chanAbort _), rfl, fun c => ?_⟩
    rw [List.getElem?_mapIdx]
    congr 1
    funext ch
    by_cases hbit : v.getLsbD c = true
    case neg => rw [if_neg hbit, if_neg (mt And.left hbit)]
    by_cases hbusy : ch.busy = true
    case neg => rw [if_pos hbit, if_neg (mt And.right hbusy), Channel.abort_not_busy (Bool.eq_false_iff.mpr hbusy)]
    rw [if_pos hbit, if_pos ⟨hbit, hbusy⟩]
    split
    case h_1 hphase => exact Channel.abort_between hbusy hphase
    case h_2 hphase => exact Channel.abort_holding hbusy hphase
  case ends =>
    rw [step_writePhase he hc hbusy hphase hsize, writePhase_ok h, habort]
    rfl

/-! The loopback (45_transfer_engine.md R155 to R157). -/

/-- An endless transfer that advances no address ends its write phase with the channel as it was, but for the phase. -/
theorem Channel.afterWrite_endless (ch : Channel) (habort : ch.abortPending = false) (hmode : ch.countMode = 0xF#4)
    (hincr : ch.incrWrite = false) (size : AccessSize) :
    ch.afterWrite ch.abortPending size = { ch with phase := .idle } := by
  simp [Channel.afterWrite, habort, hmode, hincr, advanceAddr]

theorem State.channels_pushTx (s : State) (n : SmId) (v : Word) : (s.pushTx n v).channels = s.channels := by
  unfold State.pushTx
  split <;> rfl

/-- Settles O56: the read phase is the read effect of RXF0 and the write phase the write of TXF0. -/
theorem loopback : Obligations.Loopback := by
  intro s c ch hw he hc hbusy habort hmode hread hwrite hsize hincrR hincrW hswap hsel
  have hdreq : s.dreq ch.treqSel = !decide ((s.sm 0).rx.length = 0) := hsel ▸ s.dreq_rx 0
  refine ⟨fun w rest hphase hrx => ?reads, fun hphase hrx => ?stutter, fun w hphase => ?writes⟩
  case reads =>
    have hbus : s.consume.busRead (.channel c) ch.readAddr .word = .ok w (s.consume.popRx 0) := by
      rw [hread]
      refine (State.busRead_seqAddr (s := s.consume) hw _ (.rxf 0)).trans ?_
      rw [State.seqValue, State.consume_sm, hrx]
      rfl
    have hc' : (s.consume.popRx 0).channels[c]? = some ch := State.channels_busRead hbus ▸ hc
    rw [step_readPhase he hc hbusy hphase habort hsize (by rw [hdreq, hrx]; rfl), readPhase_ok hbus,
      State.updChan_eq_setChan _ hc', State.popRx_cons (s := s.consume) hrx, hincrR]
    rfl
  case stutter =>
    refine step_channel_disabled he hc ((State.channelEnabled_idle hbusy hphase habort).trans ?_)
    rw [hdreq, hrx]
    rfl
  case writes =>
    have hbus : s.consume.busWrite (.channel c) ch.writeAddr .word (if ch.bswap then byteSwap .word w else w) =
        .ok (s.consume.pushTx 0 w) := by
      rw [hwrite, hswap]
      exact State.busWrite_seqAddr_ok (s := s.consume) hw _ rfl
    have hc' : (s.consume.pushTx 0 w).channels[c]? = some ch := s.consume.channels_pushTx 0 w ▸ hc
    have hstep : step s = .next ((s.consume.pushTx 0 w).setChan c { ch with phase := .idle }) := by
      rw [step_writePhase he hc hbusy hphase hsize, writePhase_ok hbus, State.updChan_eq_setChan _ hc',
        ch.afterWrite_endless habort hmode hincrW]
    refine ⟨fun hroom => ?room, fun hfull => ?full⟩
    case room =>
      rw [hstep, State.pushTx_room (s := s.consume) hroom]
      rfl
    case full =>
      rw [hstep, State.pushTx_full (s := s.consume) hfull]
      exact ⟨_, rfl, rfl, raised_setBit s.txOver (by decide)⟩

end Sys2Proof.Machine
end

section
/-! SUPPORT. The statements about exceptions (spec/60_exceptions.md): the fault of an unwritten read, and the interrupt
sources and outputs. -/

namespace Sys2Proof.Machine

open Sys2Proof

/-! Who takes the fault, and what it leaves (60_exceptions.md R160). -/

/-- A tick leaves the fault record as it is, unless its instruction reads an unwritten cell. -/
theorem exec_faultRec_cases {i : Instr} {s t : State} (h : exec i s = .next t) :
    t.me.faultRec = s.me.faultRec ∨ (ruleOf i s = .unwritten ∧ t = s.takeFault (some (encode i))) := by
  have heffect := (ruleOf_effect i s).1
  rw [exec_eq_finishTick] at h
  generalize ruleOf i s = r at h heffect
  obtain ⟨s', j, e, rfl, rfl⟩ | ⟨s', rfl, rfl⟩ | hfault := finishTick_next_cases h
  case inl | inr.inl =>
    refine .inl ?_
    rw [State.sideSet_me, State.me_setMe]
    exact heffect.me.faultRec
  case inr.inr => exact .inr hfault

theorem State.smEnabled_of_faultRec {s : State} {k : SmId} (h : (s.sm k).faultRec ≠ none) : s.smEnabled k = false :=
  Bool.eq_false_iff.mpr fun hen => h ((s.smEnabled_iff k).mp hen).1

/-- Whether a state machine has an enabled step depends on itself and the enables alone. -/
theorem State.smEnabled_congr {s t : State} {k : SmId} (hsm : t.sm k = s.sm k) (hen : t.smEnable = s.smEnable) :
    t.smEnabled k = s.smEnabled k := by
  rw [State.smEnabled, State.smEnabled, hsm, hen]

/-- The fault stops the state machine that takes it. -/
theorem State.smEnabled_takeFault (s : State) (word : Option InstrWord) :
    (s.takeFault word).smEnabled s.active = false :=
  State.smEnabled_of_faultRec (s.takeFault_faultRec_ne_none word)

/-- The fault leaves the enabled steps of every other state machine. -/
theorem State.smEnabled_takeFault_ne (s : State) (word : Option InstrWord) {k : SmId} (hk : k ≠ s.active) :
    (s.takeFault word).smEnabled k = s.smEnabled k :=
  State.smEnabled_congr ((TickFrame.takeFault s word).others k hk) rfl

/-! No instruction that finds its registers written takes the fault (10_state.md R23). -/

/-- X, Y and the OSR are written. -/
structure Sm.RegsWritten (m : Sm) : Prop where
  x : m.x.written = true
  y : m.y.written = true
  osr : m.osr.written = true

/-- A rule does not end in the fault, and where it answers a state it leaves X, Y and the OSR written. -/
def RuleResult.LeavesWritten : RuleResult → Prop
  | .complete s' _ _ => s'.me.RegsWritten
  | .stall s' => s'.me.RegsWritten
  | .unwritten => False
  | .refuse _ => True

theorem readCell_ne_none {w : Nat} {c : Cell w} (h : c.written = true) : readCell c ≠ none := by
  simp [readCell_eq_none, h]

theorem Sm.RegsWritten.setMe {s : State} {m : Sm} (h : m.RegsWritten) : (s.setMe m).me.RegsWritten := by
  rwa [State.me_setMe]

/-- No source of a MOV is unwritten. -/
theorem Sm.RegsWritten.movSource_ne_none {m : Sm} (h : m.RegsWritten) (cur : Word) (src : MovSrc) :
    m.movSource cur src ≠ none := by
  cases src with
  | x => exact readCell_ne_none h.x
  | y => exact readCell_ne_none h.y
  | osr => exact readCell_ne_none h.osr
  | pins | null | status | isr => exact Option.some_ne_none _

theorem leavesWritten_jmpRule {addr : Five} {s : State} {cond : Option Bool} (hcond : cond ≠ none)
    (h : s.me.RegsWritten) : (jmpRule addr s cond).LeavesWritten := by
  rcases jmpRule_cases addr s cond with ⟨hnone, _⟩ | ⟨b, _, hr⟩
  · exact absurd hnone hcond
  · rw [hr]
    exact h

section Written
variable {s : State} (h : s.me.RegsWritten)
include h

theorem leavesWritten_waitRule (cond : Bool) : (waitRule s cond).LeavesWritten := by
  rcases waitRule_cases s cond with ⟨_, hr⟩ | ⟨_, hr⟩ <;> rw [hr] <;> exact h

theorem leavesWritten_ruleWaitIrq (pol : Bool) (index : Five) : (ruleWaitIrq pol index s).LeavesWritten := by
  cases hindex : irqIndex index s.active with
  | none =>
    rw [ruleWaitIrq_reserved pol hindex]
    trivial
  | some f =>
    by_cases hlevel : s.irqFlag f = pol
    · rw [ruleWaitIrq_at_level hindex hlevel]
      cases pol <;> exact h
    · rw [ruleWaitIrq_off_level hindex hlevel]
      exact h

/-- An IN whose source is written writes the ISR and the RX FIFO alone. -/
theorem leavesWritten_inRule (count : Five) {src : Option Word} (hsrc : src ≠ none) :
    (inRule count s src).LeavesWritten := by
  rcases inRule_cases count s src with ⟨hnone, _⟩ | ⟨v, _, _, _, _, hr⟩ | ⟨v, _, _, _, _, hr⟩ | ⟨v, _, _, hr⟩
  · exact absurd hnone hsrc
  all_goals rw [hr]
  · exact h
  · exact Sm.RegsWritten.setMe ⟨h.x, h.y, h.osr⟩
  · exact Sm.RegsWritten.setMe ⟨h.x, h.y, h.osr⟩

theorem outSupply_ne_unwritten : s.me.outSupply ≠ .unwritten := by
  rcases outSupply_cases s.me with ⟨_, _, _, e⟩ | ⟨_, _, w, rest, _, e⟩ | ⟨_, hosr, _⟩ | ⟨_, _, e⟩
  case inr.inr.inl =>
    rw [h.osr] at hosr
    cases hosr
  all_goals
    rw [e]
    nofun

/-- An OUT writes the OSR back, so it leaves the registers written where its destination does. -/
theorem leavesWritten_outRule (count : Five) {dest : State → Word → Nat → RuleResult}
    (hd : ∀ s' data n, s'.me.RegsWritten → (dest s' data n).LeavesWritten) :
    (outRule count s dest).LeavesWritten := by
  rcases outRule_cases count s dest with ⟨_, hr⟩ | ⟨hunwritten, _⟩ | ⟨osr, cnt, tx, _, hr⟩
  · rw [hr]
    exact h
  · exact absurd hunwritten (outSupply_ne_unwritten h)
  · rw [hr]
    exact hd _ _ _ (Sm.RegsWritten.setMe ⟨h.x, h.y, rfl⟩)

theorem leavesWritten_pushRule (iffull block : Bool) : (pushRule iffull block s).LeavesWritten := by
  have hcleared {rx : List Word} : (s.setMe { s.me with rx := rx, isr := 0, isrCount := 0 }).me.RegsWritten :=
    Sm.RegsWritten.setMe ⟨h.x, h.y, h.osr⟩
  rcases pushRule_cases iffull block s with
    ⟨_, _, hr⟩ | ⟨_, ⟨_, _, hr⟩ | ⟨_, _, _, hr⟩ | ⟨_, _, _, hr⟩ | ⟨_, hr⟩⟩ <;> rw [hr]
  · exact h
  · exact h
  · exact hcleared
  · exact h
  · exact hcleared

/-- A PULL writes the OSR with a popped word or with X. -/
theorem leavesWritten_pullRule (ifempty block : Bool) : (pullRule ifempty block s).LeavesWritten := by
  rcases pullRule_cases ifempty block s with
    ⟨_, hr⟩ | ⟨_, ⟨_, _, hr⟩ | ⟨_, _, hx, _⟩ | ⟨_, _, _, hr⟩ | ⟨w, rest, _, hr⟩⟩
  case inr.inr.inl =>
    rw [h.x] at hx
    cases hx
  all_goals rw [hr]
  · exact h
  · exact h
  · exact Sm.RegsWritten.setMe ⟨h.x, h.y, rfl⟩
  · exact Sm.RegsWritten.setMe ⟨h.x, h.y, rfl⟩

theorem leavesWritten_movRule (op : MovOp) (src : MovSrc) {dest : Word → RuleResult}
    (hd : ∀ r, (dest r).LeavesWritten) : (movRule op src s dest).LeavesWritten := by
  rcases movRule_cases op src s dest with ⟨hnone, _⟩ | ⟨v, _, hr⟩
  · exact absurd hnone (h.movSource_ne_none _ src)
  · rw [hr]
    exact hd _

theorem leavesWritten_irqRule (wait : Bool) (index : Five) : (irqRule wait index s).LeavesWritten := by
  rcases irqRule_cases wait index s with
    ⟨_, hr⟩ | ⟨f, _, ⟨_, _, hr⟩ | ⟨_, _, hr⟩ | ⟨_, _, hr⟩ | ⟨_, _, hr⟩⟩ <;> rw [hr]
  · trivial
  · exact h
  · exact Sm.RegsWritten.setMe ⟨h.x, h.y, h.osr⟩
  · exact Sm.RegsWritten.setMe ⟨h.x, h.y, h.osr⟩
  · exact h

theorem leavesWritten_irqClearRule (index : Five) : (irqClearRule index s).LeavesWritten := by
  rcases irqClearRule_cases index s with ⟨_, hr⟩ | ⟨f, _, hr⟩ <;> rw [hr]
  · trivial
  · exact h

/-- No instruction faults on written registers, and what it writes to X, Y or the OSR is a value. -/
theorem leavesWritten_ruleOf (i : Instr) : (ruleOf i s).LeavesWritten := by
  have hx : readCell s.me.x ≠ none := readCell_ne_none h.x
  have hy : readCell s.me.y ≠ none := readCell_ne_none h.y
  cases i with
  | jmpAlways | jmpPin | jmpNotOsre => exact leavesWritten_jmpRule (Option.some_ne_none _) h
  | jmpNotX => exact leavesWritten_jmpRule (by simpa using hx) h
  | jmpNotY => exact leavesWritten_jmpRule (by simpa using hy) h
  | jmpXDec => exact leavesWritten_jmpRule (by simpa using hx) (.setMe ⟨rfl, h.y, h.osr⟩)
  | jmpYDec => exact leavesWritten_jmpRule (by simpa using hy) (.setMe ⟨h.x, rfl, h.osr⟩)
  | jmpXNeY =>
    obtain ⟨x, hx⟩ := Option.ne_none_iff_exists'.mp hx
    exact leavesWritten_jmpRule (by simpa [hx] using hy) h
  | waitGpio | waitPin | waitEdge => exact leavesWritten_waitRule h _
  | waitIrq ds pol index => exact leavesWritten_ruleWaitIrq h pol index
  | inPins | inNull | inIsr => exact leavesWritten_inRule h _ (Option.some_ne_none _)
  | inX => exact leavesWritten_inRule h _ hx
  | inY => exact leavesWritten_inRule h _ hy
  | inOsr => exact leavesWritten_inRule h _ (readCell_ne_none h.osr)
  | outPins | outNull | outPindirs | outPc | outExec =>
    simp only [ruleOf, ruleOutPins, ruleOutNull, ruleOutPindirs, ruleOutPc, ruleOutExec]
    exact leavesWritten_outRule h _ fun _ _ _ hw => hw
  | outX =>
    simp only [ruleOf, ruleOutX]
    exact leavesWritten_outRule h _ fun _ _ _ hw => Sm.RegsWritten.setMe ⟨rfl, hw.y, hw.osr⟩
  | outY =>
    simp only [ruleOf, ruleOutY]
    exact leavesWritten_outRule h _ fun _ _ _ hw => Sm.RegsWritten.setMe ⟨hw.x, rfl, hw.osr⟩
  | outIsr =>
    simp only [ruleOf, ruleOutIsr]
    exact leavesWritten_outRule h _ fun _ _ _ hw => Sm.RegsWritten.setMe ⟨hw.x, hw.y, hw.osr⟩
  | push => exact leavesWritten_pushRule h _ _
  | pull => exact leavesWritten_pullRule h _ _
  | nop | setPins | setPindirs => exact h
  | setX => exact Sm.RegsWritten.setMe ⟨rfl, h.y, h.osr⟩
  | setY => exact Sm.RegsWritten.setMe ⟨h.x, rfl, h.osr⟩
  | movPins | movExec | movPc =>
    simp only [ruleOf, ruleMovPins, ruleMovExec, ruleMovPc]
    exact leavesWritten_movRule h _ _ fun _ => h
  | movX =>
    simp only [ruleOf, ruleMovX]
    split
    · exact h
    · exact leavesWritten_movRule h _ _ fun _ => Sm.RegsWritten.setMe ⟨rfl, h.y, h.osr⟩
  | movY =>
    simp only [ruleOf, ruleMovY]
    split
    · exact h
    · exact leavesWritten_movRule h _ _ fun _ => Sm.RegsWritten.setMe ⟨h.x, rfl, h.osr⟩
  | movIsr =>
    simp only [ruleOf, ruleMovIsr]
    exact leavesWritten_movRule h _ _ fun _ => Sm.RegsWritten.setMe ⟨h.x, h.y, h.osr⟩
  | movOsr =>
    simp only [ruleOf, ruleMovOsr]
    exact leavesWritten_movRule h _ _ fun _ => Sm.RegsWritten.setMe ⟨h.x, h.y, rfl⟩
  | irqSet | irqWait => exact leavesWritten_irqRule h _ _
  | irqClear => exact leavesWritten_irqClearRule h _

/-- The end of a tick leaves the registers to the rule. -/
theorem exec_regsWritten {i : Instr} {t : State} (hexec : exec i s = .next t) :
    ruleOf i s ≠ .unwritten ∧ t.me.RegsWritten := by
  have hrule := leavesWritten_ruleOf h i
  rw [exec_eq_finishTick] at hexec
  generalize ruleOf i s = r at hexec hrule
  obtain ⟨s', j, e, rfl, rfl⟩ | ⟨s', rfl, rfl⟩ | ⟨rfl, _⟩ := finishTick_next_cases hexec
  · exact ⟨nofun, Sm.RegsWritten.setMe ⟨hrule.x, hrule.y, hrule.osr⟩⟩
  · exact ⟨nofun, Sm.RegsWritten.setMe ⟨hrule.x, hrule.y, hrule.osr⟩⟩
  · exact hrule.elim

end Written

/-! The record is sticky (60_exceptions.md R160; 70_reset_and_hazards.md R174). -/

/-- A tick changes no record there is: its own state machine has no enabled step, and another's tick leaves it. -/
theorem tickStep_keeps_faultRec {s t : State} {j k : SmId} {r : FaultRecord} (hrec : (s.sm k).faultRec = some r)
    (h : tickStep j s = .next t) : (t.sm k).faultRec = some r := by
  unfold tickStep at h
  split at h
  case isTrue hen =>
    have hother : k ≠ j := by
      rintro rfl
      have hnone := ((s.smEnabled_iff k).mp hen).1
      rw [hrec] at hnone
      cases hnone
    rw [(tickActive_frame h).others k hother]
    exact hrec
  case isFalse =>
    cases h
    exact hrec

theorem channelStep_faultRec {s t : State} {c : Nat} (h : channelStep c s = .next t) (k : SmId) :
    (t.sm k).faultRec = (s.sm k).faultRec := by
  obtain ⟨u, hbus, rfl | ⟨f, rfl⟩⟩ := channelStep_cases h
  · exact hbus.faultRec k
  · exact hbus.faultRec k

/-- No event but a block reset clears or changes a record. -/
theorem perform_keeps_faultRec {s t : State} {e : Event} {k : SmId} {r : FaultRecord}
    (hrec : (s.sm k).faultRec = some r) (hreset : e ≠ .blockReset) (h : perform e s = .next t) :
    (t.sm k).faultRec = some r := by
  cases e with
  | tick j => exact tickStep_keeps_faultRec hrec h
  | channel c => exact (channelStep_faultRec h k).trans hrec
  | hostRead addr size => exact ((hostReadStep_effect h).faultRec k).trans hrec
  | hostWrite addr size v => exact ((hostWriteStep_effect h).faultRec k).trans hrec
  | environment env =>
    cases h
    exact hrec
  | blockReset => exact absurd rfl hreset

/-- Settles O30: a new record is the one `takeFault` writes, written registers leave no way to it, and a record keeps its
state machine from stepping, so nothing but a block reset reaches it. -/
theorem unwrittenReadFault : Obligations.UnwrittenReadFault := by
  refine ⟨fun i s t h hnone hnew => ?precise, fun i s t h hnone hx hy hosr => ?written,
    fun s k he hrec => step_tick_disabled he (State.smEnabled_of_faultRec hrec),
    fun s t k r hrec hreset h => perform_keeps_faultRec (s := s.consume) hrec hreset h⟩
  case precise =>
    obtain hkept | ⟨_, rfl⟩ := exec_faultRec_cases h
    · exact absurd (hkept.trans hnone) hnew
    · exact ⟨s.me_setMe _, .takeFault s _, ⟨rfl, rfl, rfl⟩, rfl, rfl, s.smEnabled_takeFault _,
        fun k => s.smEnabled_takeFault_ne _⟩
  case written =>
    obtain ⟨hnot, hwritten⟩ := exec_regsWritten ⟨hx, hy, hosr⟩ h
    obtain hkept | ⟨hunwritten, _⟩ := exec_faultRec_cases h
    · exact ⟨hkept.trans hnone, hwritten.x, hwritten.y, hwritten.osr⟩
    · exact absurd hunwritten hnot

/-! The interrupt sources and outputs (60_exceptions.md R164, R165). -/

/-- The bits of three nibbles, the layout of INTR. -/
theorem getLsbD_nibbles (n2 n1 n0 : BitVec 4) {k : Nat} (hk : k < 4) :
    (n2 ++ (n1 ++ n0)).getLsbD k = n0.getLsbD k ∧ (n2 ++ (n1 ++ n0)).getLsbD (4 + k) = n1.getLsbD k ∧
    (n2 ++ (n1 ++ n0)).getLsbD (8 + k) = n2.getLsbD k := by
  repeat rw [BitVec.getLsbD_append]
  simp (disch := omega) only [if_pos, if_neg, Nat.reduceAdd, Nat.add_sub_cancel_left, and_self]

theorem State.getLsbD_intr_sm (s : State) (k : SmId) :
    s.intr.getLsbD k.val = !decide ((s.sm k).rx.length = 0) ∧
    s.intr.getLsbD (4 + k.val) = !decide ((s.sm k).tx.length = (s.sm k).txCap) := by
  obtain ⟨hrx, htx, _⟩ := getLsbD_nibbles (s.irq.extractLsb' 0 4) (s.perSm fun m => !m.txFull)
    (s.perSm fun m => !m.rxEmpty) k.isLt
  rw [State.intr, hrx, htx, s.getLsbD_perSm, s.getLsbD_perSm, Sm.rxEmpty_eq]
  exact ⟨rfl, rfl⟩

theorem State.getLsbD_intr_irq (s : State) {f : Nat} (hf : f < 4) : s.intr.getLsbD (8 + f) = s.irq.getLsbD f := by
  obtain ⟨_, _, hirq⟩ := getLsbD_nibbles (s.irq.extractLsb' 0 4) (s.perSm fun m => !m.txFull)
    (s.perSm fun m => !m.rxEmpty) hf
  rw [State.intr, hirq, BitVec.getLsbD_extractLsb', decide_eq_true hf, Bool.true_and, Nat.zero_add]

/-- A vector is not 0 where one of its bits is set. -/
theorem ne_zero_iff_exists_getLsbD {w : Nat} (v : BitVec w) : v ≠ 0 ↔ ∃ b < w, v.getLsbD b = true := by
  constructor
  · intro hne
    by_contra hnone
    refine hne (BitVec.eq_of_getLsbD_eq fun b hb => ?_)
    refine Eq.trans ?_ BitVec.getLsbD_zero.symm
    exact Bool.eq_false_iff.mpr fun hbit => hnone ⟨b, hb, hbit⟩
  · rintro ⟨b, _, hbit⟩ rfl
    simp at hbit

/-- An interrupt output is raised where some enabled source is raised or forced (60_exceptions.md R165). -/
theorem interruptOutput_iff (raw force enable : BitVec 12) : decide ((raw ||| force) &&& enable ≠ 0) = true ↔
    ∃ b < 12, (raw.getLsbD b || force.getLsbD b) = true ∧ enable.getLsbD b = true := by
  simp only [decide_eq_true_iff, ne_zero_iff_exists_getLsbD, BitVec.getLsbD_and, BitVec.getLsbD_or, Bool.and_eq_true]

/-- Settles O45: INTR is three nibbles of sources, and each output tests the enabled ones of them and the forces. -/
theorem interruptSources : Obligations.InterruptSources := fun s =>
  ⟨rfl, s.getLsbD_intr_sm, fun _ hf => s.getLsbD_intr_irq hf, interruptOutput_iff s.intr s.intf0 s.inte0,
    interruptOutput_iff s.intr s.intf1 s.inte1⟩

end Sys2Proof.Machine
end

section
/-! SUPPORT. The statements about reset (spec/70_reset_and_hazards.md): the reset value of every piece of state, the
block reset as a step, and the invariant right after reset. -/

namespace Sys2Proof.Machine

open Sys2Proof

/-- X, Y and the OSR hold 0 at reset where the parameter says so (92_eei_decisions.md D7). -/
theorem Cell.holds_atReset {w : Nat} {unwritten : Bool} (h : unwritten = false) :
    Holds (Cell.atReset (w := w) unwritten) 0 := by
  subst h
  exact ⟨rfl, rfl⟩

/-- X, Y and the OSR are unwritten at reset where the parameter says so (10_state.md R23). -/
theorem Cell.written_atReset {w : Nat} {unwritten : Bool} (h : unwritten = true) :
    (Cell.atReset (w := w) unwritten).written = false := by
  subst h
  rfl

/-- Neither join bit is set at reset, so both FIFOs have their own four entries (10_state.md R21). -/
theorem Sm.caps_resetWith (unwritten : Bool) :
    (Sm.resetWith unwritten).txCap = 4 ∧ (Sm.resetWith unwritten).rxCap = 4 :=
  have htx : (0x000C0000#32).getLsbD 30 = false := by decide
  have hrx : (0x000C0000#32).getLsbD 31 = false := by decide
  Sm.caps_of_joins (m := Sm.resetWith unwritten) htx hrx rfl

theorem Sm.txFull_resetWith (unwritten : Bool) : (Sm.resetWith unwritten).txFull = false := by
  rw [Sm.txFull, (Sm.caps_resetWith unwritten).1]
  rfl

theorem Sm.rxFull_resetWith (unwritten : Bool) : (Sm.resetWith unwritten).rxFull = false := by
  rw [Sm.rxFull, (Sm.caps_resetWith unwritten).2]
  rfl

theorem Sm.txEmpty_resetWith (unwritten : Bool) : (Sm.resetWith unwritten).txEmpty = true := rfl

theorem Sm.rxEmpty_resetWith (unwritten : Bool) : (Sm.resetWith unwritten).rxEmpty = true := rfl

/-- Two empty FIFOs show level 0 (10_state.md R33). -/
theorem Sm.levels_of_nil {m : Sm} (htx : m.tx = []) (hrx : m.rx = []) : m.levels = 0#8 := by
  rw [Sm.levels, htx, hrx]
  rfl

/-- EXECCTRL reads its stored value at reset: with nothing pending, EXEC_STALLED is 0 (40_sequencer_cycle.md R111). -/
theorem Sm.execctrlRead_resetWith (unwritten : Bool) :
    BitVec.ofBool (Sm.resetWith unwritten).execStalled ++ (Sm.resetWith unwritten).execctrl.extractLsb' 0 31 =
      0x0001F000#32 :=
  have hread : BitVec.ofBool false ++ (0x0001F000#32).extractLsb' 0 31 = 0x0001F000#32 := by decide
  hread

section ResetWith

variable (p : Params) (numCh : Nat) (env : Env)

/-- The state machines are alike at reset, so each of their flags fills its nibble. -/
theorem State.perSm_resetWith (f : Sm → Bool) :
    (State.resetWith p numCh env).perSm f = if f (Sm.resetWith p.unwrittenAtReset) then 0xF#4 else 0#4 := by
  simp only [State.perSm, State.sm_resetWith]
  cases f (Sm.resetWith p.unwrittenAtReset) <;> rfl

theorem State.imem_resetWith (i : Fin 32) : (State.resetWith p numCh env).imem.get i = .unwritten :=
  Vector.getElem_replicate i.isLt

theorem State.eq_reset_of_channel_resetWith {c : Nat} {ch : Channel}
    (hc : (State.resetWith p numCh env).channels[c]? = some ch) : ch = Channel.reset :=
  List.eq_of_mem_replicate (List.mem_of_getElem? hc)

/-- Every FIFO is empty and none is full (10_state.md R31). -/
theorem State.fstat_resetWith : (State.resetWith p numCh env).fstat = 0x0F000F00#32 := by
  rw [State.fstat_eq, State.perSm_resetWith, State.perSm_resetWith, State.perSm_resetWith, State.perSm_resetWith,
    Sm.txEmpty_resetWith, Sm.txFull_resetWith, Sm.rxEmpty_resetWith, Sm.rxFull_resetWith]
  rfl

/-- No flag of FDEBUG is raised (10_state.md R32). -/
theorem State.fdebug_resetWith : (State.resetWith p numCh env).fdebug = 0 :=
  have hnone : nibbleLanes 0#4 0#4 0#4 0#4 = 0 := by decide
  hnone

/-- Every level is 0 (10_state.md R33). -/
theorem State.flevel_resetWith : (State.resetWith p numCh env).flevel = 0 := by
  have hlevels : ∀ k, ((State.resetWith p numCh env).sm k).levels = 0#8 := fun k => by
    rw [State.sm_resetWith]
    exact Sm.levels_of_nil rfl rfl
  rw [State.flevel, hlevels, hlevels, hlevels, hlevels]
  rfl

/-- The sources raised at reset are the four TX FIFOs with room (60_exceptions.md R164). -/
theorem State.intr_resetWith : (State.resetWith p numCh env).intr = 0x0F0#12 := by
  have hirq : (State.resetWith p numCh env).irq = 0#8 := rfl
  rw [State.intr, hirq, State.perSm_resetWith, State.perSm_resetWith, Sm.txFull_resetWith, Sm.rxEmpty_resetWith]
  rfl

/-- No source is enabled at reset (60_exceptions.md R165). -/
theorem State.ints_resetWith : (State.resetWith p numCh env).ints0 = 0 ∧ (State.resetWith p numCh env).ints1 = 0 :=
  ⟨BitVec.and_zero, BitVec.and_zero⟩

/-- No abort is pending at reset (10_state.md R51). -/
theorem State.chanAbort_resetWith : (State.resetWith p numCh env).xferValue .chanAbort = 0 := by
  by_contra hne
  obtain ⟨c, hc, hbit⟩ := (ne_zero_iff_exists_getLsbD _).mp hne
  obtain ⟨ch, hch, habort⟩ := (State.getLsbD_chanAbort _ hc).mp hbit
  rw [State.eq_reset_of_channel_resetWith p numCh env hch] at habort
  cases habort

end ResetWith

/-- Settles O57: each state machine, channel and slot is its own reset value, the status registers read by the lemmas
above, and every other piece of the state is written by `State.resetWith` itself. -/
theorem resetState : Obligations.ResetState := by
  intro p numCh env s
  obtain ⟨hints0, hints1⟩ := State.ints_resetWith p numCh env
  refine ⟨fun k => ?sm, fun i => ?slot, rfl, rfl, rfl, rfl, rfl, rfl, rfl, rfl, rfl, rfl, rfl, rfl, rfl, rfl,
    State.fstat_resetWith p numCh env, State.fdebug_resetWith p numCh env, State.flevel_resetWith p numCh env,
    rfl, rfl, rfl, rfl,
    congrArg (·.zeroExtend 32) (State.intr_resetWith p numCh env), congrArg (·.zeroExtend 32) hints0,
    congrArg (·.zeroExtend 32) hints1, List.length_replicate,
    fun c ch hc => ?channel, State.chanAbort_resetWith p numCh env, fun _ => rfl⟩
  case sm =>
    simp only [State.seqValue]
    rw [State.sm_resetWith p numCh env k]
    obtain ⟨htx, hrx⟩ := Sm.caps_resetWith p.unwrittenAtReset
    exact ⟨rfl, rfl, rfl, rfl,
      fun h => ⟨Cell.holds_atReset h, Cell.holds_atReset h, Cell.holds_atReset h⟩,
      fun h => ⟨Cell.written_atReset h, Cell.written_atReset h, Cell.written_atReset h⟩,
      rfl, rfl, htx, hrx, rfl, rfl, rfl, rfl, rfl, rfl, Sm.execctrlRead_resetWith _, rfl, rfl, rfl⟩
  case slot =>
    rw [State.imem_resetWith p numCh env i]
    rfl
  case channel =>
    rw [State.eq_reset_of_channel_resetWith p numCh env hc]
    exact ⟨rfl, rfl, rfl, rfl, rfl, rfl, rfl, rfl, rfl⟩

/-- A block reset is performed on the machine that has taken the event (70_reset_and_hazards.md R172). -/
theorem step_blockReset {s : State} (he : s.nextEvent = .blockReset) : step s = .next s.consume.blockReset := by
  rw [step, he]
  rfl

/-- Settles O58: taking the event counts the step, and the block reset keeps that count and the rest of the agenda. -/
theorem blockResetStep : Obligations.BlockResetStep := fun _ he => step_blockReset he

/-- Settles O60: the reset state is the one of the default parameters. -/
theorem resetInvariant : Obligations.ResetInvariant := .resetWith Params.default numChAtReset envAtReset

end Sys2Proof.Machine
end
